-- ==== Sys2Proof/Word.lean ====
section
/-!
DEFINITION. The words of BFX and the plainest arithmetic of spec/00_scope.md section 4 (rules R9 to R12).
-/

namespace Sys2Proof

/-- A byte, the smallest addressable unit of MEM (rule R60). -/
abbrev Byte := BitVec 8

/-- A command word, and the width of a host register access (rules R80, R40). -/
abbrev Word := BitVec 32

/-- The contents of a data register X (rule R22). -/
abbrev Data := BitVec 64

/-- The stored bits of a descriptor register D (rules R21, R38). -/
abbrev DescBits := BitVec 30

end Sys2Proof
end

