-- ==== Sys2Proof/Config.lean ====
section
/-!
DEFINITION. What a build of BFX fixes (spec/00_scope.md rule R8), and the free values the spec leaves open.
-/

namespace Sys2Proof.Config

/-- WMAX of rule R8: the largest integer width, and the largest bit-view width. -/
abbrev wmax : Nat := 64

/-- TWIDTHS of rule R8: the widths an integer type may have. -/
abbrev twidths : List Nat := [8, 16, 32, 64]

/-- TABLE_ENTRY of rule R8: the bytes of one PACK field-table entry. -/
abbrev tableEntry : Nat := 4

/-- The two OPEN parameters of rule R8. A build fixes them and nothing changes them. State holds them as data, so that a
statement over all states holds for every build (log entry 1). -/
structure Params where
  /-- MEM_SIZE: the bytes of MEM, at addresses 0 to MEM_SIZE - 1. -/
  memSize : Nat
  /-- HEX_UPPER: whether STRH writes the digits above 9 as upper-case letters (rule R191). -/
  hexUpper : Bool
  deriving DecidableEq, Repr

/-- The range rule R8 gives MEM_SIZE. -/
abbrev Params.Legal (p : Params) : Prop := 1 ≤ p.memSize ∧ p.memSize ≤ 65536

/-- DESIGN CHOICE (log entry 1): the build State.reset names, that of spec/95_test_vectors.md section 0. -/
def referenceParams : Params := { memSize := 65536, hexUpper := false }

/-- The free value of the MEM byte at an address, in the draw of that number. The spec leaves MEM unspecified after a hardware
reset (rule R231; spec/93_implementation_defined.md S1, S2: "any value ... Never assumed zero"). It has no body: nothing can be
proved about it (log entries 3, 4, 5). -/
opaque freeByte : (draw : Nat) → (address : Nat) → Byte

end Sys2Proof.Config
end

