-- ==== Sys2Proof/Syntax.lean ====
section
/-!
DEFINITION. The 18 commands of BFX, one constructor for each row of the opcode map (spec/30_encoding.md rule R89), operands in
the order of the assembler syntax (rule R95).
-/

namespace Sys2Proof

/-- The number of a data register, X0 to X7. Every 3-bit number is valid (rule R88). -/
abbrev XReg := Fin 8

/-- The number of a descriptor register, D0 to D7. Every 3-bit number is valid (rule R88). -/
abbrev DReg := Fin 8

/-- The width of an integer type, a member of TWIDTHS (rules R8, R86). -/
inductive IntWidth where
  | w8 | w16 | w32 | w64
  deriving DecidableEq, Repr

/-- An integer type: a width and a signedness, S = 1 for a signed one (rule R15). -/
structure IntType where
  width : IntWidth
  signed : Bool
  deriving DecidableEq, Repr

/-- A command. A register operand is a register number. An immediate L, M, R, N, LEN or OFF is an unsigned integer, taken as it
stands (rule R87); WellFormed says which of them a word can hold. -/
inductive Instr where
  /-- BSIZE: the size of a byte view (rule R111). -/
  | bsize (rd : XReg) (ds : DReg)
  /-- BGET: read the byte at a logical index (rule R112). -/
  | bget (rd : XReg) (ds : DReg) (rs : XReg)
  /-- BSET: write the byte at a logical index (rule R113). -/
  | bset (ds : DReg) (rs rt : XReg)
  /-- MASK: the interval mask of left, middle and right (rule R120). -/
  | mask (rd : XReg) (l m r : Nat)
  /-- LJI: left-justify the low n bits of an integer (rule R121). -/
  | lji (rd rs : XReg) (w : IntWidth) (n : Nat)
  /-- RJI: right-justify the top n bits of an integer (rule R122). -/
  | rji (rd rs : XReg) (w : IntWidth) (n : Nat)
  /-- CSIZE: the byte count that holds a bit count (rule R123). -/
  | csize (rd rs : XReg)
  /-- GETBIT: read one logical bit (rule R141). -/
  | getbit (rd : XReg) (ds : DReg) (rs : XReg)
  /-- SETBIT: write one logical bit (rule R142). -/
  | setbit (ds : DReg) (rs rt : XReg)
  /-- CONV: convert a bit view to an integer (rule R143). -/
  | conv (rd : XReg) (ds : DReg) (t : IntType)
  /-- FROMINT: convert an integer into a bit view (rule R144). -/
  | fromint (ds : DReg) (rs : XReg)
  /-- NEG: two's-complement negation in place (rule R145). -/
  | neg (ds : DReg)
  /-- IVAL: extract an interval of bits (rule R146). -/
  | ival (rd : XReg) (ds : DReg) (t : IntType) (len off : Nat)
  /-- LJV: left-justify a big-endian bit view in place (rule R170). -/
  | ljv (ds : DReg)
  /-- RJV: right-justify a packed big-endian buffer in place (rule R171). -/
  | rjv (ds : DReg)
  /-- PACK: concatenate the fields of a table into a destination (rules R180 to R182). -/
  | pack (dd : DReg) (rs rt : XReg)
  /-- STRB: render a bit view as binary digits (rule R190). -/
  | strb (dd ds : DReg)
  /-- STRH: render a byte view as hexadecimal digits (rule R191). -/
  | strh (dd ds : DReg)
  deriving DecidableEq, Repr

end Sys2Proof
end

