-- ==== Sys2Proof/Decode.lean ====
section
/-!
DEFINITION. The command encoding of spec/30_encoding.md: the fields of the four formats (rules R82 to R85), the opcode map
(rule R89), decoding (rule R97), encoding (rule R98), and the assembler syntax (rule R95).
-/

namespace Sys2Proof

/-! ## Fields of a command word -/

/-- The bits hi down to lo of a word, as an unsigned integer; an empty slice, hi below lo, is 0 (rules R11, R87). -/
def wordBits (w : Word) (hi lo : Nat) : Nat := (w.toNat >>> lo) % 2 ^ (hi + 1 - lo)

/-- A 3-bit register field whose lowest bit is lo (rule R88). -/
def regField (w : Word) (lo : Nat) : Fin 8 := Fin.ofNat 8 (wordBits w (lo + 2) lo)

/-- OP, bits 5:0 of every command (rule R81). -/
def opField (w : Word) : Nat := wordBits w 5 0

/-- RD, bits 8:6 of every format that has it (rules R82 to R85). -/
def rdField (w : Word) : XReg := regField w 6

/-- DS, bits 11:9 of formats R and C (rules R82, R83). -/
def dsField (w : Word) : DReg := regField w 9

/-- RS, bits 14:12 of formats R and J (rules R82, R84). -/
def rsField (w : Word) : XReg := regField w 12

/-- RT, bits 17:15 of format R (rule R82). -/
def rtField (w : Word) : XReg := regField w 15

/-- DD, bits 20:18 of format R (rule R82). -/
def ddField (w : Word) : DReg := regField w 18

/-! ## Integer types -/

/-- width(W) = 8 << W (rule R86). -/
def IntWidth.bits : IntWidth → Nat
  | .w8 => 8
  | .w16 => 16
  | .w32 => 32
  | .w64 => 64

/-- The code of a width in field W (rule R86). -/
def IntWidth.code : IntWidth → Nat
  | .w8 => 0
  | .w16 => 1
  | .w32 => 2
  | .w64 => 3

/-- The width a 2-bit field W names; every value is legal (rule R86). -/
def widthOfCode : Nat → IntWidth
  | 0 => .w8
  | 1 => .w16
  | 2 => .w32
  | _ => .w64

/-- The integer type of a format C word: W in bits 13:12 and S in bit 14 (rule R83). -/
def typeField (w : Word) : IntType := { width := widthOfCode (wordBits w 13 12), signed := wordBits w 14 14 == 1 }

/-- Field S of an integer type (rules R15, R83). -/
def IntType.signCode (t : IntType) : Nat := if t.signed then 1 else 0

/-! ## The opcode map -/

/-- One row of the opcode map of rule R89: a word encodes this row's command exactly when its bits under mask are pattern, and
then read gives the command with its fields. -/
structure OpcodeRow where
  mnemonic : String
  pattern : Word
  mask : Word
  read : Word → Instr

/-- The opcode map of rule R89, row by row. -/
def opcodeMap : List OpcodeRow :=
  [ ⟨"BSIZE", 0x00000001, 0xFFFFF03F, fun w => .bsize (rdField w) (dsField w)⟩,
    ⟨"BGET", 0x00000002, 0xFFFF803F, fun w => .bget (rdField w) (dsField w) (rsField w)⟩,
    ⟨"BSET", 0x00000003, 0xFFFC01FF, fun w => .bset (dsField w) (rsField w) (rtField w)⟩,
    ⟨"MASK", 0x00000008, 0xC000003F, fun w => .mask (rdField w) (wordBits w 15 9) (wordBits w 22 16) (wordBits w 29 23)⟩,
    ⟨"LJI", 0x00000009, 0xFF000E3F, fun w => .lji (rdField w) (rsField w) (widthOfCode (wordBits w 16 15)) (wordBits w 23 17)⟩,
    ⟨"RJI", 0x0000000A, 0xFF000E3F, fun w => .rji (rdField w) (rsField w) (widthOfCode (wordBits w 16 15)) (wordBits w 23 17)⟩,
    ⟨"CSIZE", 0x0000000B, 0xFFFF8E3F, fun w => .csize (rdField w) (rsField w)⟩,
    ⟨"GETBIT", 0x00000010, 0xFFFF803F, fun w => .getbit (rdField w) (dsField w) (rsField w)⟩,
    ⟨"SETBIT", 0x00000011, 0xFFFC01FF, fun w => .setbit (dsField w) (rsField w) (rtField w)⟩,
    ⟨"CONV", 0x00000012, 0xFFFF803F, fun w => .conv (rdField w) (dsField w) (typeField w)⟩,
    ⟨"FROMINT", 0x00000013, 0xFFFF81FF, fun w => .fromint (dsField w) (rsField w)⟩,
    ⟨"NEG", 0x00000014, 0xFFFFF1FF, fun w => .neg (dsField w)⟩,
    ⟨"IVAL", 0x00000015, 0xE000003F,
      fun w => .ival (rdField w) (dsField w) (typeField w) (wordBits w 21 15) (wordBits w 28 22)⟩,
    ⟨"LJV", 0x00000018, 0xFFFFF1FF, fun w => .ljv (dsField w)⟩,
    ⟨"RJV", 0x00000019, 0xFFFFF1FF, fun w => .rjv (dsField w)⟩,
    ⟨"PACK", 0x00000020, 0xFFE00FFF, fun w => .pack (ddField w) (rsField w) (rtField w)⟩,
    ⟨"STRB", 0x00000028, 0xFFE3F1FF, fun w => .strb (ddField w) (dsField w)⟩,
    ⟨"STRH", 0x00000029, 0xFFE3F1FF, fun w => .strh (ddField w) (dsField w)⟩ ]

/-- Whether a word is one of a row's commands: `(w & mask) = match` (rules R89, R97). -/
def OpcodeRow.fits (r : OpcodeRow) (w : Word) : Bool := w &&& r.mask == r.pattern

/-- Whether a row has the opcode of a word. -/
def OpcodeRow.hasOpOf (r : OpcodeRow) (w : Word) : Bool := opField r.pattern == opField w

/-! ## Decoding -/

/-- Why a word is no command. Both raise ILLEGAL with argument 0 (rules R90, R91, R203). -/
inductive DecodeError where
  /-- Its OP is not in the opcode map (rule R91). -/
  | reservedOpcode
  /-- Its OP is in the map, with a 1 in an unused or reserved bit (rule R90). -/
  | reservedBits
  deriving DecidableEq, Repr

/-- Decode a command word: the first row of the opcode map that fits gives the command (rule R97). It is total: every word is one
command or is rejected (rules R90, R91, R92). -/
def decode (w : Word) : Except DecodeError Instr :=
  match opcodeMap.find? (fun r => r.fits w) with
  | some r => .ok (r.read w)
  | none => .error (if opcodeMap.any (fun r => r.hasOpOf w) then .reservedBits else .reservedOpcode)

/-- The host's question: the command an opcode-table word of nbits bits is decoded to. The table's rows have 32 bits, and any bit
above nbits is 0. -/
def decodeTableWord (nbits w : Nat) : Option Instr :=
  match decode (BitVec.ofNat 32 (w % 2 ^ nbits)) with
  | .ok i => some i
  | .error _ => none

/-! ## Encoding -/

/-- enc_R of rule R98. -/
def encR (op rd ds rs rt dd : Nat) : Word :=
  BitVec.ofNat 32 (op ||| rd <<< 6 ||| ds <<< 9 ||| rs <<< 12 ||| rt <<< 15 ||| dd <<< 18)

/-- enc_C of rule R98. -/
def encC (op rd ds w s len off : Nat) : Word :=
  BitVec.ofNat 32 (op ||| rd <<< 6 ||| ds <<< 9 ||| w <<< 12 ||| s <<< 14 ||| len <<< 15 ||| off <<< 22)

/-- enc_J of rule R98. -/
def encJ (op rd rs w n : Nat) : Word :=
  BitVec.ofNat 32 (op ||| rd <<< 6 ||| rs <<< 12 ||| w <<< 15 ||| n <<< 17)

/-- enc_M of rule R98. -/
def encM (op rd l m r : Nat) : Word :=
  BitVec.ofNat 32 (op ||| rd <<< 6 ||| l <<< 9 ||| m <<< 16 ||| r <<< 23)

/-- The word of a command, an unused field passed as 0 (rules R89, R98). -/
def encode : Instr → Word
  | .bsize rd ds => encR 0x01 rd ds 0 0 0
  | .bget rd ds rs => encR 0x02 rd ds rs 0 0
  | .bset ds rs rt => encR 0x03 0 ds rs rt 0
  | .mask rd l m r => encM 0x08 rd l m r
  | .lji rd rs w n => encJ 0x09 rd rs w.code n
  | .rji rd rs w n => encJ 0x0A rd rs w.code n
  | .csize rd rs => encR 0x0B rd 0 rs 0 0
  | .getbit rd ds rs => encR 0x10 rd ds rs 0 0
  | .setbit ds rs rt => encR 0x11 0 ds rs rt 0
  | .conv rd ds t => encC 0x12 rd ds t.width.code t.signCode 0 0
  | .fromint ds rs => encR 0x13 0 ds rs 0 0
  | .neg ds => encR 0x14 0 ds 0 0 0
  | .ival rd ds t len off => encC 0x15 rd ds t.width.code t.signCode len off
  | .ljv ds => encR 0x18 0 ds 0 0 0
  | .rjv ds => encR 0x19 0 ds 0 0 0
  | .pack dd rs rt => encR 0x20 0 0 rs rt dd
  | .strb dd ds => encR 0x28 0 ds 0 0 dd
  | .strh dd ds => encR 0x29 0 ds 0 0 dd

/-! ## Assembler syntax -/

/-- A data register as rule R95 writes it. -/
def xName (r : XReg) : String := "x" ++ toString r.val

/-- A descriptor register as rule R95 writes it. -/
def dName (r : DReg) : String := "d" ++ toString r.val

/-- An integer type as rules R15 and R95 write it: u8 to s64. -/
def IntType.name (t : IntType) : String := (if t.signed then "s" else "u") ++ toString t.width.bits

/-- A mnemonic and its operands, separated by commas (rule R95). -/
def asmLine (mnemonic : String) (operands : List String) : String := mnemonic ++ " " ++ String.intercalate ", " operands

/-- A command in the assembler syntax of rule R95. -/
def Instr.asm : Instr → String
  | .bsize rd ds => asmLine "bsize" [xName rd, dName ds]
  | .bget rd ds rs => asmLine "bget" [xName rd, dName ds, xName rs]
  | .bset ds rs rt => asmLine "bset" [dName ds, xName rs, xName rt]
  | .mask rd l m r => asmLine "mask" [xName rd, toString l, toString m, toString r]
  | .lji rd rs w n => asmLine "lji" [xName rd, xName rs, toString w.bits, toString n]
  | .rji rd rs w n => asmLine "rji" [xName rd, xName rs, toString w.bits, toString n]
  | .csize rd rs => asmLine "csize" [xName rd, xName rs]
  | .getbit rd ds rs => asmLine "getbit" [xName rd, dName ds, xName rs]
  | .setbit ds rs rt => asmLine "setbit" [dName ds, xName rs, xName rt]
  | .conv rd ds t => asmLine "conv" [xName rd, dName ds, t.name]
  | .fromint ds rs => asmLine "fromint" [dName ds, xName rs]
  | .neg ds => asmLine "neg" [dName ds]
  | .ival rd ds t len off => asmLine "ival" [xName rd, dName ds, t.name, toString len, toString off]
  | .ljv ds => asmLine "ljv" [dName ds]
  | .rjv ds => asmLine "rjv" [dName ds]
  | .pack dd rs rt => asmLine "pack" [dName dd, xName rs, xName rt]
  | .strb dd ds => asmLine "strb" [dName dd, dName ds]
  | .strh dd ds => asmLine "strh" [dName dd, dName ds]

end Sys2Proof
end

