-- ==== Sys2Proof/Machine/State.lean ====
section
/-!
DEFINITION. The state of BFX as plain data (spec/10_state.md rule R21), what the host and the platform may do to it, how a
command ends, and the state after a hardware reset (spec/70_reset_and_hazards.md rule R231).
-/

namespace Sys2Proof.Machine

/-- A 32-bit register word of the host port, at the byte offset of four times its number: offsets 0x00000 to 0x0FFFC in steps of 4,
the only offsets below 0x10000 at which rule R40 defines an access. -/
abbrev PortWord := BitVec 14

/-- One move of the host or of the platform. The spec gives no other (rules R20, R40, R230): an access of another width or
alignment cannot be written down (log entry 8). -/
inductive Move where
  /-- The host reads a 32-bit register word (rules R29, R40). -/
  | readReg (port : PortWord)
  /-- The host writes a 32-bit register word (rules R29, R40). A write of CMD issues a command (rule R34). -/
  | writeReg (port : PortWord) (v : Word)
  /-- The host reads the byte at offset 0x10000 + a (rule R61). -/
  | readMem (a : BitVec 16)
  /-- The host writes the byte at offset 0x10000 + a (rule R61). -/
  | writeMem (a : BitVec 16) (v : Byte)
  /-- The platform asserts the hardware reset while no command runs; power-up is this too (rules R230, R231). -/
  | hardReset
  /-- The host writes w to CMD and the hardware reset arrives before that command ends (rule R231, last part). -/
  | hardResetDuring (w : Word)
  deriving DecidableEq, Repr

/-- What the host port answers to a read (rules R37, R61). -/
inductive Reply where
  | word (v : Word)
  | byte (v : Byte)
  deriving DecidableEq, Repr

/-- MEM as data: address and byte pairs (rule R60). Memory.wf (Ops.lean) is its canonical form. -/
abbrev Memory := List Host.Cell

/-- The state of BFX: rule R21's list, then the model's own fields. -/
structure State where
  /-- X[0..7], the data registers (rule R22). -/
  x : Vector Data 8
  /-- D[0..7], the stored bits of the descriptor registers (rules R23, R38). -/
  d : Vector DescBits 8
  /-- MEM: the bytes written since the last reset that left MEM unspecified, by strictly rising address. A byte not listed reads
  as a free value (rules R60, R231; log entry 3). -/
  mem : Memory
  /-- CTRL.EIE, the error interrupt enable (rules R32, R206). -/
  eie : Bool
  /-- STATUS.BUSY (rules R33, R41). -/
  busy : Bool
  /-- STATUS.ERR (rules R33, R201). -/
  err : Bool
  /-- STATUS.ERRCODE (rules R33, R203). -/
  errcode : BitVec 8
  /-- ERRINFO (rule R35). -/
  errinfo : Word
  /-- ERRARG (rule R36). -/
  errarg : Word
  /-- The model's own: the build's parameters (rule R8; log entry 1). -/
  params : Config.Params
  /-- The model's own: the moves the host and the platform make next (log entry 2). -/
  script : List Move
  /-- The model's own: the host port's answer to the last read (log entry 8). -/
  reply : Option Reply
  /-- The model's own: the number of the free draw that gives the bytes of MEM not listed (log entry 4). -/
  memDraw : Nat
  /-- The model's own: the number of the next free draw (log entry 4). -/
  nextDraw : Nat
  deriving DecidableEq, Repr

/-- The state right after a hardware reset (rules R231, R43), in the build and with the model's own values that log entries 1, 2,
4 and 8 name. -/
def State.reset : State :=
  { x := Vector.replicate 8 0
    d := Vector.replicate 8 0
    mem := []
    eie := false
    busy := false
    err := false
    errcode := 0
    errinfo := 0
    errarg := 0
    params := Config.referenceParams
    script := []
    reply := none
    memDraw := 0
    nextDraw := 1 }

/-- The error a command may raise: the 13 codes of rule R203. -/
inductive ErrorCode where
  | illegal | viewWidth | memRange | order | widthMismatch | intervalRange | bitRange | byteRange | packCapacity | overlap
  | maskWidth | justifyWidth | renderSize
  deriving DecidableEq, Repr

/-- An error raised: its code and its argument (rules R13, R205). -/
structure CmdError where
  code : ErrorCode
  arg : Nat
  deriving DecidableEq, Repr

/-- What the EFFECT phase of a command writes: at most one X register, and bytes of MEM in order. No command writes a D register
or CTRL (rules R14, R23). Every value in it is computed from the state at the start of the command (rule R14). -/
structure Effect where
  xwrite : Option (XReg × Data)
  stores : List Host.Cell
  deriving DecidableEq, Repr

/-- The reasons a step stops the machine. -/
inductive Fault where
  /-- A command would store to an address outside MEM. Raised by commit (Ops.lean). Safe: the spec's range check runs before any
  access (rules R60, R64), so no command reaches it, and the spec names no such address (log entry 9). -/
  | memOutside
  deriving DecidableEq, Repr

/-- The reasons a step has no meaning. -/
inductive Refusal where
  /-- A command that has no meaning in the model. Raised by no arm of exec. Safe. -/
  | notModelled (mnemonic : String)
  /-- A host access other than a read of STATUS or ID while STATUS.BUSY is 1: the spec gives the host no such move (rule R235).
  Raised by perform (HostPort.lean). Unsafe only for a host that breaks rule R235, of which the spec says nothing (log entry 7). -/
  | accessWhileBusy
  deriving DecidableEq, Repr

end Sys2Proof.Machine
end

