-- ==== Sys2Proof/Machine/Flags.lean ====
section
/-!
DEFINITION. BFX has no condition codes (rule R28). Its only status bits are those of STATUS; this file holds the error codes,
the STATUS word and the interrupt line computed from them.
-/

namespace Sys2Proof.Machine

/-- The number of an error in STATUS.ERRCODE (rule R203). -/
def ErrorCode.number : ErrorCode → BitVec 8
  | .illegal => 0x01
  | .viewWidth => 0x02
  | .memRange => 0x03
  | .order => 0x04
  | .widthMismatch => 0x05
  | .intervalRange => 0x06
  | .bitRange => 0x07
  | .byteRange => 0x08
  | .packCapacity => 0x09
  | .overlap => 0x0A
  | .maskWidth => 0x0B
  | .justifyWidth => 0x0C
  | .renderSize => 0x0D

/-- The operand code of D[DS], the source or only view of a command (rule R205). -/
def opndSource : Nat := 0

/-- The operand code of D[DD] (rule R205). -/
def opndDest : Nat := 1

/-- The operand code of the PACK field table (rule R205). -/
def opndTable : Nat := 2

/-- The operand code of PACK field j (rule R205). -/
def opndField (j : Nat) : Nat := 0x10000 + j

/-- sat32 of spec/40_byteview.md: an index as an error argument (rule R205). -/
def sat32 (v : Nat) : Nat := min v 0xFFFFFFFF

/-- ERRCODE as STATUS shows it: 0 while ERR is 0 (rule R33). -/
def State.shownErrcode (s : State) : BitVec 8 := if s.err then s.errcode else 0

/-- STATUS: BUSY in bit 0, ERR in bit 1, ERRCODE in bits 15:8, every other bit 0 (rule R33). -/
def State.statusWord (s : State) : Word :=
  BitVec.ofNat 32 (s.busy.toNat + 2 * s.err.toNat + 256 * s.shownErrcode.toNat)

/-- The interrupt output: CTRL.EIE AND STATUS.ERR (rule R206). -/
def State.irq (s : State) : Bool := s.eie && s.err

end Sys2Proof.Machine
end

