-- ==== Sys2Proof/Machine/Ops.lean ====
section
/-!
DEFINITION. The named operations over registers and MEM (spec/00_scope.md rule R13), raising an error and returning from one
(spec/60_exceptions.md rules R200, R201, R208), the resets (spec/70_reset_and_hazards.md rules R231, R232), and how every
command ends.
-/

namespace Sys2Proof.Machine

/-! ## Registers -/

/-- X[r], a read of a data register (rule R13). -/
def State.readX (s : State) (r : XReg) : Data := s.x[r.val]

/-- X[r] <- v (rule R13). -/
def State.writeX (s : State) (r : XReg) (v : Data) : State := { s with x := s.x.set r.val v }

/-- X[r] as the unsigned integer a command's pseudocode computes on (rule R10). -/
def State.natX (s : State) (r : XReg) : Nat := (s.readX r).toNat

/-- D[r], the stored bits of a descriptor register (rule R13). -/
def State.readD (s : State) (r : DReg) : DescBits := s.d[r.val]

/-- A host write of a descriptor register (rule R38). -/
def State.writeD (s : State) (r : DReg) (v : DescBits) : State := { s with d := s.d.set r.val v }

/-! ## MEM -/

/-- The byte listed at an address, if one is: MEM's bytes written since it was last left unspecified. -/
def Memory.lookup : Memory → Nat → Option Byte
  | [], _ => none
  | (a, v) :: rest, b => if b = a then some v else Memory.lookup rest b

/-- List a byte at an address, keeping addresses strictly rising. -/
def Memory.insert : Memory → Nat → Byte → Memory
  | [], b, v => [(b, v)]
  | (a, u) :: rest, b, v =>
    if b < a then (b, v) :: (a, u) :: rest
    else if b = a then (b, v) :: rest
    else (a, u) :: Memory.insert rest b v

/-- The one canonical form of MEM: addresses strictly rising, all below MEM_SIZE. A byte not listed reads as no listed value:
it is a free value (log entry 3). -/
abbrev Memory.wf (m : Memory) (memSize : Nat) : Prop :=
  m.Pairwise (fun c e => c.1 < e.1) ∧ ∀ c ∈ m, c.1 < memSize

/-- What an unlisted address of MEM reads as: the free value of the current draw (rule R231; log entries 3, 4). -/
def State.unlistedByte (s : State) (a : Nat) : Byte := Config.freeByte s.memDraw a

/-- MemRead(a, 1) (rule R13). -/
def State.readByte (s : State) (a : Nat) : Byte := (Memory.lookup s.mem a).getD (s.unlistedByte a)

/-- MemWrite(a, 1, v) (rule R13). -/
def State.writeByte (s : State) (a : Nat) (v : Byte) : State := { s with mem := Memory.insert s.mem a v }

/-- A list of byte writes, in order. -/
def Memory.storeAll (m : Memory) (cs : List Host.Cell) : Memory := cs.foldl (fun m c => Memory.insert m c.1 c.2) m

/-! ## Checks -/

/-- One check of a CHECK phase: go on if it holds, else raise the error (rules R13, R14). -/
def ensure (holds : Prop) [Decidable holds] (code : ErrorCode) (arg : Nat) : Except CmdError Unit :=
  if holds then .ok () else .error { code := code, arg := arg }

/-! ## The ends of a command -/

/-- Accept a command: STATUS.BUSY is 1 while it executes (rule R41). -/
def State.accept (s : State) : State := { s with busy := true }

/-- Taking an error, the one way a command that raises ends: record it and fall idle, nothing else (rules R200, R201). -/
def State.raiseError (s : State) (w : Word) (e : CmdError) : State :=
  { s with
    err := true
    errcode := e.code.number
    errinfo := w
    errarg := BitVec.ofNat 32 e.arg
    busy := false }

/-- Returning from an error: CTRL.ERRCLR (rule R208). -/
def State.clearError (s : State) : State := { s with err := false, errcode := 0, errinfo := 0, errarg := 0 }

/-- The data registers after an effect's X write, if it has one. -/
def State.xAfter (s : State) : Option (XReg × Data) → Vector Data 8
  | some (r, v) => (s.writeX r v).x
  | none => s.x

/-- The EFFECT phase: the X write, then the byte writes in order, then idle (rules R14, R41). -/
def State.applyEffect (s : State) (e : Effect) : State :=
  { s with x := s.xAfter e.xwrite, mem := Memory.storeAll s.mem e.stores, busy := false }

/-- An effect that writes one X register. -/
def Effect.setX (r : XReg) (v : Data) : Effect := { xwrite := some (r, v), stores := [] }

/-- An effect that writes bytes of MEM. -/
def Effect.store (cs : List Host.Cell) : Effect := { xwrite := none, stores := cs }

/-- Every address an effect stores to lies inside MEM. -/
def Effect.inside (e : Effect) (memSize : Nat) : Bool := e.stores.all (fun c => c.1 < memSize)

/-- End a command whose CHECK phase gave an error or whose EFFECT phase is known (rule R200). The word recorded is the command's
own, as encode gives it (rules R98, R201; log entry 6). A store outside MEM would be a fault; the range check of rule R64 keeps
every command from it (log entry 9). -/
def commit (i : Instr) (outcome : Except CmdError Effect) (s : State) : Host.Outcome State Fault Refusal :=
  match outcome with
  | .error e => .next (s.raiseError (encode i) e)
  | .ok e => if e.inside s.params.memSize then .next (s.applyEffect e) else .fault .memOutside

/-! ## Resets -/

/-- The register values that both resets set (rules R231, R232). -/
def State.resetRegisters (s : State) : State :=
  { s with
    x := Vector.replicate 8 0
    d := Vector.replicate 8 0
    eie := false
    busy := false
    err := false
    errcode := 0
    errinfo := 0
    errarg := 0 }

/-- Soft reset: every register as at a hardware reset, MEM kept (rule R232). -/
def State.softReset (s : State) : State := s.resetRegisters

/-- Hardware reset while no command runs: every byte of MEM is unspecified afterwards, a fresh free draw (rule R231; log entries
3, 4, 5). -/
def State.hardReset (s : State) : State :=
  { s.resetRegisters with mem := [], memDraw := s.nextDraw, nextDraw := s.nextDraw + 1 }

/-- Hardware reset while a command runs that would have written the bytes at these addresses: those bytes are unspecified
afterwards, a fresh free draw, and every other byte keeps its value (rule R231; log entry 5). -/
def State.hardResetTorn (s : State) (addresses : List Nat) : State :=
  { s.resetRegisters with
    mem := Memory.storeAll s.mem (addresses.map (fun a => (a, Config.freeByte s.nextDraw a)))
    nextDraw := s.nextDraw + 1 }

end Sys2Proof.Machine
end

