-- ==== Sys2Proof/Machine/Operands.lean ====
section
/-!
DEFINITION. Views: a descriptor read as a ByteView or a BitView (spec/10_state.md rules R23 to R26), its range checks
(spec/20_memory.md rule R64, spec/42_bitview.md rule R140) and the view functions of spec/20_memory.md rules R63 to R69; the
integer functions of spec/00_scope.md rules R10 and R12 and the overlap test of spec/44_packer.md.
-/

namespace Sys2Proof.Machine

/-! ## Integers -/

/-- ceil8(n) = (n + 7) >> 3 (rule R10). -/
def ceil8 (n : Nat) : Nat := (n + 7) >>> 3

/-- not_n(a) = (2^n - 1) - a (rule R10). -/
def notN (n a : Nat) : Nat := (2 ^ n - 1) - a

/-- zext_64(v), for v below 2^64 (rule R12). -/
def zext64 (v : Nat) : Data := BitVec.ofNat 64 v

/-- sint_n(v): the integer an n-bit pattern stands for (rule R12). -/
def sint (n v : Nat) : Int := if n = 0 then 0 else if v.testBit (n - 1) then (v : Int) - 2 ^ n else v

/-- sext_{n->64}(v) (rule R12). -/
def sext64 (n v : Nat) : Data := BitVec.ofInt 64 (sint n v)

/-- Whether n bytes at a and m bytes at b share a byte (spec/44_packer.md, opening). -/
def overlap (a n b m : Nat) : Bool := decide (0 < n) && decide (0 < m) && decide (a < b + m) && decide (b < a + n)

/-! ## Views -/

/-- The byte order of a view (rules R16, R26). -/
inductive ByteOrder where
  | little | big
  deriving DecidableEq, Repr

/-- A view: where its bytes start, how many bytes (as a ByteView) or bits (as a BitView) it has, and their order (rules R24,
R25). -/
structure View where
  base : Nat
  size : Nat
  order : ByteOrder
  deriving DecidableEq, Repr

/-- The descriptor layout: BASE in bits 15:0, SIZE in bits 28:16, ORDER in bit 29 (rule R23). -/
def viewOfBits (b : DescBits) : View :=
  { base := (b.extractLsb' 0 16).toNat
    size := (b.extractLsb' 16 13).toNat
    order := if b.getLsbD 29 then .big else .little }

/-- The view a descriptor register describes. -/
def State.view (s : State) (r : DReg) : View := viewOfBits (s.readD r)

/-- N_bytes of a BitView (rule R25). -/
def View.nbytes (v : View) : Nat := ceil8 v.size

/-- N_padding of a BitView (rule R25). -/
def View.npadding (v : View) : Nat := 8 * v.nbytes - v.size

/-- padding_mask of a BitView: the padding bits of its most significant byte (rule R25). -/
def View.paddingMask (v : View) : Nat := (2 ^ v.npadding - 1) <<< (8 - v.npadding)

/-- phys(o, n, i), the physical offset of logical byte i (rule R63). -/
def phys (o : ByteOrder) (n i : Nat) : Nat :=
  match o with
  | .little => i
  | .big => n - 1 - i

/-! ## Checks of a view -/

/-- The buffer range check of a view of n bytes, with its operand code k (rule R64). -/
def rangeCheck (s : State) (v : View) (n k : Nat) : Except CmdError Unit :=
  ensure (v.base + n ≤ s.params.memSize) .memRange k

/-- bv_check(d, k), the first checks of every bit-view operand (rule R140). -/
def bvCheck (s : State) (v : View) (k : Nat) : Except CmdError Unit := do
  ensure (v.size ≤ Config.wmax) .viewWidth k
  rangeCheck s v v.nbytes k

/-! ## View functions -/

/-- The MEM address of logical byte i of a view of n bytes (rules R63, R65, R66). -/
def View.byteAddr (v : View) (n i : Nat) : Nat := v.base + phys v.order n i

/-- BVGet(d, n, i) (rule R65). -/
def bvGet (s : State) (v : View) (n i : Nat) : Byte := s.readByte (v.byteAddr n i)

/-- BVSet(d, n, i, b), as the store it makes (rule R66). -/
def bvSet (v : View) (n i : Nat) (b : Byte) : Host.Cell := (v.byteAddr n i, b)

/-- The first k terms of VRaw's sum, over a view of n bytes (rule R67). -/
def rawSum (s : State) (v : View) (n : Nat) : Nat → Nat
  | 0 => 0
  | k + 1 => rawSum s v n k + (bvGet s v n k).toNat <<< (8 * k)

/-- VRaw(d), padding bits included (rule R67). -/
def vRaw (s : State) (v : View) : Nat := rawSum s v v.nbytes v.nbytes

/-- VVal(d), the logical value (rule R68). -/
def vVal (s : State) (v : View) : Nat := vRaw s v % 2 ^ v.size

/-- VBit(d, i), logical bit i, for i below N_bits (rule R68). -/
def vBit (s : State) (v : View) (i : Nat) : Nat := ((bvGet s v v.nbytes (i >>> 3)).toNat >>> (i % 8)) &&& 1

/-- WriteRaw(d, r), as the stores it makes: logical byte i gets r[8i+7 : 8i] (rule R69). -/
def writeRaw (v : View) (r : Nat) : List Host.Cell :=
  (List.range v.nbytes).map (fun i => bvSet v v.nbytes i (BitVec.ofNat 8 (r >>> (8 * i))))

end Sys2Proof.Machine
end

