-- ==== Sys2Proof/Machine/BitView.lean ====
section
/-!
DEFINITION. The Bit View commands GETBIT, SETBIT, CONV, FROMINT, NEG and IVAL (spec/42_bitview.md rules R140 to R146), and the
source's byte-by-byte conversion that rule R143 keeps for reference.
-/

namespace Sys2Proof.Machine

/-- The checks GETBIT and SETBIT share: the view, then the index (rules R141, R142). -/
def bitIndexCheck (s : State) (v : View) (i : Nat) : Except CmdError Unit := do
  bvCheck s v opndSource
  ensure (i < v.size) .bitRange (sat32 i)

/-- GETBIT (rule R141). -/
def planGetbit (rd : XReg) (ds : DReg) (rs : XReg) (s : State) : Except CmdError Effect := do
  let v := s.view ds
  let i := s.natX rs
  bitIndexCheck s v i
  pure (.setX rd (zext64 (vBit s v i)))

/-- GETBIT: X[RD] gets logical bit X[RS] of D[DS] (rule R141). -/
def execGetbit (rd : XReg) (ds : DReg) (rs : XReg) (s : State) : Host.Outcome State Fault Refusal :=
  commit (.getbit rd ds rs) (planGetbit rd ds rs s) s

/-- bit_flag(i), the place of logical bit i in its byte (rules R68, R142). -/
def bitFlag (i : Nat) : Byte := BitVec.ofNat 8 (1 <<< (i % 8))

/-- The byte that SETBIT writes back: bit i set or cleared, the other bits kept (rule R142). -/
def withBit (b : Byte) (i : Nat) (set : Bool) : Byte := if set then b ||| bitFlag i else b &&& ~~~ bitFlag i

/-- SETBIT (rule R142). -/
def planSetbit (ds : DReg) (rs rt : XReg) (s : State) : Except CmdError Effect := do
  let v := s.view ds
  let i := s.natX rs
  bitIndexCheck s v i
  let b := bvGet s v v.nbytes (i >>> 3)
  pure (.store [bvSet v v.nbytes (i >>> 3) (withBit b i (s.readX rt != 0))])

/-- SETBIT: logical bit X[RS] of D[DS] is set when X[RT] is not 0, else cleared (rule R142). -/
def execSetbit (ds : DReg) (rs rt : XReg) (s : State) : Host.Outcome State Fault Refusal :=
  commit (.setbit ds rs rt) (planSetbit ds rs rt s) s

/-- The 64-bit pattern CONV gives for an n-bit value: sign-extended from bit n - 1 when the type is signed, else zero-extended
(rule R143; spec/90_conflicts.md C1). -/
def convValue (n v : Nat) (signed : Bool) : Data :=
  if signed && decide (0 < n) && v.testBit (n - 1) then sext64 n v else zext64 v

/-- CONV (rule R143). -/
def planConv (rd : XReg) (ds : DReg) (t : IntType) (s : State) : Except CmdError Effect := do
  let v := s.view ds
  bvCheck s v opndSource
  ensure (v.size ≤ t.width.bits) .widthMismatch v.size
  pure (.setX rd (convValue v.size (vVal s v) t.signed))

/-- CONV: X[RD] gets the value of D[DS] as an integer of type T (rule R143). -/
def execConv (rd : XReg) (ds : DReg) (t : IntType) (s : State) : Host.Outcome State Fault Refusal :=
  commit (.conv rd ds t) (planConv rd ds t s) s

/-- The most significant byte as the source's conversion takes it in: its padding bits all 1 for a negative signed value, else
all 0 (rule R143, "Source algorithm"). -/
def convTopByte (mask msb : Nat) (negative : Bool) : Nat := if negative then mask ||| msb else notN 8 mask &&& msb

/-- The source's conversion: the bytes below the most significant one, shifted in 8 bits at a time, least-significant byte last
(rule R143, "Source algorithm"). -/
def convShiftIn (s : State) (v : View) : Nat → Nat → Nat
  | 0, acc => acc
  | k + 1, acc => convShiftIn s v k ((acc <<< 8) ||| (bvGet s v v.nbytes k).toNat)

/-- The source's conversion of a view of at least one bit (rule R143, "Source algorithm"). It gives the low 8 * N_bytes bits of
what CONV gives. -/
def convSource (s : State) (v : View) (signed : Bool) : Nat :=
  convShiftIn s v (v.nbytes - 1)
    (convTopByte v.paddingMask (bvGet s v v.nbytes (v.nbytes - 1)).toNat (signed && (vBit s v (v.size - 1) == 1)))

/-- FROMINT (rule R144). -/
def planFromint (ds : DReg) (rs : XReg) (s : State) : Except CmdError Effect := do
  let v := s.view ds
  bvCheck s v opndSource
  pure (.store (writeRaw v (s.natX rs % 2 ^ v.size)))

/-- FROMINT: D[DS] gets the low N_bits bits of X[RS], its padding 0 (rule R144). -/
def execFromint (ds : DReg) (rs : XReg) (s : State) : Host.Outcome State Fault Refusal :=
  commit (.fromint ds rs) (planFromint ds rs s) s

/-- NEG (rule R145). -/
def planNeg (ds : DReg) (s : State) : Except CmdError Effect := do
  let v := s.view ds
  bvCheck s v opndSource
  let n := 8 * v.nbytes
  pure (.store (writeRaw v ((notN n (vRaw s v) + 1) % 2 ^ n)))

/-- NEG: D[DS] gets the two's complement of all its bytes, padding included (rule R145; spec/90_conflicts.md C2). -/
def execNeg (ds : DReg) (s : State) : Host.Outcome State Fault Refusal :=
  commit (.neg ds) (planNeg ds s) s

/-- The 64-bit pattern IVAL gives for a field p held in w bits (rule R146). -/
def ivalValue (w p : Nat) (signed : Bool) : Data := if signed then sext64 w p else zext64 p

/-- IVAL (rule R146). -/
def planIval (rd : XReg) (ds : DReg) (t : IntType) (len off : Nat) (s : State) : Except CmdError Effect := do
  let v := s.view ds
  bvCheck s v opndSource
  ensure (len ≤ t.width.bits ∧ len + off ≤ v.size) .intervalRange 0
  pure (.setX rd (ivalValue t.width.bits ((vVal s v >>> off) % 2 ^ len) t.signed))

/-- IVAL: X[RD] gets len bits of D[DS] from bit off up, as an integer of type T (rule R146). -/
def execIval (rd : XReg) (ds : DReg) (t : IntType) (len off : Nat) (s : State) : Host.Outcome State Fault Refusal :=
  commit (.ival rd ds t len off) (planIval rd ds t len off s) s

end Sys2Proof.Machine
end

