-- ==== Sys2Proof/Machine/ByteView.lean ====
section
/-!
DEFINITION. The Byte View commands BSIZE, BGET and BSET (spec/40_byteview.md rules R110 to R113). A plan is a command's CHECK
phase followed by the effect it computes from the state at its start (rule R14).
-/

namespace Sys2Proof.Machine

/-- BSIZE (rule R111). -/
def planBsize (rd : XReg) (ds : DReg) (s : State) : Except CmdError Effect :=
  .ok (.setX rd (zext64 (s.view ds).size))

/-- BSIZE: X[RD] gets the size of D[DS] (rule R111). -/
def execBsize (rd : XReg) (ds : DReg) (s : State) : Host.Outcome State Fault Refusal :=
  commit (.bsize rd ds) (planBsize rd ds s) s

/-- The checks BGET and BSET share: the view, then the index (rules R112, R113). -/
def byteIndexCheck (s : State) (v : View) (i : Nat) : Except CmdError Unit := do
  rangeCheck s v v.size opndSource
  ensure (i < v.size) .byteRange (sat32 i)

/-- BGET (rule R112). -/
def planBget (rd : XReg) (ds : DReg) (rs : XReg) (s : State) : Except CmdError Effect := do
  let v := s.view ds
  let i := s.natX rs
  byteIndexCheck s v i
  pure (.setX rd (zext64 (bvGet s v v.size i).toNat))

/-- BGET: X[RD] gets the byte at logical index X[RS] of D[DS] (rule R112). -/
def execBget (rd : XReg) (ds : DReg) (rs : XReg) (s : State) : Host.Outcome State Fault Refusal :=
  commit (.bget rd ds rs) (planBget rd ds rs s) s

/-- BSET (rule R113). -/
def planBset (ds : DReg) (rs rt : XReg) (s : State) : Except CmdError Effect := do
  let v := s.view ds
  let i := s.natX rs
  byteIndexCheck s v i
  pure (.store [bvSet v v.size i ((s.readX rt).setWidth 8)])

/-- BSET: the byte at logical index X[RS] of D[DS] becomes X[RT][7:0] (rule R113). -/
def execBset (ds : DReg) (rs rt : XReg) (s : State) : Host.Outcome State Fault Refusal :=
  commit (.bset ds rs rt) (planBset ds rs rt s) s

end Sys2Proof.Machine
end

