-- ==== Sys2Proof/Machine/Packer.lean ====
section
/-!
DEFINITION. The field packer PACK (spec/44_packer.md rules R180 to R182), and the source's scan with two cursors that rule R183
says gives the same bytes.
-/

namespace Sys2Proof.Machine

/-! ## The field table -/

/-- e_j: the little-endian 32-bit word of table entry j (rule R180). -/
def tableWord (s : State) (ta j : Nat) : Nat :=
  let at4 := fun k => (s.readByte (ta + 4 * j + k)).toNat
  at4 0 + at4 1 <<< 8 + at4 2 <<< 16 + at4 3 <<< 24

/-- f_j: table entry j in the descriptor layout, its bits 31:30 ignored (rules R180, R23). -/
def tableField (s : State) (ta j : Nat) : View := viewOfBits (BitVec.ofNat 30 (tableWord s ta j))

/-- The K fields of a table, entry 0 (the most significant) first (rule R180). -/
def tableFields (s : State) (ta k : Nat) : List View := (List.range k).map (tableField s ta)

/-! ## The checks -/

/-- bv_check of fields j, j + 1, ... in table order (rule R181). -/
def fieldChecks (s : State) : Nat → List View → Except CmdError Unit
  | _, [] => .ok ()
  | j, f :: fs => do
    bvCheck s f (opndField j)
    fieldChecks s (j + 1) fs

/-- The sum of the field widths (rule R181). -/
def totalWidth (fs : List View) : Nat := (fs.map (fun f => f.size)).sum

/-- The destination shares no byte with fields j, j + 1, ..., in table order (rule R181). -/
def fieldOverlapChecks (dst : View) : Nat → List View → Except CmdError Unit
  | _, [] => .ok ()
  | j, f :: fs => do
    ensure (overlap dst.base dst.size f.base f.nbytes = false) .overlap (opndField j)
    fieldOverlapChecks dst (j + 1) fs

/-- The CHECK phase of PACK, in the order of rule R181 (spec/90_conflicts.md C9). It gives the fields. -/
def packCheck (s : State) (dst : View) (ta k : Nat) : Except CmdError (List View) := do
  rangeCheck s dst dst.size opndDest
  ensure (ta + Config.tableEntry * k ≤ s.params.memSize) .memRange opndTable
  let fs := tableFields s ta k
  fieldChecks s 0 fs
  ensure (dst.order = .big) .order opndDest
  ensure (totalWidth fs = 8 * dst.size) .packCapacity (totalWidth fs)
  ensure (overlap dst.base dst.size ta (Config.tableEntry * k) = false) .overlap opndTable
  fieldOverlapChecks dst 0 fs
  pure fs

/-! ## The effect -/

/-- C: the fields' values one after another, the first the most significant (rule R182). -/
def packValue (s : State) (fs : List View) : Nat := fs.foldl (fun c f => (c <<< f.size) ||| vVal s f) 0

/-- The n bytes of C at increasing addresses, most significant first (rule R182). -/
def packBytes (n c : Nat) : List Byte := (List.range n).map (fun p => BitVec.ofNat 8 (c >>> (8 * (n - 1 - p))))

/-- The stores of a run of bytes at increasing addresses from base. -/
def storesFrom : Nat → List Byte → List Host.Cell
  | _, [] => []
  | base, b :: bs => (base, b) :: storesFrom (base + 1) bs

/-- PACK (rules R180 to R182). -/
def planPack (dd : DReg) (rs rt : XReg) (s : State) : Except CmdError Effect := do
  let dst := s.view dd
  let fs ← packCheck s dst (s.natX rs) (s.natX rt)
  pure (.store (storesFrom dst.base (packBytes dst.size (packValue s fs))))

/-- PACK: the X[RT] fields of the table at X[RS], concatenated into the bytes of D[DD] (rules R180 to R182). -/
def execPack (dd : DReg) (rs rt : XReg) (s : State) : Host.Outcome State Fault Refusal :=
  commit (.pack dd rs rt) (planPack dd rs rt s) s

/-! ## The source's scan -/

/-- The state of the source's scan: the bytes written so far, the accumulator and the free bits of the current destination byte
(rule R183). -/
structure PackCursor where
  bytes : List Byte
  acc : Nat
  room : Nat
  deriving DecidableEq, Repr

/-- The scan's loop over one field of value v with rem bits not yet taken; fuel bounds its turns, each taking at least one bit
(rule R183). -/
def scanField (v : Nat) : (fuel rem : Nat) → PackCursor → PackCursor
  | 0, _, c => c
  | fuel + 1, rem, c =>
    if rem = 0 then c
    else
      let k := min c.room rem
      let bits := (v >>> (rem - k)) % 2 ^ k
      let acc := if k = 8 then bits else ((c.acc <<< k) ||| bits) % 2 ^ 8
      if c.room - k = 0 then
        scanField v fuel (rem - k) { bytes := c.bytes ++ [BitVec.ofNat 8 acc], acc := 0, room := 8 }
      else scanField v fuel (rem - k) { bytes := c.bytes, acc := acc, room := c.room - k }

/-- The source's "pure left-to-right scan with two synchronized cursors" over all the fields (rule R183). -/
def packScan (s : State) (fs : List View) : PackCursor :=
  fs.foldl (fun c f => scanField (vVal s f) f.size f.size c) { bytes := [], acc := 0, room := 8 }

end Sys2Proof.Machine
end

