-- ==== Sys2Proof/Machine/Diagnostics.lean ====
section
/-!
DEFINITION. Diagnostic rendering: STRB and STRH (spec/45_diagnostics.md rules R190 and R191).
-/

namespace Sys2Proof.Machine

/-- The checks of a string of len bytes at dst, rendered from n bytes at src (rules R190, R191, after the source's own check). -/
def renderCheck (s : State) (dst : View) (len : Nat) (src : View) (n : Nat) : Except CmdError Unit := do
  rangeCheck s dst dst.size opndDest
  ensure (len ≤ dst.size) .renderSize len
  ensure (overlap dst.base len src.base n = false) .overlap opndSource

/-- The character of a binary digit (rule R190; log entry 13). -/
def binDigit (one : Bool) : Byte := if one then 0x31 else 0x30

/-- The characters of an n-bit value, most significant bit first (rule R190). -/
def binString (n v : Nat) : List Byte := (List.range n).map (fun k => binDigit (v.testBit (n - 1 - k)))

/-- STRB (rule R190). -/
def planStrb (dd ds : DReg) (s : State) : Except CmdError Effect := do
  let v := s.view ds
  bvCheck s v opndSource
  let dst := s.view dd
  renderCheck s dst v.size v v.nbytes
  pure (.store (storesFrom dst.base (binString v.size (vVal s v))))

/-- STRB: the bits of D[DS] as characters at the base of D[DD] (rule R190). -/
def execStrb (dd ds : DReg) (s : State) : Host.Outcome State Fault Refusal :=
  commit (.strb dd ds) (planStrb dd ds s) s

/-- hexdig(h) (rule R191; log entry 13). -/
def hexDigit (upper : Bool) (h : Nat) : Byte :=
  if h ≤ 9 then BitVec.ofNat 8 (0x30 + h) else BitVec.ofNat 8 ((if upper then 0x41 else 0x61) + h - 10)

/-- The two characters of a byte, high nibble first (rule R191). -/
def hexPair (upper : Bool) (b : Byte) : List Byte := [hexDigit upper (b.toNat >>> 4), hexDigit upper (b.toNat % 16)]

/-- The characters of the bytes of a view, most significant byte first (rule R191). -/
def hexString (s : State) (v : View) : List Byte :=
  (List.range v.size).flatMap (fun k => hexPair s.params.hexUpper (bvGet s v v.size (v.size - 1 - k)))

/-- STRH (rule R191). -/
def planStrh (dd ds : DReg) (s : State) : Except CmdError Effect := do
  let v := s.view ds
  rangeCheck s v v.size opndSource
  let dst := s.view dd
  renderCheck s dst (2 * v.size) v v.size
  pure (.store (storesFrom dst.base (hexString s v)))

/-- STRH: the bytes of D[DS] in hexadecimal at the base of D[DD] (rule R191). -/
def execStrh (dd ds : DReg) (s : State) : Host.Outcome State Fault Refusal :=
  commit (.strh dd ds) (planStrh dd ds s) s

end Sys2Proof.Machine
end

