-- ==== Sys2Proof/Machine/Justify.lean ====
section
/-!
DEFINITION. The justification commands LJV and RJV (spec/43_justify.md rules R170 and R171).
-/

namespace Sys2Proof.Machine

/-- The checks LJV and RJV share: a bit view, and a big-endian one (rules R170, R171). -/
def bigEndianCheck (s : State) (v : View) : Except CmdError Unit := do
  bvCheck s v opndSource
  ensure (v.order = .big) .order opndSource

/-- LJV (rule R170). -/
def planLjv (ds : DReg) (s : State) : Except CmdError Effect := do
  let v := s.view ds
  bigEndianCheck s v
  pure (.store (writeRaw v ((vRaw s v <<< v.npadding) % 2 ^ (8 * v.nbytes))))

/-- LJV: the bytes of D[DS] shifted left by its padding (rule R170). -/
def execLjv (ds : DReg) (s : State) : Host.Outcome State Fault Refusal :=
  commit (.ljv ds) (planLjv ds s) s

/-- RJV (rule R171). -/
def planRjv (ds : DReg) (s : State) : Except CmdError Effect := do
  let v := s.view ds
  bigEndianCheck s v
  pure (.store (writeRaw v (vRaw s v >>> v.npadding)))

/-- RJV: the bytes of D[DS] shifted right by its padding (rule R171). -/
def execRjv (ds : DReg) (s : State) : Host.Outcome State Fault Refusal :=
  commit (.rjv ds) (planRjv ds s) s

end Sys2Proof.Machine
end

