-- ==== Sys2Proof/Machine/Primitives.lean ====
section
/-!
DEFINITION. The bit arithmetic primitives MASK, LJI, RJI and CSIZE (spec/41_primitives.md rules R120 to R123). They read X
registers and immediates, and never touch MEM.
-/

namespace Sys2Proof.Machine

/-- MASK (rule R120). -/
def planMask (rd : XReg) (l m r : Nat) : Except CmdError Effect := do
  let w := l + m + r
  ensure (w ∈ Config.twidths) .maskWidth w
  pure (.setX rd (zext64 ((2 ^ m - 1) <<< r)))

/-- MASK: X[RD] gets m ones, r bits from the least significant end (rule R120). -/
def execMask (rd : XReg) (l m r : Nat) (s : State) : Host.Outcome State Fault Refusal :=
  commit (.mask rd l m r) (planMask rd l m r) s

/-- The low w bits of a data register, the x of LJI and RJI (rules R121, R122). -/
def State.lowX (s : State) (r : XReg) (w : Nat) : Nat := s.natX r % 2 ^ w

/-- LJI (rule R121). -/
def planLji (rd rs : XReg) (w : IntWidth) (n : Nat) (s : State) : Except CmdError Effect := do
  ensure (n ≤ w.bits) .justifyWidth n
  pure (.setX rd (zext64 ((s.lowX rs w.bits <<< (w.bits - n)) % 2 ^ w.bits)))

/-- LJI: X[RD] gets the low n bits of X[RS] at the top of w bits (rule R121). -/
def execLji (rd rs : XReg) (w : IntWidth) (n : Nat) (s : State) : Host.Outcome State Fault Refusal :=
  commit (.lji rd rs w n) (planLji rd rs w n s) s

/-- RJI (rule R122). -/
def planRji (rd rs : XReg) (w : IntWidth) (n : Nat) (s : State) : Except CmdError Effect := do
  ensure (n ≤ w.bits) .justifyWidth n
  pure (.setX rd (zext64 (s.lowX rs w.bits >>> (w.bits - n))))

/-- RJI: X[RD] gets the top n of the low w bits of X[RS], shifted down (rule R122). -/
def execRji (rd rs : XReg) (w : IntWidth) (n : Nat) (s : State) : Host.Outcome State Fault Refusal :=
  commit (.rji rd rs w n) (planRji rd rs w n s) s

/-- CSIZE (rule R123). -/
def planCsize (rd rs : XReg) (s : State) : Except CmdError Effect :=
  .ok (.setX rd (zext64 (ceil8 (s.natX rs))))

/-- CSIZE: X[RD] gets the bytes that hold X[RS] bits (rule R123). -/
def execCsize (rd rs : XReg) (s : State) : Host.Outcome State Fault Refusal :=
  commit (.csize rd rs) (planCsize rd rs s) s

end Sys2Proof.Machine
end

