-- ==== Sys2Proof/Machine/Dispatch.lean ====
section
/-!
DEFINITION. The engine runs one accepted command (spec/10_state.md rule R34, spec/60_exceptions.md rule R200): one arm per row of
the opcode map (spec/30_encoding.md rule R89).
-/

namespace Sys2Proof.Machine

def exec (i : Instr) (s : State) : Host.Outcome State Fault Refusal :=
  match i with
  | .bsize rd ds => Sys2Proof.Machine.execBsize rd ds s
  | .bget rd ds rs => Sys2Proof.Machine.execBget rd ds rs s
  | .bset ds rs rt => Sys2Proof.Machine.execBset ds rs rt s
  | .mask rd l m r => Sys2Proof.Machine.execMask rd l m r s
  | .lji rd rs w n => Sys2Proof.Machine.execLji rd rs w n s
  | .rji rd rs w n => Sys2Proof.Machine.execRji rd rs w n s
  | .csize rd rs => Sys2Proof.Machine.execCsize rd rs s
  | .getbit rd ds rs => Sys2Proof.Machine.execGetbit rd ds rs s
  | .setbit ds rs rt => Sys2Proof.Machine.execSetbit ds rs rt s
  | .conv rd ds t => Sys2Proof.Machine.execConv rd ds t s
  | .fromint ds rs => Sys2Proof.Machine.execFromint ds rs s
  | .neg ds => Sys2Proof.Machine.execNeg ds s
  | .ival rd ds t len off => Sys2Proof.Machine.execIval rd ds t len off s
  | .ljv ds => Sys2Proof.Machine.execLjv ds s
  | .rjv ds => Sys2Proof.Machine.execRjv ds s
  | .pack dd rs rt => Sys2Proof.Machine.execPack dd rs rt s
  | .strb dd ds => Sys2Proof.Machine.execStrb dd ds s
  | .strh dd ds => Sys2Proof.Machine.execStrh dd ds s

end Sys2Proof.Machine
end

