-- ==== Sys2Proof/Machine/Plan.lean ====
section
/-!
DEFINITION. What a command would do, without doing it: the error its CHECK phase raises, or the writes of its EFFECT phase
(spec/00_scope.md rule R14). A hardware reset that arrives while a command runs needs the addresses the command would have
written (spec/70_reset_and_hazards.md rule R231), and so do statements about which bytes a command stores to.
-/

namespace Sys2Proof.Machine

/-- The plan of a command: its CHECK phase and the effect it computes from the state at its start (rules R14, R200). -/
def plan (i : Instr) (s : State) : Except CmdError Effect :=
  match i with
  | .bsize rd ds => planBsize rd ds s
  | .bget rd ds rs => planBget rd ds rs s
  | .bset ds rs rt => planBset ds rs rt s
  | .mask rd l m r => planMask rd l m r
  | .lji rd rs w n => planLji rd rs w n s
  | .rji rd rs w n => planRji rd rs w n s
  | .csize rd rs => planCsize rd rs s
  | .getbit rd ds rs => planGetbit rd ds rs s
  | .setbit ds rs rt => planSetbit ds rs rt s
  | .conv rd ds t => planConv rd ds t s
  | .fromint ds rs => planFromint ds rs s
  | .neg ds => planNeg ds s
  | .ival rd ds t len off => planIval rd ds t len off s
  | .ljv ds => planLjv ds s
  | .rjv ds => planRjv ds s
  | .pack dd rs rt => planPack dd rs rt s
  | .strb dd ds => planStrb dd ds s
  | .strh dd ds => planStrh dd ds s

/-- The addresses a command would store to: none when it would raise (rules R200, R231). -/
def storedAddresses (i : Instr) (s : State) : List Nat :=
  match plan i s with
  | .ok e => e.stores.map (fun c => c.1)
  | .error _ => []

end Sys2Proof.Machine
end

