-- ==== Sys2Proof/Machine/HostPort.lean ====
section
/-!
DEFINITION. The host port (spec/10_state.md rules R29 to R41, spec/20_memory.md rule R61): its map, its reads and writes, issuing
a command, the moves of the host and the platform, and the host actions of spec/30_encoding.md rule R96.
-/

namespace Sys2Proof.Machine

/-! ## The register map -/

/-- The registers of the host port map (rule R29). -/
inductive PortReg where
  | id | cap | ctrl | status | cmd | errinfo | errarg
  | desc (r : DReg)
  | xlow (r : XReg)
  | xhigh (r : XReg)
  | reserved
  deriving DecidableEq, Repr

/-- The byte offset of a register word (rule R40). -/
def portOffset (p : PortWord) : Nat := 4 * p.toNat

/-- The register at a register word (rules R29, R39). -/
def portReg (p : PortWord) : PortReg :=
  let off := portOffset p
  if off = 0x00000 then .id
  else if off = 0x00004 then .cap
  else if off = 0x00008 then .ctrl
  else if off = 0x0000C then .status
  else if off = 0x00010 then .cmd
  else if off = 0x00014 then .errinfo
  else if off = 0x00018 then .errarg
  else if off < 0x00020 then .reserved
  else if off < 0x00040 then .desc (Fin.ofNat 8 ((off - 0x00020) / 4))
  else if off < 0x00080 then
    if (off - 0x00040) % 8 = 0 then .xlow (Fin.ofNat 8 ((off - 0x00040) / 8))
    else .xhigh (Fin.ofNat 8 ((off - 0x00040) / 8))
  else .reserved

/-- ID, the constant of rule R30. -/
def idWord : Word := 0x42465801

/-- CAP: MEM_SIZE in bits 16:0 and HEX_UPPER in bit 17 (rule R31). -/
def capWord (p : Config.Params) : Word := BitVec.ofNat 32 (p.memSize % 2 ^ 17 + 2 ^ 17 * p.hexUpper.toNat)

/-- CTRL as it reads: EIE in bit 2, SRST and ERRCLR and every other bit 0 (rule R32). -/
def State.ctrlWord (s : State) : Word := BitVec.ofNat 32 (4 * s.eie.toNat)

/-- A host read of a register; it changes nothing (rules R30 to R39, R73). -/
def State.readPort (s : State) : PortReg → Word
  | .id => idWord
  | .cap => capWord s.params
  | .ctrl => s.ctrlWord
  | .status => s.statusWord
  | .cmd => 0
  | .errinfo => s.errinfo
  | .errarg => s.errarg
  | .desc r => (s.readD r).setWidth 32
  | .xlow r => (s.readX r).extractLsb' 0 32
  | .xhigh r => (s.readX r).extractLsb' 32 32
  | .reserved => 0

/-- A host read of the MEM window at offset 0x10000 + a; past MEM it reads 0 (rules R39, R61). -/
def State.readWindow (s : State) (a : Nat) : Byte := if a < s.params.memSize then s.readByte a else 0

/-- A host write of the MEM window; past MEM it is ignored (rules R39, R61). -/
def State.writeWindow (s : State) (a : Nat) (v : Byte) : State := if a < s.params.memSize then s.writeByte a v else s

/-- A host write of CTRL (rule R32): SRST alone counts when it is 1; else EIE is set from bit 2, then ERRCLR acts. -/
def State.writeCtrl (s : State) (v : Word) : State :=
  if v.getLsbD 0 then s.softReset
  else
    let s := { s with eie := v.getLsbD 2 }
    if v.getLsbD 1 then s.clearError else s

/-- A host write of the low half of an X register, the other half kept (rule R37). -/
def State.writeXLow (s : State) (r : XReg) (v : Word) : State := s.writeX r ((s.readX r).extractLsb' 32 32 ++ v)

/-- A host write of the high half of an X register, the other half kept (rule R37). -/
def State.writeXHigh (s : State) (r : XReg) (v : Word) : State := s.writeX r (v ++ (s.readX r).extractLsb' 0 32)

/-- A host write of CMD: the word is dropped while an error is recorded (rule R202); else the engine accepts it, decodes it and
executes it, an undecodable word raising ILLEGAL (rules R34, R97, R203). -/
def issue (w : Word) (s : State) : Host.Outcome State Fault Refusal :=
  if s.err then .next s
  else
    match decode w with
    | .error _ => .next (s.accept.raiseError w { code := .illegal, arg := 0 })
    | .ok i => exec i s.accept

/-- A host write of a register (rules R29 to R39). -/
def writePort (r : PortReg) (v : Word) (s : State) : Host.Outcome State Fault Refusal :=
  match r with
  | .ctrl => .next (s.writeCtrl v)
  | .cmd => issue v s
  | .desc r => .next (s.writeD r (v.setWidth 30))
  | .xlow r => .next (s.writeXLow r v)
  | .xhigh r => .next (s.writeXHigh r v)
  | .id => .next s
  | .cap => .next s
  | .status => .next s
  | .errinfo => .next s
  | .errarg => .next s
  | .reserved => .next s

/-! ## Moves -/

/-- The host's read is answered; nothing else changes (rule R73; log entry 8). -/
def State.answer (s : State) (r : Reply) : State := { s with reply := some r }

/-- The hardware reset arrives while the command w runs (rule R231, last part; log entry 5). A word that is dropped starts no
command, so this is then a reset with BUSY 0. -/
def State.resetDuring (s : State) (w : Word) : State :=
  if s.err then s.hardReset
  else
    match decode w with
    | .error _ => s.hardResetTorn []
    | .ok i => s.hardResetTorn (storedAddresses i s)

/-- The accesses the host may make while BUSY is 1: reads of STATUS and ID (rule R235). -/
def Move.allowedWhileBusy : Move → Bool
  | .readReg p => portReg p == .status || portReg p == .id
  | .writeReg _ _ => false
  | .readMem _ => false
  | .writeMem _ _ => false
  | .hardReset => true
  | .hardResetDuring _ => false

/-- Perform one move of the host or the platform. An access that rule R235 forbids is refused (log entry 7). -/
def perform (m : Move) (s : State) : Host.Outcome State Fault Refusal :=
  if s.busy && !m.allowedWhileBusy then .refused .accessWhileBusy
  else
    match m with
    | .readReg p => .next (s.answer (.word (s.readPort (portReg p))))
    | .writeReg p v => writePort (portReg p) v s
    | .readMem a => .next (s.answer (.byte (s.readWindow a.toNat)))
    | .writeMem a v => .next (s.writeWindow a.toNat v)
    | .hardReset => .next s.hardReset
    | .hardResetDuring w => .next (s.resetDuring w)

/-- One step: the next move of the script, or, with no move left, an idle engine that waits and keeps its state (rules R76, R218,
R233; log entry 2). -/
def performNext (s : State) : Host.Outcome State Fault Refusal :=
  match s.script with
  | [] => .next s
  | m :: rest => perform m { s with script := rest }

/-! ## Host actions -/

/-- CMD's register word (rule R29). -/
def cmdPort : PortWord := 4

/-- CTRL's register word (rule R29). -/
def ctrlPort : PortWord := 2

/-- D[r]'s register word (rule R29). -/
def descPort (r : DReg) : PortWord := BitVec.ofNat 14 (8 + r.val)

/-- The register word of X[r] bits 31:0 (rule R29). -/
def xlowPort (r : XReg) : PortWord := BitVec.ofNat 14 (16 + 2 * r.val)

/-- The register word of X[r] bits 63:32 (rule R29). -/
def xhighPort (r : XReg) : PortWord := BitVec.ofNat 14 (17 + 2 * r.val)

/-- desc(BASE, SIZE, ORDER), the descriptor word of rule R96. -/
def descWord (base size : Nat) (o : ByteOrder) : Word :=
  BitVec.ofNat 32 (base ||| size <<< 16 ||| (match o with | .little => 0 | .big => 1) <<< 29)

/-- wr.d (rule R96). -/
def wrD (r : DReg) (w : Word) : List Move := [.writeReg (descPort r) w]

/-- wr.x: two host writes (rule R96). -/
def wrX (r : XReg) (v : Data) : List Move :=
  [.writeReg (xlowPort r) (v.extractLsb' 0 32), .writeReg (xhighPort r) (v.extractLsb' 32 32)]

/-- wr.b (rule R96). -/
def wrB (a : BitVec 16) (v : Byte) : List Move := [.writeMem a v]

/-- wr.ctrl (rule R96). -/
def wrCtrl (v : Word) : List Move := [.writeReg ctrlPort v]

/-- A command line of a host script: a write of its word to CMD (rules R34, R96). -/
def command (i : Instr) : List Move := [.writeReg cmdPort (encode i)]

/-! ## Placing one command -/

/-- The state in which the very next step issues the word w: w is the host's next CMD write, and the engine is able to accept it,
with no error recorded and idle (rules R34, R202; log entry 11). Nothing else changes. -/
def State.withCommand (s : State) (w : Word) : State :=
  let s := if s.err then s.clearError else s
  { s with busy := false, script := .writeReg cmdPort w :: s.script }

end Sys2Proof.Machine
end

