-- ==== Sys2Proof/Machine/Step.lean ====
section
/-!
DEFINITION. One step of BFX: the next move of its host or platform (spec/10_state.md rule R20, spec/20_memory.md rule R76), and
the state in which that move is a given command.
-/

namespace Sys2Proof.Machine

/-- One step: the next move of the script is performed (HostPort.lean). -/
def step (s : State) : Host.Outcome State Fault Refusal := performNext s

/-- s with the command of nbits bits w as the host's next CMD write: BFX has no program counter and fetches nothing (rule R27), so
a command comes from the host (rule R34; log entry 11). -/
def State.withFetchWord (s : State) (nbits w : Nat) : State := s.withCommand (BitVec.ofNat 32 (w % 2 ^ nbits))

end Sys2Proof.Machine
end

