-- ==== Sys2Proof/WellFormed.lean ====
section
/-!
DEFINITION. Which commands a command word can hold: every immediate fits its 7-bit field (spec/30_encoding.md rules R83 to R85,
R87). Register numbers, widths and signedness fit by their types (rules R86, R88). A legal range smaller than the field is the
command's own check, not a matter of well-formedness (rule R93).
-/

namespace Sys2Proof

/-- An unsigned 7-bit immediate, 0 to 127 (rules R83, R84, R85). -/
abbrev Imm7 (n : Nat) : Prop := n < 128

/-- The immediates of a command fit the fields of its format. -/
def Instr.wellFormed : Instr → Bool
  | .bsize _ _ => true
  | .bget _ _ _ => true
  | .bset _ _ _ => true
  | .mask _ l m r => decide (Imm7 l) && decide (Imm7 m) && decide (Imm7 r)
  | .lji _ _ _ n => decide (Imm7 n)
  | .rji _ _ _ n => decide (Imm7 n)
  | .csize _ _ => true
  | .getbit _ _ _ => true
  | .setbit _ _ _ => true
  | .conv _ _ _ => true
  | .fromint _ _ => true
  | .neg _ => true
  | .ival _ _ _ len off => decide (Imm7 len) && decide (Imm7 off)
  | .ljv _ => true
  | .rjv _ => true
  | .pack _ _ _ => true
  | .strb _ _ => true
  | .strh _ _ => true

end Sys2Proof
end

