-- ==== Sys2Proof/Safety.lean ====
section
/-!
DEFINITION. The words the statements use: the state's invariant, an engine ready to accept a command, a recorded error, a view
inside MEM, and what a command may read and write.
-/

namespace Sys2Proof.Machine

/-! ## States -/

/-- The invariant of the machine. It holds after reset and every step keeps it. -/
structure State.Inv (s : State) : Prop where
  /-- MEM_SIZE is in its range (rule R8). -/
  params : s.params.Legal
  /-- MEM has its canonical form (rule R60). -/
  mem : Memory.wf s.mem s.params.memSize
  /-- Between steps no command executes (rule R41). -/
  idle : s.busy = false
  /-- With no error recorded the error registers are 0 (rules R33, R35, R36, R208). -/
  noError : s.err = false → s.errcode = 0 ∧ s.errinfo = 0 ∧ s.errarg = 0
  /-- A recorded error has one of the codes 0x01 to 0x0D (rule R203). -/
  errorKnown : s.err = true → 1 ≤ s.errcode.toNat ∧ s.errcode.toNat ≤ 13
  /-- The recorded word is no command exactly when the error is ILLEGAL (rules R97, R201, R203). -/
  errorWord : s.err = true → (s.errcode = 1 ↔ ∀ i, decode s.errinfo ≠ .ok i)
  /-- The draw that MEM's unlisted bytes come from is not the next one (log entry 4). -/
  draws : s.memDraw < s.nextDraw

/-- The engine can accept a command: no error is recorded and none executes (rules R34, R202). -/
abbrev State.Ready (s : State) : Prop := s.err = false ∧ s.busy = false

/-- A good final state: no error is recorded (spec/93_implementation_defined.md, treatment fault). -/
abbrev State.Good (s : State) : Prop := s.Ready

/-- The state s with an error recorded: its number, the command word and the argument, and nothing else changed but BUSY, which
is 0 (rules R200, R201). -/
def State.withError (s : State) (w : Word) (number arg : Nat) : State :=
  { s with
    err := true
    errcode := BitVec.ofNat 8 number
    errinfo := w
    errarg := BitVec.ofNat 32 arg
    busy := false }

/-- The state s after a command that writes one data register (rule R200). -/
def State.withX (s : State) (r : XReg) (v : Data) : State := { s with x := s.x.set r.val v, busy := false }

/-- t is s but for MEM, and no command executes in it (rule R200). -/
abbrev State.OnlyMem (s t : State) : Prop := t = { s with mem := t.mem, busy := false }

/-- Every byte outside the n bytes at base reads in t as in s. -/
abbrev State.SameOutside (s t : State) (base n : Nat) : Prop :=
  ∀ a, ¬(base ≤ a ∧ a < base + n) → t.readByte a = s.readByte a

/-! ## Views -/

/-- The n bytes of a view lie inside MEM (rule R64). -/
abbrev State.HasBytes (s : State) (v : View) (n : Nat) : Prop := v.base + n ≤ s.params.memSize

/-- A view may be used as a BitView (rule R140). -/
abbrev State.HasBitView (s : State) (v : View) : Prop := v.size ≤ 64 ∧ s.HasBytes v v.nbytes

/-- Bit k of the value that n bytes of a view hold, padding bits among them (rules R67, R68). -/
def State.rawBit (s : State) (v : View) (n k : Nat) : Bool := (bvGet s v n (k / 8)).getLsbD (k % 8)

/-- Everything PACK checks before its effect, in the words of rule R181. -/
structure State.PackAccepts (s : State) (dst : View) (ta k : Nat) : Prop where
  destInside : s.HasBytes dst dst.size
  tableInside : ta + 4 * k ≤ s.params.memSize
  fields : ∀ f ∈ tableFields s ta k, s.HasBitView f
  bigEndian : dst.order = .big
  capacity : totalWidth (tableFields s ta k) = 8 * dst.size
  apartFromTable : overlap dst.base dst.size ta (4 * k) = false
  apartFromFields : ∀ f ∈ tableFields s ta k, overlap dst.base dst.size f.base f.nbytes = false

/-! ## What a command may read and write -/

/-- The data register a command writes when it completes, if it writes one (rules R111 to R191). -/
def destination : Instr → Option XReg
  | .bsize rd _ => some rd
  | .bget rd _ _ => some rd
  | .bset _ _ _ => none
  | .mask rd _ _ _ => some rd
  | .lji rd _ _ _ => some rd
  | .rji rd _ _ _ => some rd
  | .csize rd _ => some rd
  | .getbit rd _ _ => some rd
  | .setbit _ _ _ => none
  | .conv rd _ _ => some rd
  | .fromint _ _ => none
  | .neg _ => none
  | .ival rd _ _ _ _ => some rd
  | .ljv _ => none
  | .rjv _ => none
  | .pack _ _ _ => none
  | .strb _ _ => none
  | .strh _ _ => none

/-- The descriptor that a command checks first of all as a BitView, with operand code 0 (rule R140). -/
def bitViewSource : Instr → Option DReg
  | .bsize _ _ => none
  | .bget _ _ _ => none
  | .bset _ _ _ => none
  | .mask _ _ _ _ => none
  | .lji _ _ _ _ => none
  | .rji _ _ _ _ => none
  | .csize _ _ => none
  | .getbit _ ds _ => some ds
  | .setbit ds _ _ => some ds
  | .conv _ ds _ => some ds
  | .fromint ds _ => some ds
  | .neg ds => some ds
  | .ival _ ds _ _ _ => some ds
  | .ljv ds => some ds
  | .rjv ds => some ds
  | .pack _ _ _ => none
  | .strb _ ds => some ds
  | .strh _ _ => none

/-- The first address and the byte count of the view a command writes to, if it writes to one (rule R62). -/
def writtenView (i : Instr) (s : State) : Option (Nat × Nat) :=
  let byteView := fun r => some ((s.view r).base, (s.view r).size)
  let bitView := fun r => some ((s.view r).base, (s.view r).nbytes)
  match i with
  | .bsize _ _ => none
  | .bget _ _ _ => none
  | .bset ds _ _ => byteView ds
  | .mask _ _ _ _ => none
  | .lji _ _ _ _ => none
  | .rji _ _ _ _ => none
  | .csize _ _ => none
  | .getbit _ _ _ => none
  | .setbit ds _ _ => bitView ds
  | .conv _ _ _ => none
  | .fromint ds _ => bitView ds
  | .neg ds => bitView ds
  | .ival _ _ _ _ _ => none
  | .ljv ds => bitView ds
  | .rjv ds => bitView ds
  | .pack dd _ _ => byteView dd
  | .strb dd _ => byteView dd
  | .strh dd _ => byteView dd

/-- The first addresses and the byte counts of the views and the table a command is given to read (rule R62). -/
def readViews (i : Instr) (s : State) : List (Nat × Nat) :=
  let byteView := fun r => [((s.view r).base, (s.view r).size)]
  let bitView := fun r => [((s.view r).base, (s.view r).nbytes)]
  match i with
  | .bsize _ _ => []
  | .bget _ ds _ => byteView ds
  | .bset _ _ _ => []
  | .mask _ _ _ _ => []
  | .lji _ _ _ _ => []
  | .rji _ _ _ _ => []
  | .csize _ _ => []
  | .getbit _ ds _ => bitView ds
  | .setbit ds _ _ => bitView ds
  | .conv _ ds _ => bitView ds
  | .fromint _ _ => []
  | .neg ds => bitView ds
  | .ival _ ds _ _ _ => bitView ds
  | .ljv ds => bitView ds
  | .rjv ds => bitView ds
  | .pack _ rs rt =>
    (s.natX rs, 4 * s.natX rt) :: (tableFields s (s.natX rs) (s.natX rt)).map (fun f => (f.base, f.nbytes))
  | .strb _ ds => bitView ds
  | .strh _ ds => byteView ds

end Sys2Proof.Machine
end

