-- ==== Sys2Proof/Certificates/Slice0/Obligations.lean ====
section
/-!
DEFINITION. The statements of this row, from the numbered rules of spec/. Everything they name is in the model's own files and in
Sys2Proof/Safety.lean. Each holds in every state, whatever MEM_SIZE, HEX_UPPER and the free bytes of MEM are.
-/

open Sys2Proof Sys2Proof.Machine

/-! ## Encoding -/

/-- Rule R98: decoding the result of an encoding gives the command back, every operand at every value its field admits. -/
def Obligations.DecodeOfEncodeIsTheCommand : Prop :=
  ∀ i : Instr, i.wellFormed = true → decode (encode i) = .ok i

/-- Rules R90, R97: a word has one meaning. A word that decodes to a command is that command's encoding, bit for bit. -/
def Obligations.EncodeOfDecodeIsTheWord : Prop :=
  ∀ (w : Word) (i : Instr), decode w = .ok i → i.wellFormed = true ∧ encode i = w

/-- Rule R98, whole: the four encoding formulas, and each command's own, an unused field passed as 0. -/
def Obligations.EncodingFormulasDecodeBack : Prop :=
  (∀ op rd ds rs rt dd : Nat,
    encR op rd ds rs rt dd = BitVec.ofNat 32 (op ||| rd <<< 6 ||| ds <<< 9 ||| rs <<< 12 ||| rt <<< 15 ||| dd <<< 18)) ∧
  (∀ op rd ds w s len off : Nat,
    encC op rd ds w s len off =
      BitVec.ofNat 32 (op ||| rd <<< 6 ||| ds <<< 9 ||| w <<< 12 ||| s <<< 14 ||| len <<< 15 ||| off <<< 22)) ∧
  (∀ op rd rs w n : Nat, encJ op rd rs w n = BitVec.ofNat 32 (op ||| rd <<< 6 ||| rs <<< 12 ||| w <<< 15 ||| n <<< 17)) ∧
  (∀ op rd l m r : Nat, encM op rd l m r = BitVec.ofNat 32 (op ||| rd <<< 6 ||| l <<< 9 ||| m <<< 16 ||| r <<< 23)) ∧
  (∀ (rd rs rt : XReg) (ds dd : DReg),
    decode (encR 0x01 rd ds 0 0 0) = .ok (.bsize rd ds) ∧
    decode (encR 0x02 rd ds rs 0 0) = .ok (.bget rd ds rs) ∧
    decode (encR 0x03 0 ds rs rt 0) = .ok (.bset ds rs rt) ∧
    decode (encR 0x0B rd 0 rs 0 0) = .ok (.csize rd rs) ∧
    decode (encR 0x10 rd ds rs 0 0) = .ok (.getbit rd ds rs) ∧
    decode (encR 0x11 0 ds rs rt 0) = .ok (.setbit ds rs rt) ∧
    decode (encR 0x13 0 ds rs 0 0) = .ok (.fromint ds rs) ∧
    decode (encR 0x14 0 ds 0 0 0) = .ok (.neg ds) ∧
    decode (encR 0x18 0 ds 0 0 0) = .ok (.ljv ds) ∧
    decode (encR 0x19 0 ds 0 0 0) = .ok (.rjv ds) ∧
    decode (encR 0x20 0 0 rs rt dd) = .ok (.pack dd rs rt) ∧
    decode (encR 0x28 0 ds 0 0 dd) = .ok (.strb dd ds) ∧
    decode (encR 0x29 0 ds 0 0 dd) = .ok (.strh dd ds)) ∧
  (∀ (rd : XReg) (ds : DReg) (w : IntWidth) (signed : Bool) (len off : Nat), len < 128 → off < 128 →
    decode (encC 0x12 rd ds w.code signed.toNat 0 0) = .ok (.conv rd ds ⟨w, signed⟩) ∧
    decode (encC 0x15 rd ds w.code signed.toNat len off) = .ok (.ival rd ds ⟨w, signed⟩ len off)) ∧
  (∀ (rd rs : XReg) (w : IntWidth) (n : Nat), n < 128 →
    decode (encJ 0x09 rd rs w.code n) = .ok (.lji rd rs w n) ∧ decode (encJ 0x0A rd rs w.code n) = .ok (.rji rd rs w n)) ∧
  (∀ (rd : XReg) (l m r : Nat), l < 128 → m < 128 → r < 128 → decode (encM 0x08 rd l m r) = .ok (.mask rd l m r))

/-- Rule R89: a word encodes a command exactly when its bits under one row's mask are that row's match, and at most one row
matches. -/
def Obligations.OneOpcodeRowPerCommandWord : Prop :=
  (∀ w : Word, (∃ i, decode w = .ok i) ↔ ∃ r ∈ opcodeMap, w &&& r.mask = r.pattern) ∧
  (∀ w : Word, ∀ r ∈ opcodeMap, ∀ q ∈ opcodeMap, w &&& r.mask = r.pattern → w &&& q.mask = q.pattern →
    r.mnemonic = q.mnemonic)

/-- A few command words of spec/95_test_vectors.md and the commands they stand for. -/
def Obligations.SampleWordsDecode : Prop :=
  decode 0x00003442 = .ok (.bget 1 2 3) ∧ decode 0x00062049 = .ok (.lji 1 2 .w8 3) ∧
  decode 0x02030248 = .ok (.mask 1 1 3 4) ∧ decode 0x00C39295 = .ok (.ival 2 1 ⟨.w16, false⟩ 7 3) ∧
  decode 0x00000219 = .ok (.rjv 1) ∧ decode 0x00163020 = .ok (.pack 5 3 4) ∧ decode 0x00080629 = .ok (.strh 2 3)

/-! ## A step of the engine -/

/-- Rules R34, R41: when the host's next move writes to CMD a word that decodes to a command, the step is that command's
execution, in the state with the move taken off the script and BUSY 1. The script is the model's (log entry 2). -/
def Obligations.StepRunsTheDecodedCommand : Prop :=
  ∀ (s : State) (w : Word) (rest : List Move) (i : Instr),
    s.Ready → s.script = .writeReg cmdPort w :: rest → decode w = .ok i →
    step s = exec i { s with script := rest, busy := true }

/-- Rule R91: the reserved opcodes. A word with one of them, the all-zero word among them, raises ILLEGAL and has no other
effect. -/
def Obligations.ReservedOpcodesRaiseIllegal : Prop :=
  (∀ (s : State) (w : Word) (rest : List Move),
    s.Ready → s.script = .writeReg cmdPort w :: rest →
    (opField w = 0x00 ∨ (0x04 ≤ opField w ∧ opField w ≤ 0x07) ∨ (0x0C ≤ opField w ∧ opField w ≤ 0x0F) ∨ opField w = 0x16 ∨
      opField w = 0x17 ∨ (0x1A ≤ opField w ∧ opField w ≤ 0x1F) ∨ (0x21 ≤ opField w ∧ opField w ≤ 0x27) ∨
      (0x2A ≤ opField w ∧ opField w ≤ 0x3F)) →
    step s = .next ({ s with script := rest }.withError w 0x01 0)) ∧
  opField 0 = 0x00

/-- Rule R90: a word whose OP is in the map, with a 1 in a bit its row requires to be 0, raises ILLEGAL and has no other effect. -/
def Obligations.NonzeroUnusedBitsRaiseIllegal : Prop :=
  (∀ (s : State) (w : Word) (rest : List Move) (r : OpcodeRow),
    s.Ready → s.script = .writeReg cmdPort w :: rest → r ∈ opcodeMap → opField w = opField r.pattern →
    w &&& r.mask &&& 0xFFFFFFC0 ≠ 0 →
    step s = .next ({ s with script := rest }.withError w 0x01 0)) ∧
  (∀ w : Word, (∃ i, decode w = .ok i ∧ ∀ j, decode w = .ok j → j = i) ∨ ∃ e, decode w = .error e)

/-- Rule R202: while an error is recorded a write of CMD is dropped. The word is not decoded and no state changes. -/
def Obligations.RecordedErrorDropsCommands : Prop :=
  ∀ (s : State) (w : Word) (rest : List Move),
    s.err = true → s.busy = false → s.script = .writeReg cmdPort w :: rest → step s = .next { s with script := rest }

/-! ## Every command -/

/-- Rules R200, R201: every command ends in a next state, and in one of two ways. It completes and leaves the error registers, or
it raises and changes nothing but them, the word recorded being the command's own (log entry 6). -/
def Obligations.EveryCommandCompletesOrRaises : Prop :=
  ∀ (i : Instr) (s : State), ∃ t, exec i s = .next t ∧ t.busy = false ∧
    ((t.err = s.err ∧ t.errcode = s.errcode ∧ t.errinfo = s.errinfo ∧ t.errarg = s.errarg) ∨
      ∃ number arg, 1 ≤ number ∧ number ≤ 13 ∧ t = s.withError (encode i) number arg)

/-- The frame of every command: no descriptor, no CTRL bit, no model field changes; a data register only if it is the command's
destination; a byte of MEM only at an address the command's plan stores to. -/
def Obligations.CommandFrame : Prop :=
  ∀ (i : Instr) (s t : State), exec i s = .next t →
    t.d = s.d ∧ t.eie = s.eie ∧ t.params = s.params ∧ t.script = s.script ∧ t.reply = s.reply ∧ t.memDraw = s.memDraw ∧
    t.nextDraw = s.nextDraw ∧ (∀ r, destination i ≠ some r → t.readX r = s.readX r) ∧
    (∀ a, a ∉ storedAddresses i s → t.readByte a = s.readByte a)

/-- Rules R60, R62, R64: a command stores only to bytes of the view it writes to, and those lie inside MEM. -/
def Obligations.StoresStayInsideTheWrittenView : Prop :=
  ∀ (i : Instr) (s : State) (a : Nat), a ∈ storedAddresses i s →
    a < s.params.memSize ∧ ∃ base n, writtenView i s = some (base, n) ∧ base ≤ a ∧ a < base + n

/-- Rule R62: a command's result depends on no byte outside the views and the table it is given to read. Two states that differ
only in MEM, and agree on those bytes, give the same error or the same register, and store the same bytes. -/
def Obligations.CommandsReadOnlyTheirViews : Prop :=
  ∀ (i : Instr) (s : State) (m : Memory) (draw : Nat),
    (∀ region ∈ readViews i s, ∀ a, region.1 ≤ a → a < region.1 + region.2 →
      { s with mem := m, memDraw := draw }.readByte a = s.readByte a) →
    ∃ t u, exec i s = .next t ∧ exec i { s with mem := m, memDraw := draw } = .next u ∧
      u = { t with mem := u.mem, memDraw := draw } ∧
      storedAddresses i { s with mem := m, memDraw := draw } = storedAddresses i s ∧
      ∀ a ∈ storedAddresses i s, u.readByte a = t.readByte a

/-! ## Byte View commands -/

/-- Rule R111: BSIZE writes the 13-bit SIZE field to X[RD], whatever the view's place in MEM. -/
def Obligations.BsizeReadsTheSizeField : Prop :=
  ∀ (rd : XReg) (ds : DReg) (s : State),
    exec (.bsize rd ds) s = .next (s.withX rd (((s.readD ds).extractLsb' 16 13).setWidth 64))

/-- Rule R114, with the completion of BGET (R112), on the bits of D[DS] (rules R23, R26): for a view inside MEM and an index below
its size, BGET gives the byte at BASE, bits 15:0, plus that index when ORDER, bit 29, is 0, and at the mirrored one when it is 1. -/
def Obligations.ByteViewLaw : Prop :=
  ∀ (rd : XReg) (ds : DReg) (rs : XReg) (s : State),
    let base := ((s.readD ds).extractLsb' 0 16).toNat
    let size := ((s.readD ds).extractLsb' 16 13).toNat
    base + size ≤ s.params.memSize → s.natX rs < size →
    ((s.readD ds).getLsbD 29 = false →
      exec (.bget rd ds rs) s = .next (s.withX rd ((s.readByte (base + s.natX rs)).setWidth 64))) ∧
    ((s.readD ds).getLsbD 29 = true →
      exec (.bget rd ds rs) s = .next (s.withX rd ((s.readByte (base + size - 1 - s.natX rs)).setWidth 64)))

/-- Rule R113: BSET stores X[RT][7:0] to the byte at the logical index, and to no other. -/
def Obligations.BsetStoresOneByte : Prop :=
  ∀ (ds : DReg) (rs rt : XReg) (s : State),
    s.HasBytes (s.view ds) (s.view ds).size → s.natX rs < (s.view ds).size →
    ∃ t, exec (.bset ds rs rt) s = .next t ∧ s.OnlyMem t ∧
      ∀ a, t.readByte a =
        if a = (s.view ds).byteAddr (s.view ds).size (s.natX rs) then (s.readX rt).extractLsb' 0 8 else s.readByte a

/-- Rules R112, R113: BGET and BSET raise MEM_RANGE for a view not inside MEM, and after that BYTE_RANGE for an index not below
its size, with the index saturated to 32 bits. -/
def Obligations.ByteIndexErrors : Prop :=
  ∀ (i : Instr) (rd : XReg) (ds : DReg) (rs rt : XReg) (s : State), i = .bget rd ds rs ∨ i = .bset ds rs rt →
    (s.params.memSize < (s.view ds).base + (s.view ds).size → exec i s = .next (s.withError (encode i) 0x03 0)) ∧
    (s.HasBytes (s.view ds) (s.view ds).size → (s.view ds).size ≤ s.natX rs →
      exec i s = .next (s.withError (encode i) 0x08 (min (s.natX rs) 0xFFFFFFFF)))

/-! ## Primitives -/

/-- Rule R120: when left + middle + right is the width of an integer type, MASK writes to X[RD] the word with exactly the middle
bits set, right bits from the least significant end; else it raises MASK_WIDTH. -/
def Obligations.MaskSetsTheMiddleBits : Prop :=
  ∀ (rd : XReg) (l m r : Nat) (s : State),
    ((l + m + r = 8 ∨ l + m + r = 16 ∨ l + m + r = 32 ∨ l + m + r = 64) →
      ∃ v : Data, exec (.mask rd l m r) s = .next (s.withX rd v) ∧ ∀ j, v.getLsbD j = decide (r ≤ j ∧ j < r + m)) ∧
    (¬(l + m + r = 8 ∨ l + m + r = 16 ∨ l + m + r = 32 ∨ l + m + r = 64) →
      exec (.mask rd l m r) s = .next (s.withError (encode (.mask rd l m r)) 0x0B (l + m + r)))

/-- Rule R121: for a count within the width, LJI puts bits n - 1 to 0 of X[RS] at bits w - 1 to w - n of X[RD], every other bit 0;
for a larger one it raises JUSTIFY_WIDTH. -/
def Obligations.LjiMovesTheLowBitsUp : Prop :=
  ∀ (rd rs : XReg) (w : IntWidth) (n : Nat) (s : State),
    (n ≤ w.bits → ∃ v : Data, exec (.lji rd rs w n) s = .next (s.withX rd v) ∧
      ∀ j, v.getLsbD j = (decide (w.bits - n ≤ j ∧ j < w.bits) && (s.readX rs).getLsbD (j - (w.bits - n)))) ∧
    (w.bits < n → exec (.lji rd rs w n) s = .next (s.withError (encode (.lji rd rs w n)) 0x0C n))

/-- Rule R122: for a count within the width, RJI puts bits w - 1 to w - n of X[RS] at bits n - 1 to 0 of X[RD], every other bit 0;
for a larger one it raises JUSTIFY_WIDTH. -/
def Obligations.RjiMovesTheTopBitsDown : Prop :=
  ∀ (rd rs : XReg) (w : IntWidth) (n : Nat) (s : State),
    (n ≤ w.bits → ∃ v : Data, exec (.rji rd rs w n) s = .next (s.withX rd v) ∧
      ∀ j, v.getLsbD j = (decide (j < n) && (s.readX rs).getLsbD (j + (w.bits - n)))) ∧
    (w.bits < n → exec (.rji rd rs w n) s = .next (s.withError (encode (.rji rd rs w n)) 0x0C n))

/-- Rule R124: the inverse laws of LJI and RJI, as two commands in a row. -/
def Obligations.IntegerJustifyInverseLaws : Prop :=
  ∀ (rd re rs : XReg) (w : IntWidth) (n : Nat) (s : State), n ≤ w.bits → s.natX rs < 2 ^ w.bits →
    (∃ t u, exec (.lji rd rs w n) s = .next t ∧ exec (.rji re rd w n) t = .next u ∧ u.natX re = s.natX rs % 2 ^ n) ∧
    (∃ t u, exec (.rji rd rs w n) s = .next t ∧ exec (.lji re rd w n) t = .next u ∧
      u.natX re = s.natX rs - s.natX rs % 2 ^ (w.bits - n))

/-- Rule R123: CSIZE writes X[RS] / 8 rounded up, with no overflow. -/
def Obligations.CsizeRoundsUp : Prop :=
  ∀ (rd rs : XReg) (s : State), ∃ v : Data, exec (.csize rd rs) s = .next (s.withX rd v) ∧
    v.toNat = s.natX rs / 8 + (if s.natX rs % 8 = 0 then 0 else 1)

/-! ## Bit View commands -/

/-- Rule R140, with R141 to R146, R170, R171, R190: a command whose first operand is a bit view raises VIEW_WIDTH for more than 64
bits, and after that MEM_RANGE for a view not inside MEM, with operand code 0. -/
def Obligations.BitViewOperandErrors : Prop :=
  ∀ (i : Instr) (ds : DReg) (s : State), bitViewSource i = some ds →
    (64 < (s.view ds).size → exec i s = .next (s.withError (encode i) 0x02 0)) ∧
    ((s.view ds).size ≤ 64 → s.params.memSize < (s.view ds).base + (s.view ds).nbytes →
      exec i s = .next (s.withError (encode i) 0x03 0))

/-- Rule R141: GETBIT writes to X[RD] bit (i mod 8) of logical byte i / 8, for the index i in X[RS]. -/
def Obligations.GetbitReadsOneBit : Prop :=
  ∀ (rd : XReg) (ds : DReg) (rs : XReg) (s : State),
    s.HasBitView (s.view ds) → s.natX rs < (s.view ds).size →
    exec (.getbit rd ds rs) s = .next (s.withX rd
      (if (bvGet s (s.view ds) (s.view ds).nbytes (s.natX rs / 8)).getLsbD (s.natX rs % 8) then 1 else 0))

/-- Rule R142: SETBIT sets bit X[RS] of the view when X[RT] is not 0, else clears it. Every other bit of the view's bytes, the
padding among them, and every other byte of MEM stay. -/
def Obligations.SetbitWritesOneBit : Prop :=
  ∀ (ds : DReg) (rs rt : XReg) (s : State),
    s.HasBitView (s.view ds) → s.natX rs < (s.view ds).size →
    ∃ t, exec (.setbit ds rs rt) s = .next t ∧ s.OnlyMem t ∧
      (∀ a, a ≠ (s.view ds).byteAddr (s.view ds).nbytes (s.natX rs / 8) → t.readByte a = s.readByte a) ∧
      ∀ k, k < 8 * (s.view ds).nbytes →
        t.rawBit (s.view ds) (s.view ds).nbytes k =
          if k = s.natX rs then decide (s.natX rt ≠ 0) else s.rawBit (s.view ds) (s.view ds).nbytes k

/-- Rules R141, R142: GETBIT and SETBIT raise BIT_RANGE for an index not below N_bits, a padding bit among them. -/
def Obligations.BitIndexErrors : Prop :=
  ∀ (i : Instr) (rd : XReg) (ds : DReg) (rs rt : XReg) (s : State), i = .getbit rd ds rs ∨ i = .setbit ds rs rt →
    s.HasBitView (s.view ds) → (s.view ds).size ≤ s.natX rs →
    exec i s = .next (s.withError (encode i) 0x07 (min (s.natX rs) 0xFFFFFFFF))

/-- Rule R143: CONV writes to X[RD] the view's logical value, read as a signed N_bits-bit integer when T is signed and as an
unsigned one otherwise. -/
def Obligations.ConvGivesTheLogicalValue : Prop :=
  ∀ (rd : XReg) (ds : DReg) (t : IntType) (s : State),
    s.HasBitView (s.view ds) → (s.view ds).size ≤ t.width.bits →
    ∃ v : Data, exec (.conv rd ds t) s = .next (s.withX rd v) ∧
      (t.signed = false → v.toNat = vVal s (s.view ds)) ∧
      (t.signed = true →
        v.toInt =
          if 0 < (s.view ds).size ∧ s.rawBit (s.view ds) (s.view ds).nbytes ((s.view ds).size - 1) = true then
            (vVal s (s.view ds) : Int) - 2 ^ (s.view ds).size
          else (vVal s (s.view ds) : Int))

/-- Rules R143, R146: CONV raises WIDTH_MISMATCH for a view wider than T, and IVAL raises INTERVAL_RANGE for a field longer than T
or reaching above the view. -/
def Obligations.ConvAndIvalParameterErrors : Prop :=
  ∀ (rd : XReg) (ds : DReg) (t : IntType) (len off : Nat) (s : State), s.HasBitView (s.view ds) →
    (t.width.bits < (s.view ds).size →
      exec (.conv rd ds t) s = .next (s.withError (encode (.conv rd ds t)) 0x05 (s.view ds).size)) ∧
    (t.width.bits < len ∨ (s.view ds).size < len + off →
      exec (.ival rd ds t len off) s = .next (s.withError (encode (.ival rd ds t len off)) 0x06 0))

/-- Rule R143, "Source algorithm": the byte-by-byte conversion gives the same low 8 * N_bytes bits as CONV. -/
def Obligations.SourceConversionAgrees : Prop :=
  ∀ (rd : XReg) (ds : DReg) (t : IntType) (s : State),
    s.HasBitView (s.view ds) → 0 < (s.view ds).size → (s.view ds).size ≤ t.width.bits →
    ∃ u, exec (.conv rd ds t) s = .next u ∧
      u.natX rd % 2 ^ (8 * (s.view ds).nbytes) = convSource s (s.view ds) t.signed

/-- Rule R144: FROMINT leaves in the view the low N_bits bits of X[RS], the padding bits 0, and every byte outside the view as it
was. -/
def Obligations.FromintWritesTheLowBits : Prop :=
  ∀ (ds : DReg) (rs : XReg) (s : State), s.HasBitView (s.view ds) →
    ∃ t, exec (.fromint ds rs) s = .next t ∧ s.OnlyMem t ∧ s.SameOutside t (s.view ds).base (s.view ds).nbytes ∧
      vRaw t (s.view ds) = s.natX rs % 2 ^ (s.view ds).size

/-- Rule R145: NEG leaves in the view the two's complement of all its bytes. Its logical value is negated modulo 2^N_bits whatever
the padding held, and every byte outside the view stays. -/
def Obligations.NegNegatesInPlace : Prop :=
  ∀ (ds : DReg) (s : State), s.HasBitView (s.view ds) →
    ∃ t, exec (.neg ds) s = .next t ∧ s.OnlyMem t ∧ s.SameOutside t (s.view ds).base (s.view ds).nbytes ∧
      vRaw t (s.view ds) = (2 ^ (8 * (s.view ds).nbytes) - vRaw s (s.view ds)) % 2 ^ (8 * (s.view ds).nbytes) ∧
      vVal t (s.view ds) = (2 ^ (s.view ds).size - vVal s (s.view ds)) % 2 ^ (s.view ds).size

/-- Rule R146: IVAL writes to X[RD] the LEN logical bits from bit OFF up, right-justified. Above them the bits are 0, but for a
signed T that the field fills, whose sign bit they repeat. -/
def Obligations.IvalExtractsTheField : Prop :=
  ∀ (rd : XReg) (ds : DReg) (t : IntType) (len off : Nat) (s : State),
    s.HasBitView (s.view ds) → len ≤ t.width.bits → len + off ≤ (s.view ds).size →
    ∃ v : Data, exec (.ival rd ds t len off) s = .next (s.withX rd v) ∧
      ∀ j, j < 64 → v.getLsbD j =
        if j < len then s.rawBit (s.view ds) (s.view ds).nbytes (off + j)
        else t.signed && decide (len = t.width.bits) && s.rawBit (s.view ds) (s.view ds).nbytes (off + len - 1)

/-- Rule R147: (a) FROMINT then CONV gives the value back, (b) with NEG between, its negation, and (c) GETBIT, CONV and IVAL do
not see the byte order of a view. -/
def Obligations.BitViewLaws : Prop :=
  (∀ (rd : XReg) (ds : DReg) (rs : XReg) (t : IntType) (s : State),
    s.HasBytes (s.view ds) (s.view ds).nbytes → (s.view ds).size = t.width.bits →
    ∃ u v, exec (.fromint ds rs) s = .next u ∧ exec (.conv rd ds t) u = .next v ∧
      v.readX rd = if t.signed then ((s.readX rs).setWidth t.width.bits).signExtend 64
        else ((s.readX rs).setWidth t.width.bits).setWidth 64) ∧
  (∀ (rd : XReg) (ds : DReg) (rs : XReg) (w : IntWidth) (s : State),
    s.HasBytes (s.view ds) (s.view ds).nbytes → (s.view ds).size = w.bits →
    ∃ u v z, exec (.fromint ds rs) s = .next u ∧ exec (.neg ds) u = .next v ∧ exec (.conv rd ds ⟨w, true⟩) v = .next z ∧
      z.readX rd = (-(s.readX rs).setWidth w.bits).signExtend 64 ∧
      (((s.readX rs).setWidth w.bits).toInt ≠ -2 ^ (w.bits - 1) →
        (z.readX rd).toInt = -((s.readX rs).setWidth w.bits).toInt) ∧
      (((s.readX rs).setWidth w.bits).toInt = -2 ^ (w.bits - 1) → (z.readX rd).toInt = -2 ^ (w.bits - 1))) ∧
  (∀ (rd : XReg) (da db : DReg) (rs : XReg) (t : IntType) (len off : Nat) (s : State),
    s.HasBitView (s.view da) → s.HasBitView (s.view db) → (s.view da).size = (s.view db).size →
    (∀ i, i < (s.view da).nbytes →
      bvGet s (s.view da) (s.view da).nbytes i = bvGet s (s.view db) (s.view db).nbytes i) →
    (s.natX rs < (s.view da).size → exec (.getbit rd da rs) s = exec (.getbit rd db rs) s) ∧
    ((s.view da).size ≤ t.width.bits → exec (.conv rd da t) s = exec (.conv rd db t) s) ∧
    (len ≤ t.width.bits → len + off ≤ (s.view da).size →
      exec (.ival rd da t len off) s = exec (.ival rd db t len off) s))

/-! ## Justification -/

/-- Rule R170: LJV shifts the bytes of a big-endian view left by its padding, each taking in the top bits of the next-lower byte,
the least significant one zero-filled. Every byte outside the view stays. A little-endian view raises ORDER. -/
def Obligations.LjvShiftsEveryByteLeft : Prop :=
  ∀ (ds : DReg) (s : State), s.HasBitView (s.view ds) →
    ((s.view ds).order = .big →
      ∃ t, exec (.ljv ds) s = .next t ∧ s.OnlyMem t ∧ s.SameOutside t (s.view ds).base (s.view ds).nbytes ∧
        vRaw t (s.view ds) = (vRaw s (s.view ds) * 2 ^ (s.view ds).npadding) % 2 ^ (8 * (s.view ds).nbytes) ∧
        ∀ i, i < (s.view ds).nbytes →
          (bvGet t (s.view ds) (s.view ds).nbytes i).toNat =
            (((bvGet s (s.view ds) (s.view ds).nbytes i).toNat <<< (s.view ds).npadding) |||
              (if i = 0 then 0
                else (bvGet s (s.view ds) (s.view ds).nbytes (i - 1)).toNat >>> (8 - (s.view ds).npadding))) % 2 ^ 8) ∧
    ((s.view ds).order = .little → exec (.ljv ds) s = .next (s.withError (encode (.ljv ds)) 0x04 0))

/-- Rule R171: RJV shifts the bytes of a big-endian view right by its padding, each taking in the low bits of the next-higher
byte, the most significant one zero-filled. Every byte outside the view stays. A little-endian view raises ORDER. -/
def Obligations.RjvShiftsEveryByteRight : Prop :=
  ∀ (ds : DReg) (s : State), s.HasBitView (s.view ds) →
    ((s.view ds).order = .big →
      ∃ t, exec (.rjv ds) s = .next t ∧ s.OnlyMem t ∧ s.SameOutside t (s.view ds).base (s.view ds).nbytes ∧
        vRaw t (s.view ds) = vRaw s (s.view ds) / 2 ^ (s.view ds).npadding ∧
        ∀ i, i < (s.view ds).nbytes →
          (bvGet t (s.view ds) (s.view ds).nbytes i).toNat =
            ((bvGet s (s.view ds) (s.view ds).nbytes i).toNat >>> (s.view ds).npadding) |||
              (if i + 1 = (s.view ds).nbytes then 0
                else ((bvGet s (s.view ds) (s.view ds).nbytes (i + 1)).toNat <<< (8 - (s.view ds).npadding)) % 2 ^ 8)) ∧
    ((s.view ds).order = .little → exec (.rjv ds) s = .next (s.withError (encode (.rjv ds)) 0x04 0))

/-- Rule R172: (a) LJV then RJV keeps the logical value and leaves the padding 0, and keeps every byte exactly when the padding was
0; (b) RJV then LJV keeps every byte exactly when the low N_padding bits were 0. -/
def Obligations.JustifyInverseLaws : Prop :=
  ∀ (ds : DReg) (s : State), s.HasBitView (s.view ds) → (s.view ds).order = .big →
    (∃ t u, exec (.ljv ds) s = .next t ∧ exec (.rjv ds) t = .next u ∧
      vVal u (s.view ds) = vVal s (s.view ds) ∧ vRaw u (s.view ds) = vVal u (s.view ds) ∧
      ((∀ i, i < (s.view ds).nbytes →
          bvGet u (s.view ds) (s.view ds).nbytes i = bvGet s (s.view ds) (s.view ds).nbytes i) ↔
        vRaw s (s.view ds) / 2 ^ (s.view ds).size = 0)) ∧
    (∃ t u, exec (.rjv ds) s = .next t ∧ exec (.ljv ds) t = .next u ∧
      ((∀ i, i < (s.view ds).nbytes →
          bvGet u (s.view ds) (s.view ds).nbytes i = bvGet s (s.view ds) (s.view ds).nbytes i) ↔
        vRaw s (s.view ds) % 2 ^ (s.view ds).npadding = 0))

/-! ## PACK -/

/-- Rules R180, R181, R182. Entry j of PACK's table is the little-endian word of the four bytes at TA + 4j, in the descriptor
layout, its bits 31:30 ignored. When every check of PACK passes, the destination's bits are the fields' logical bits, one field
after another, the first at the top, with no gaps; every byte outside the destination stays. -/
def Obligations.PackConcatenatesTheFields : Prop :=
  (∀ (s : State) (ta k : Nat), (tableFields s ta k).length = k ∧
    ∀ (j : Nat) (e : Word), j < k →
      e = s.readByte (ta + 4 * j + 3) ++ s.readByte (ta + 4 * j + 2) ++ s.readByte (ta + 4 * j + 1) ++
        s.readByte (ta + 4 * j) →
      (tableFields s ta k)[j]? = some
        { base := (e.extractLsb' 0 16).toNat
          size := (e.extractLsb' 16 13).toNat
          order := if e.getLsbD 29 then .big else .little }) ∧
  ∀ (dd : DReg) (rs rt : XReg) (s : State), s.PackAccepts (s.view dd) (s.natX rs) (s.natX rt) →
    ∃ t, exec (.pack dd rs rt) s = .next t ∧ s.OnlyMem t ∧ s.SameOutside t (s.view dd).base (s.view dd).size ∧
      ∀ (before after : List View) (f : View), tableFields s (s.natX rs) (s.natX rt) = before ++ f :: after →
        ∀ k, k < f.size → t.rawBit (s.view dd) (s.view dd).size (totalWidth after + k) = s.rawBit f f.nbytes k

/-- Rule R181: PACK raises the first failing check, in the order destination, table, fields in table order, ORDER, capacity,
overlap with the table, overlap with the first field it overlaps. -/
def Obligations.PackRaisesTheFirstFailure : Prop :=
  ∀ (dd : DReg) (rs rt : XReg) (s : State),
    let dst := s.view dd
    let ta := s.natX rs
    let k := s.natX rt
    let fs := tableFields s ta k
    let raises := fun number arg => exec (.pack dd rs rt) s = .next (s.withError (encode (.pack dd rs rt)) number arg)
    (s.params.memSize < dst.base + dst.size → raises 0x03 1) ∧
    (s.HasBytes dst dst.size → s.params.memSize < ta + 4 * k → raises 0x03 2) ∧
    (s.HasBytes dst dst.size → ta + 4 * k ≤ s.params.memSize →
      (∀ (before after : List View) (f : View), fs = before ++ f :: after → (∀ g ∈ before, s.HasBitView g) →
        (64 < f.size → raises 0x02 (0x10000 + before.length)) ∧
        (f.size ≤ 64 → s.params.memSize < f.base + f.nbytes → raises 0x03 (0x10000 + before.length))) ∧
      ((∀ f ∈ fs, s.HasBitView f) →
        (dst.order = .little → raises 0x04 1) ∧
        (dst.order = .big → totalWidth fs ≠ 8 * dst.size → raises 0x09 (totalWidth fs)) ∧
        (dst.order = .big → totalWidth fs = 8 * dst.size →
          (overlap dst.base dst.size ta (4 * k) = true → raises 0x0A 2) ∧
          (overlap dst.base dst.size ta (4 * k) = false →
            ∀ (before after : List View) (f : View), fs = before ++ f :: after →
              (∀ g ∈ before, overlap dst.base dst.size g.base g.nbytes = false) →
              overlap dst.base dst.size f.base f.nbytes = true → raises 0x0A (0x10000 + before.length)))))

/-- Rule R183: the source's scan with two cursors writes the same bytes as the concatenation, and ends with all of them written. -/
def Obligations.PackScanGivesTheSameBytes : Prop :=
  ∀ (s : State) (fs : List View) (n : Nat), totalWidth fs = 8 * n →
    packScan s fs = { bytes := packBytes n (packValue s fs), acc := 0, room := 8 }

/-- Rule R185, for a destination of at most 8 bytes: IVAL over the destination reads a packed field back. -/
def Obligations.IvalUnpacksAPackedField : Prop :=
  ∀ (dd du : DReg) (rd rs rt : XReg) (w : IntWidth) (s t u : State) (before after : List View) (f : View),
    s.PackAccepts (s.view dd) (s.natX rs) (s.natX rt) → exec (.pack dd rs rt) s = .next t →
    tableFields s (s.natX rs) (s.natX rt) = before ++ f :: after → (s.view dd).size ≤ 8 → f.size ≤ w.bits →
    u.mem = t.mem → u.memDraw = t.memDraw → u.params = t.params →
    u.view du = { base := (s.view dd).base, size := 8 * (s.view dd).size, order := .big } →
    ∃ v, exec (.ival rd du ⟨w, false⟩ f.size (totalWidth after)) u = .next v ∧ v.natX rd = vVal s f

/-! ## Diagnostics -/

/-- Rule R190: STRB writes the N_bits bits of the view as the characters 0x30 and 0x31, most significant first, from the
destination's base up; every other byte stays. -/
def Obligations.StrbRendersEveryBit : Prop :=
  ∀ (dd ds : DReg) (s : State),
    s.HasBitView (s.view ds) → s.HasBytes (s.view dd) (s.view dd).size → (s.view ds).size ≤ (s.view dd).size →
    overlap (s.view dd).base (s.view ds).size (s.view ds).base (s.view ds).nbytes = false →
    ∃ t, exec (.strb dd ds) s = .next t ∧ s.OnlyMem t ∧ s.SameOutside t (s.view dd).base (s.view ds).size ∧
      ∀ k, k < (s.view ds).size →
        t.readByte ((s.view dd).base + k) =
          if s.rawBit (s.view ds) (s.view ds).nbytes ((s.view ds).size - 1 - k) then 0x31 else 0x30

/-- Rule R191: STRH writes two hexadecimal digits for each byte of the view, most significant byte first, high nibble first, from
the destination's base up, letters in the case HEX_UPPER gives; every other byte stays. -/
def Obligations.StrhRendersEveryByte : Prop :=
  ∀ (dd ds : DReg) (s : State),
    s.HasBytes (s.view ds) (s.view ds).size → s.HasBytes (s.view dd) (s.view dd).size →
    2 * (s.view ds).size ≤ (s.view dd).size →
    overlap (s.view dd).base (2 * (s.view ds).size) (s.view ds).base (s.view ds).size = false →
    ∃ t, exec (.strh dd ds) s = .next t ∧ s.OnlyMem t ∧ s.SameOutside t (s.view dd).base (2 * (s.view ds).size) ∧
      ∀ k, k < (s.view ds).size → ∀ b : Nat,
        b = (bvGet s (s.view ds) (s.view ds).size ((s.view ds).size - 1 - k)).toNat →
        (∀ h c : Nat, (h = b / 16 ∧ c = 2 * k) ∨ (h = b % 16 ∧ c = 2 * k + 1) →
          (t.readByte ((s.view dd).base + c)).toNat =
            if h < 10 then 0x30 + h else (if s.params.hexUpper then 0x41 else 0x61) + (h - 10))

/-- Rules R190, R191: after its source's checks, STRB and STRH raise MEM_RANGE for a destination not inside MEM, then RENDER_SIZE
for one too small, then OVERLAP for a string over the source; and STRH first raises MEM_RANGE for its source. -/
def Obligations.RenderErrors : Prop :=
  ∀ (dd ds : DReg) (s : State),
    let src := s.view ds
    let dst := s.view dd
    (s.params.memSize < src.base + src.size → exec (.strh dd ds) s = .next (s.withError (encode (.strh dd ds)) 0x03 0)) ∧
    (∀ (i : Instr) (n len : Nat),
      (i = .strb dd ds ∧ n = src.nbytes ∧ len = src.size ∧ src.size ≤ 64) ∨
        (i = .strh dd ds ∧ n = src.size ∧ len = 2 * src.size) →
      s.HasBytes src n →
      (s.params.memSize < dst.base + dst.size → exec i s = .next (s.withError (encode i) 0x03 1)) ∧
      (s.HasBytes dst dst.size →
        (dst.size < len → exec i s = .next (s.withError (encode i) 0x0D len)) ∧
        (len ≤ dst.size → overlap dst.base len src.base n = true →
          exec i s = .next (s.withError (encode i) 0x0A 0))))

/-! ## The host port -/

/-- Rule R37: a host write of one half of X[i] changes only those 32 bits, and a host read of a half gives its current bits. -/
def Obligations.DataRegistersAreTwoHalves : Prop :=
  ∀ (s : State) (i : XReg) (v : Word) (rest : List Move), s.busy = false →
    (s.script = .writeReg (xlowPort i) v :: rest →
      step s = .next { s with x := s.x.set i.val ((s.readX i).extractLsb' 32 32 ++ v), script := rest }) ∧
    (s.script = .writeReg (xhighPort i) v :: rest →
      step s = .next { s with x := s.x.set i.val (v ++ (s.readX i).extractLsb' 0 32), script := rest }) ∧
    (s.script = .readReg (xlowPort i) :: rest →
      step s = .next { s with reply := some (.word ((s.readX i).extractLsb' 0 32)), script := rest }) ∧
    (s.script = .readReg (xhighPort i) :: rest →
      step s = .next { s with reply := some (.word ((s.readX i).extractLsb' 32 32)), script := rest })

/-- Rules R38, R23, R26: a host write of D[i] stores bits 29:0 and ignores bits 31:30, and a host read gives the stored bits with
31:30 as 0. The view that a command then finds has bits 15:0 of the written word as BASE, bits 28:16 as SIZE, and is big-endian
exactly when bit 29 is 1. -/
def Obligations.DescriptorsStoreThirtyBits : Prop :=
  ∀ (s : State) (i : DReg) (v : Word) (rest : List Move), s.busy = false →
    (s.script = .writeReg (descPort i) v :: rest →
      ∃ t, step s = .next t ∧ t = { s with d := s.d.set i.val (v.extractLsb' 0 30), script := rest } ∧
        t.view i =
          { base := (v.extractLsb' 0 16).toNat
            size := (v.extractLsb' 16 13).toNat
            order := if v.getLsbD 29 then .big else .little }) ∧
    (s.script = .readReg (descPort i) :: rest →
      step s = .next { s with reply := some (.word ((s.readD i).setWidth 32)), script := rest })

/-- Rules R61, R39: the MEM window. Inside MEM a host write changes its own byte and no other, and a host read gives the byte; past
MEM a write is ignored and a read gives 0. -/
def Obligations.MemWindowAccess : Prop :=
  ∀ (s : State) (a : BitVec 16) (v : Byte) (rest : List Move), s.busy = false →
    (s.script = .writeMem a v :: rest → a.toNat < s.params.memSize →
      ∃ t, step s = .next t ∧ t = { s with mem := t.mem, script := rest } ∧
        ∀ b, t.readByte b = if b = a.toNat then v else s.readByte b) ∧
    (s.script = .writeMem a v :: rest → s.params.memSize ≤ a.toNat → step s = .next { s with script := rest }) ∧
    (s.script = .readMem a :: rest →
      step s = .next { s with
        reply := some (.byte (if a.toNat < s.params.memSize then s.readByte a.toNat else 0)), script := rest })

/-- Rule R39: a reserved register offset reads as 0, and a write to it is ignored. -/
def Obligations.ReservedOffsetsReadZero : Prop :=
  ∀ (s : State) (p : PortWord) (v : Word) (rest : List Move), s.busy = false →
    (4 * p.toNat = 0x1C ∨ 0x80 ≤ 4 * p.toNat) →
    (s.script = .writeReg p v :: rest → step s = .next { s with script := rest }) ∧
    (s.script = .readReg p :: rest → step s = .next { s with reply := some (.word 0), script := rest })

/-- Rules R29 to R36: what the fixed registers read, ID, CAP, CTRL, STATUS, CMD, ERRINFO and ERRARG, and that a write of a
read-only one is ignored. -/
def Obligations.ControlRegistersRead : Prop :=
  ∀ (s : State) (v : Word) (rest : List Move), s.Inv →
    (s.script = .readReg 0 :: rest → step s = .next { s with reply := some (.word 0x42465801), script := rest }) ∧
    (s.script = .readReg 1 :: rest → ∃ c : Word, step s = .next { s with reply := some (.word c), script := rest } ∧
      (c.extractLsb' 0 17).toNat = s.params.memSize ∧ c.getLsbD 17 = s.params.hexUpper ∧ c.extractLsb' 18 14 = 0) ∧
    (s.script = .readReg 2 :: rest → ∃ c : Word, step s = .next { s with reply := some (.word c), script := rest } ∧
      c.extractLsb' 0 2 = 0 ∧ c.getLsbD 2 = s.eie ∧ c.extractLsb' 3 29 = 0) ∧
    (s.script = .readReg 3 :: rest → ∃ c : Word, step s = .next { s with reply := some (.word c), script := rest } ∧
      c.getLsbD 0 = false ∧ c.getLsbD 1 = s.err ∧ c.extractLsb' 2 6 = 0 ∧ c.extractLsb' 8 8 = s.errcode ∧
      c.extractLsb' 16 16 = 0) ∧
    (s.script = .readReg 4 :: rest → step s = .next { s with reply := some (.word 0), script := rest }) ∧
    (s.script = .readReg 5 :: rest → step s = .next { s with reply := some (.word s.errinfo), script := rest }) ∧
    (s.script = .readReg 6 :: rest → step s = .next { s with reply := some (.word s.errarg), script := rest }) ∧
    (∀ p : PortWord, p = 0 ∨ p = 1 ∨ p = 3 ∨ p = 5 ∨ p = 6 → s.script = .writeReg p v :: rest →
      step s = .next { s with script := rest })

/-- Rule R32: a write of CTRL with SRST 0 sets EIE from bit 2 and, when bit 1 is 1, clears the error state; with SRST 1 it is the
soft reset and ignores its other bits. -/
def Obligations.CtrlWriteActs : Prop :=
  ∀ (s : State) (v : Word) (rest : List Move), s.busy = false → s.script = .writeReg ctrlPort v :: rest →
    (v.getLsbD 0 = false → v.getLsbD 1 = false → step s = .next { s with eie := v.getLsbD 2, script := rest }) ∧
    (v.getLsbD 0 = false → v.getLsbD 1 = true →
      step s = .next
        { s with eie := v.getLsbD 2, err := false, errcode := 0, errinfo := 0, errarg := 0, script := rest }) ∧
    (v.getLsbD 0 = true →
      step s = .next
        { s with
          x := Vector.replicate 8 0, d := Vector.replicate 8 0, eie := false, busy := false, err := false, errcode := 0,
          errinfo := 0, errarg := 0, script := rest })

/-- Rule R208: ERRCLR returns from an error. The error registers become 0, IRQ falls, X, D and MEM stay, and the next CMD write is
executed; while no error is recorded it changes none of them. -/
def Obligations.ErrclrReturnsFromAnError : Prop :=
  ∀ (s : State) (v w : Word) (i : Instr) (rest : List Move), s.Inv →
    s.script = .writeReg ctrlPort v :: .writeReg cmdPort w :: rest → v.getLsbD 0 = false → v.getLsbD 1 = true →
    ∃ t, step s = .next t ∧ t.err = false ∧ t.errcode = 0 ∧ t.errinfo = 0 ∧ t.errarg = 0 ∧ t.irq = false ∧ t.x = s.x ∧
      t.d = s.d ∧ t.mem = s.mem ∧ t.memDraw = s.memDraw ∧ t.script = .writeReg cmdPort w :: rest ∧
      (decode w = .ok i → step t = exec i { t with script := rest, busy := true }) ∧
      (s.err = false → t = { s with eie := v.getLsbD 2, script := t.script })

/-- Rule R235 and spec/93_implementation_defined.md S5: while BUSY is 1 a read of ID is answered with its constant and one of
STATUS with a word whose BUSY bit is 1 (R30, R33), and every other host access is refused, the model's own form of "A model gives
the host no such move" (log entry 7). -/
def Obligations.AccessWhileBusyIsRefused : Prop :=
  ∀ (s : State) (p : PortWord) (v : Word) (a : BitVec 16) (b : Byte) (rest : List Move), s.busy = true →
    (s.script = .writeReg p v :: rest ∨ s.script = .readMem a :: rest ∨ s.script = .writeMem a b :: rest →
      step s = .refused .accessWhileBusy) ∧
    (s.script = .readReg p :: rest → p ≠ 0 → p ≠ 3 → step s = .refused .accessWhileBusy) ∧
    (s.script = .readReg 0 :: rest →
      step s = .next { s with reply := some (.word 0x42465801), script := rest }) ∧
    (s.script = .readReg 3 :: rest →
      step s = .next { s with reply := some (.word (s.readPort .status)), script := rest } ∧
        (s.readPort .status).getLsbD 0 = true ∧ (s.readPort .status).getLsbD 1 = s.err ∧
        (s.readPort .status).extractLsb' 8 8 = if s.err then s.errcode else 0)

/-! ## Errors over steps -/

/-- Rule R201: raising is the only thing that sets ERR. A step that sets it performs a CMD write; the recorded word is the word
written, and nothing but the error registers and the script changes. -/
def Obligations.OnlyRaisingSetsErr : Prop :=
  ∀ s t : State, step s = .next t → s.err = false → s.busy = false → t.err = true →
    ∃ w rest number arg, s.script = .writeReg cmdPort w :: rest ∧ 1 ≤ number ∧ number ≤ 13 ∧
      t = { s with script := rest }.withError w number arg

/-- Rule R209: while an error is recorded, no step but a write of CTRL or a hardware reset changes the error registers: the first
error is the one reported. -/
def Obligations.FirstErrorIsKept : Prop :=
  ∀ s t : State, step s = .next t → s.err = true →
    (∀ v rest, s.script ≠ .writeReg ctrlPort v :: rest) → (∀ rest, s.script ≠ .hardReset :: rest) →
    (∀ w rest, s.script ≠ .hardResetDuring w :: rest) →
    t.err = true ∧ t.errcode = s.errcode ∧ t.errinfo = s.errinfo ∧ t.errarg = s.errarg

/-- Rule R206: IRQ is CTRL.EIE AND STATUS.ERR, and a step raises it only by raising an error or by setting EIE while one is
recorded. -/
def Obligations.IrqFollowsErrAndEie : Prop :=
  (∀ s : State, s.irq = true ↔ s.eie = true ∧ s.err = true) ∧
  ∀ s t : State, step s = .next t → s.busy = false → s.irq = false → t.irq = true →
    (s.eie = true ∧ ∃ w rest, s.script = .writeReg cmdPort w :: rest) ∨
      (s.err = true ∧ ∃ v rest, s.script = .writeReg ctrlPort v :: rest)

/-! ## Reset and invariant -/

/-- Rule R231, first part: a hardware reset while no command runs sets every register to 0 and leaves every byte of MEM
unspecified: it reads as the next free draw gives it, the model's form of "unspecified" (log entries 3, 4). -/
def Obligations.HardwareResetValues : Prop :=
  ∀ (s : State) (rest : List Move), s.busy = false → s.script = .hardReset :: rest →
    ∃ t, step s = .next t ∧ (∀ r, t.readX r = 0) ∧ (∀ r, t.readD r = 0) ∧ t.eie = false ∧ t.busy = false ∧ t.err = false ∧
      t.errcode = 0 ∧ t.errinfo = 0 ∧ t.errarg = 0 ∧ t.irq = false ∧ t.params = s.params ∧ t.script = rest ∧
      t.nextDraw = s.nextDraw + 1 ∧ ∀ a, t.readByte a = Config.freeByte s.nextDraw a

/-- Rule R231, last part: a hardware reset while a command runs leaves unspecified exactly the bytes the command would have
written, and every other byte keeps its value (the model's reading, log entry 5). -/
def Obligations.ResetDuringACommand : Prop :=
  ∀ (s : State) (w : Word) (i : Instr) (rest : List Move),
    s.Ready → s.script = .hardResetDuring w :: rest → decode w = .ok i →
    ∃ t, step s = .next t ∧ (∀ r, t.readX r = 0) ∧ (∀ r, t.readD r = 0) ∧ t.eie = false ∧ t.busy = false ∧ t.err = false ∧
      t.errcode = 0 ∧ t.errinfo = 0 ∧ t.errarg = 0 ∧ t.params = s.params ∧ t.script = rest ∧ t.nextDraw = s.nextDraw + 1 ∧
      ∀ a, t.readByte a = if a ∈ storedAddresses i s then Config.freeByte s.nextDraw a else s.readByte a

/-- Rule R232: the soft reset sets every register as the hardware reset does, and MEM keeps its contents. -/
def Obligations.SoftResetKeepsMem : Prop :=
  ∀ (s : State) (v : Word) (rest : List Move), s.busy = false → v.getLsbD 0 = true →
    s.script = .writeReg ctrlPort v :: rest →
    ∃ t, step s = .next t ∧ (∀ r, t.readX r = 0) ∧ (∀ r, t.readD r = 0) ∧ t.eie = false ∧ t.busy = false ∧ t.err = false ∧
      t.errcode = 0 ∧ t.errinfo = 0 ∧ t.errarg = 0 ∧ t.readPort .ctrl = 0 ∧ t.mem = s.mem ∧
      ∀ a, t.readByte a = s.readByte a

/-- The invariant holds after reset (rules R43, R231), in the build and with the draws that log entries 1 and 4 name. -/
def Obligations.InvariantHoldsAtReset : Prop := State.reset.Inv

/-- Every step keeps the invariant, from every state that has it. -/
def Obligations.EveryStepKeepsTheInvariant : Prop :=
  ∀ s t : State, s.Inv → step s = .next t → t.Inv

/-- From a state with the invariant the machine never stops: every step answers a next state. -/
def Obligations.NoStepStops : Prop := ∀ s : State, s.Inv → ∃ t, step s = .next t
end

