-- ==== Sys2Proof/Laws/Encoding.lean ====
section
/-!
SUPPORT. The encoding formulas as sums, the fields of a word as quotients, and what it takes for a word to fit a row of the opcode
map (spec/30_encoding.md rules R81 to R98).
-/

namespace Sys2Proof.Laws

/-! ## Fields -/

/-- A field of a word as a quotient and a remainder (rule R11). -/
theorem wordBits_eq (w : Word) (hi lo : Nat) : wordBits w hi lo = w.toNat / 2 ^ lo % 2 ^ (hi + 1 - lo) := by
  rw [wordBits, Nat.shiftRight_eq_div_pow]

/-- An empty slice is 0 (rule R11). -/
theorem wordBits_of_lt (w : Word) {hi lo : Nat} (h : hi < lo) : wordBits w hi lo = 0 := by
  rw [wordBits, show hi + 1 - lo = 0 by omega, Nat.pow_zero, Nat.mod_one]

/-- A register field as a quotient and a remainder (rule R88). -/
theorem regField_val (w : Word) (lo : Nat) : (regField w lo).val = w.toNat / 2 ^ lo % 8 := by
  simp [regField, wordBits_eq, show lo + 2 + 1 - lo = 3 by omega]

/-- A field of a masked word is the masked field. -/
theorem wordBits_and (a b : Word) (hi lo : Nat) : wordBits (a &&& b) hi lo = wordBits a hi lo &&& wordBits b hi lo := by
  simp only [wordBits, BitVec.toNat_and, Nat.shiftRight_and_distrib, Nat.and_mod_two_pow]

/-- A run of mask ones leaves the field under it as it is. -/
theorem wordBits_and_ones (a b : Word) (hi lo : Nat) (h : wordBits b hi lo = 2 ^ (hi + 1 - lo) - 1) :
    wordBits (a &&& b) hi lo = wordBits a hi lo := by
  rw [wordBits_and, h, Nat.and_two_pow_sub_one_eq_mod]
  exact Nat.mod_eq_of_lt (Nat.mod_lt _ (Nat.two_pow_pos _))

/-- A word that fits a row has, under each run of ones of the row's mask, the row's value (rule R89). -/
theorem wordBits_of_fits {r : OpcodeRow} {w : Word} (hf : r.fits w = true) (hi lo : Nat)
    (hm : wordBits r.mask hi lo = 2 ^ (hi + 1 - lo) - 1) : wordBits w hi lo = wordBits r.pattern hi lo := by
  have h : w &&& r.mask = r.pattern := by simpa [OpcodeRow.fits] using hf
  rw [← h, wordBits_and_ones _ _ _ _ hm]

/-- Every row's mask covers OP, so a word that fits a row has the row's opcode (rules R81, R89). -/
theorem opField_of_fits {r : OpcodeRow} {w : Word} (hr : r ∈ opcodeMap) (hf : r.fits w = true) :
    opField w = opField r.pattern := by
  refine wordBits_of_fits hf 5 0 ?_
  have : ∀ r ∈ opcodeMap, wordBits r.mask 5 0 = 2 ^ (5 + 1 - 0) - 1 := by decide
  exact this r hr

/-- The rows have different opcodes (rule R89). -/
theorem opcodeMap_pairwise : opcodeMap.Pairwise (fun r q => opField r.pattern ≠ opField q.pattern) := by decide

/-- A row of the map is found by its opcode (rule R89). -/
theorem row_unique {r q : OpcodeRow} (hr : r ∈ opcodeMap) (hq : q ∈ opcodeMap)
    (h : opField r.pattern = opField q.pattern) : r = q := by
  obtain ⟨a, ha, rfl⟩ := List.mem_iff_getElem.mp hr
  obtain ⟨b, hb, rfl⟩ := List.mem_iff_getElem.mp hq
  have hp := List.pairwise_iff_getElem.mp opcodeMap_pairwise
  rcases Nat.lt_trichotomy a b with hab | hab | hab
  · exact absurd h (hp a b ha hb hab)
  · subst hab
    rfl
  · exact absurd h.symm (hp b a hb ha hab)

/-! ## Decoding -/

/-- A word that fits a row decodes to that row's command (rule R97). -/
theorem decode_of_fits {r : OpcodeRow} {w : Word} (hr : r ∈ opcodeMap) (hf : r.fits w = true) : decode w = .ok (r.read w) := by
  unfold decode
  split
  · rename_i q hq
    have hm := List.mem_of_find?_eq_some hq
    have hqf : q.fits w = true := by simpa using List.find?_some hq
    rw [row_unique hm hr ((opField_of_fits hm hqf).symm.trans (opField_of_fits hr hf))]
  · rename_i hn
    exact absurd hf (by simpa using List.find?_eq_none.mp hn r hr)

/-- A word that decodes to a command fits a row that reads it (rule R97). -/
theorem fits_of_decode {w : Word} {i : Instr} (h : decode w = .ok i) : ∃ r ∈ opcodeMap, r.fits w = true ∧ i = r.read w := by
  unfold decode at h
  split at h
  · rename_i r hr
    exact ⟨r, List.mem_of_find?_eq_some hr, by simpa using List.find?_some hr, by simpa [eq_comm] using h⟩
  · cases h

/-! ## Integer types -/

@[simp] theorem widthOfCode_code (w : IntWidth) : widthOfCode w.code = w := by cases w <;> rfl

theorem code_lt (w : IntWidth) : w.code < 4 := by cases w <;> decide

theorem code_widthOfCode {n : Nat} (h : n < 4) : (widthOfCode n).code = n := by interval_cases n <;> rfl

theorem signCode_lt (t : IntType) : t.signCode < 2 := by
  unfold IntType.signCode
  split <;> omega

/-- A type's signedness bit is bit 14 of its word (rule R83). -/
theorem signCode_typeField (w : Word) : (typeField w).signCode = wordBits w 14 14 := by
  have key : ∀ n < 2, (if (n == 1) = true then 1 else 0) = n := by decide
  exact key _ (Nat.mod_lt _ (by decide))

/-- The width of a type is one of TWIDTHS, and its code gives it as 8 << W (rule R86). -/
theorem bits_eq_shift (w : IntWidth) : w.bits = 8 <<< w.code := by cases w <;> rfl

/-! ## The encoding formulas as sums -/

/-- Two fields that do not meet: their OR is their sum. -/
theorem or_shift {a b n : Nat} (h : a < 2 ^ n) : a ||| b <<< n = a + b * 2 ^ n := by
  rw [Nat.lor_comm, ← Nat.shiftLeft_add_eq_or_of_lt h, Nat.shiftLeft_eq, Nat.add_comm]

/-- enc_R as a sum, every field within its width (rules R82, R98). -/
theorem encR_toNat {op rd ds rs rt dd : Nat} (h0 : op < 64) (h1 : rd < 8) (h2 : ds < 8) (h3 : rs < 8) (h4 : rt < 8)
    (h5 : dd < 8) :
    (encR op rd ds rs rt dd).toNat = op + rd * 2 ^ 6 + ds * 2 ^ 9 + rs * 2 ^ 12 + rt * 2 ^ 15 + dd * 2 ^ 18 := by
  rw [encR, or_shift (n := 6) (by omega), or_shift (n := 9) (by omega), or_shift (n := 12) (by omega),
    or_shift (n := 15) (by omega), or_shift (n := 18) (by omega), BitVec.toNat_ofNat, Nat.mod_eq_of_lt (by omega)]

/-- enc_C as a sum, every field within its width (rules R83, R98). -/
theorem encC_toNat {op rd ds w s len off : Nat} (h0 : op < 64) (h1 : rd < 8) (h2 : ds < 8) (h3 : w < 4) (h4 : s < 2)
    (h5 : len < 128) (h6 : off < 128) :
    (encC op rd ds w s len off).toNat =
      op + rd * 2 ^ 6 + ds * 2 ^ 9 + w * 2 ^ 12 + s * 2 ^ 14 + len * 2 ^ 15 + off * 2 ^ 22 := by
  rw [encC, or_shift (n := 6) (by omega), or_shift (n := 9) (by omega), or_shift (n := 12) (by omega),
    or_shift (n := 14) (by omega), or_shift (n := 15) (by omega), or_shift (n := 22) (by omega), BitVec.toNat_ofNat,
    Nat.mod_eq_of_lt (by omega)]

/-- enc_J as a sum, every field within its width (rules R84, R98). -/
theorem encJ_toNat {op rd rs w n : Nat} (h0 : op < 64) (h1 : rd < 8) (h2 : rs < 8) (h3 : w < 4) (h4 : n < 128) :
    (encJ op rd rs w n).toNat = op + rd * 2 ^ 6 + rs * 2 ^ 12 + w * 2 ^ 15 + n * 2 ^ 17 := by
  rw [encJ, or_shift (n := 6) (by omega), or_shift (n := 12) (by omega), or_shift (n := 15) (by omega),
    or_shift (n := 17) (by omega), BitVec.toNat_ofNat, Nat.mod_eq_of_lt (by omega)]

/-- enc_M as a sum, every field within its width (rules R85, R98). -/
theorem encM_toNat {op rd l m r : Nat} (h0 : op < 64) (h1 : rd < 8) (h2 : l < 128) (h3 : m < 128) (h4 : r < 128) :
    (encM op rd l m r).toNat = op + rd * 2 ^ 6 + l * 2 ^ 9 + m * 2 ^ 16 + r * 2 ^ 23 := by
  rw [encM, or_shift (n := 6) (by omega), or_shift (n := 9) (by omega), or_shift (n := 16) (by omega),
    or_shift (n := 23) (by omega), BitVec.toNat_ofNat, Nat.mod_eq_of_lt (by omega)]

/-! ## Fitting a row -/

/-- A part of a word that lies where a mask is 0 is masked away. -/
theorem ofNat_and_eq {n : Nat} {mask pattern : Word} (h : n &&& mask.toNat = pattern.toNat) :
    BitVec.ofNat 32 n &&& mask = pattern := by
  apply BitVec.eq_of_toNat_eq
  have hm : mask.toNat < 2 ^ 32 := mask.isLt
  rw [BitVec.toNat_and, BitVec.toNat_ofNat, ← h]
  calc n % 2 ^ 32 &&& mask.toNat = n % 2 ^ 32 &&& mask.toNat % 2 ^ 32 := by rw [Nat.mod_eq_of_lt hm]
    _ = (n &&& mask.toNat) % 2 ^ 32 := Nat.and_mod_two_pow.symm
    _ = n &&& mask.toNat := Nat.mod_eq_of_lt (lt_of_le_of_lt Nat.and_le_right hm)

end Sys2Proof.Laws
end

