-- ==== Sys2Proof/Laws/State.lean ====
section
/-!
SUPPORT. What each update of State does to each field, one lemma per field and update, so that no later proof unfolds one.
-/

namespace Sys2Proof.Laws

open Sys2Proof.Machine

variable (s : State)

/-! ## writeX -/

@[simp] theorem writeX_x (r : XReg) (v : Data) : (s.writeX r v).x = s.x.set r.val v := rfl
@[simp] theorem writeX_d (r : XReg) (v : Data) : (s.writeX r v).d = s.d := rfl
@[simp] theorem writeX_mem (r : XReg) (v : Data) : (s.writeX r v).mem = s.mem := rfl
@[simp] theorem writeX_eie (r : XReg) (v : Data) : (s.writeX r v).eie = s.eie := rfl
@[simp] theorem writeX_busy (r : XReg) (v : Data) : (s.writeX r v).busy = s.busy := rfl
@[simp] theorem writeX_err (r : XReg) (v : Data) : (s.writeX r v).err = s.err := rfl
@[simp] theorem writeX_errcode (r : XReg) (v : Data) : (s.writeX r v).errcode = s.errcode := rfl
@[simp] theorem writeX_errinfo (r : XReg) (v : Data) : (s.writeX r v).errinfo = s.errinfo := rfl
@[simp] theorem writeX_errarg (r : XReg) (v : Data) : (s.writeX r v).errarg = s.errarg := rfl
@[simp] theorem writeX_params (r : XReg) (v : Data) : (s.writeX r v).params = s.params := rfl
@[simp] theorem writeX_script (r : XReg) (v : Data) : (s.writeX r v).script = s.script := rfl
@[simp] theorem writeX_reply (r : XReg) (v : Data) : (s.writeX r v).reply = s.reply := rfl
@[simp] theorem writeX_memDraw (r : XReg) (v : Data) : (s.writeX r v).memDraw = s.memDraw := rfl
@[simp] theorem writeX_nextDraw (r : XReg) (v : Data) : (s.writeX r v).nextDraw = s.nextDraw := rfl

/-! ## writeD -/

@[simp] theorem writeD_x (r : DReg) (v : DescBits) : (s.writeD r v).x = s.x := rfl
@[simp] theorem writeD_d (r : DReg) (v : DescBits) : (s.writeD r v).d = s.d.set r.val v := rfl
@[simp] theorem writeD_mem (r : DReg) (v : DescBits) : (s.writeD r v).mem = s.mem := rfl
@[simp] theorem writeD_eie (r : DReg) (v : DescBits) : (s.writeD r v).eie = s.eie := rfl
@[simp] theorem writeD_busy (r : DReg) (v : DescBits) : (s.writeD r v).busy = s.busy := rfl
@[simp] theorem writeD_err (r : DReg) (v : DescBits) : (s.writeD r v).err = s.err := rfl
@[simp] theorem writeD_errcode (r : DReg) (v : DescBits) : (s.writeD r v).errcode = s.errcode := rfl
@[simp] theorem writeD_errinfo (r : DReg) (v : DescBits) : (s.writeD r v).errinfo = s.errinfo := rfl
@[simp] theorem writeD_errarg (r : DReg) (v : DescBits) : (s.writeD r v).errarg = s.errarg := rfl
@[simp] theorem writeD_params (r : DReg) (v : DescBits) : (s.writeD r v).params = s.params := rfl
@[simp] theorem writeD_script (r : DReg) (v : DescBits) : (s.writeD r v).script = s.script := rfl
@[simp] theorem writeD_reply (r : DReg) (v : DescBits) : (s.writeD r v).reply = s.reply := rfl
@[simp] theorem writeD_memDraw (r : DReg) (v : DescBits) : (s.writeD r v).memDraw = s.memDraw := rfl
@[simp] theorem writeD_nextDraw (r : DReg) (v : DescBits) : (s.writeD r v).nextDraw = s.nextDraw := rfl

/-! ## writeByte -/

@[simp] theorem writeByte_x (a : Nat) (v : Byte) : (s.writeByte a v).x = s.x := rfl
@[simp] theorem writeByte_d (a : Nat) (v : Byte) : (s.writeByte a v).d = s.d := rfl
@[simp] theorem writeByte_mem (a : Nat) (v : Byte) : (s.writeByte a v).mem = s.mem.insert a v := rfl
@[simp] theorem writeByte_eie (a : Nat) (v : Byte) : (s.writeByte a v).eie = s.eie := rfl
@[simp] theorem writeByte_busy (a : Nat) (v : Byte) : (s.writeByte a v).busy = s.busy := rfl
@[simp] theorem writeByte_err (a : Nat) (v : Byte) : (s.writeByte a v).err = s.err := rfl
@[simp] theorem writeByte_errcode (a : Nat) (v : Byte) : (s.writeByte a v).errcode = s.errcode := rfl
@[simp] theorem writeByte_errinfo (a : Nat) (v : Byte) : (s.writeByte a v).errinfo = s.errinfo := rfl
@[simp] theorem writeByte_errarg (a : Nat) (v : Byte) : (s.writeByte a v).errarg = s.errarg := rfl
@[simp] theorem writeByte_params (a : Nat) (v : Byte) : (s.writeByte a v).params = s.params := rfl
@[simp] theorem writeByte_script (a : Nat) (v : Byte) : (s.writeByte a v).script = s.script := rfl
@[simp] theorem writeByte_reply (a : Nat) (v : Byte) : (s.writeByte a v).reply = s.reply := rfl
@[simp] theorem writeByte_memDraw (a : Nat) (v : Byte) : (s.writeByte a v).memDraw = s.memDraw := rfl
@[simp] theorem writeByte_nextDraw (a : Nat) (v : Byte) : (s.writeByte a v).nextDraw = s.nextDraw := rfl

/-! ## accept -/

@[simp] theorem accept_x : s.accept.x = s.x := rfl
@[simp] theorem accept_d : s.accept.d = s.d := rfl
@[simp] theorem accept_mem : s.accept.mem = s.mem := rfl
@[simp] theorem accept_eie : s.accept.eie = s.eie := rfl
@[simp] theorem accept_busy : s.accept.busy = true := rfl
@[simp] theorem accept_err : s.accept.err = s.err := rfl
@[simp] theorem accept_errcode : s.accept.errcode = s.errcode := rfl
@[simp] theorem accept_errinfo : s.accept.errinfo = s.errinfo := rfl
@[simp] theorem accept_errarg : s.accept.errarg = s.errarg := rfl
@[simp] theorem accept_params : s.accept.params = s.params := rfl
@[simp] theorem accept_script : s.accept.script = s.script := rfl
@[simp] theorem accept_reply : s.accept.reply = s.reply := rfl
@[simp] theorem accept_memDraw : s.accept.memDraw = s.memDraw := rfl
@[simp] theorem accept_nextDraw : s.accept.nextDraw = s.nextDraw := rfl

/-! ## raiseError -/

@[simp] theorem raiseError_x (w : Word) (e : CmdError) : (s.raiseError w e).x = s.x := rfl
@[simp] theorem raiseError_d (w : Word) (e : CmdError) : (s.raiseError w e).d = s.d := rfl
@[simp] theorem raiseError_mem (w : Word) (e : CmdError) : (s.raiseError w e).mem = s.mem := rfl
@[simp] theorem raiseError_eie (w : Word) (e : CmdError) : (s.raiseError w e).eie = s.eie := rfl
@[simp] theorem raiseError_busy (w : Word) (e : CmdError) : (s.raiseError w e).busy = false := rfl
@[simp] theorem raiseError_err (w : Word) (e : CmdError) : (s.raiseError w e).err = true := rfl
@[simp] theorem raiseError_errcode (w : Word) (e : CmdError) : (s.raiseError w e).errcode = e.code.number := rfl
@[simp] theorem raiseError_errinfo (w : Word) (e : CmdError) : (s.raiseError w e).errinfo = w := rfl
@[simp] theorem raiseError_errarg (w : Word) (e : CmdError) : (s.raiseError w e).errarg = BitVec.ofNat 32 e.arg := rfl
@[simp] theorem raiseError_params (w : Word) (e : CmdError) : (s.raiseError w e).params = s.params := rfl
@[simp] theorem raiseError_script (w : Word) (e : CmdError) : (s.raiseError w e).script = s.script := rfl
@[simp] theorem raiseError_reply (w : Word) (e : CmdError) : (s.raiseError w e).reply = s.reply := rfl
@[simp] theorem raiseError_memDraw (w : Word) (e : CmdError) : (s.raiseError w e).memDraw = s.memDraw := rfl
@[simp] theorem raiseError_nextDraw (w : Word) (e : CmdError) : (s.raiseError w e).nextDraw = s.nextDraw := rfl

/-! ## clearError -/

@[simp] theorem clearError_x : s.clearError.x = s.x := rfl
@[simp] theorem clearError_d : s.clearError.d = s.d := rfl
@[simp] theorem clearError_mem : s.clearError.mem = s.mem := rfl
@[simp] theorem clearError_eie : s.clearError.eie = s.eie := rfl
@[simp] theorem clearError_busy : s.clearError.busy = s.busy := rfl
@[simp] theorem clearError_err : s.clearError.err = false := rfl
@[simp] theorem clearError_errcode : s.clearError.errcode = 0 := rfl
@[simp] theorem clearError_errinfo : s.clearError.errinfo = 0 := rfl
@[simp] theorem clearError_errarg : s.clearError.errarg = 0 := rfl
@[simp] theorem clearError_params : s.clearError.params = s.params := rfl
@[simp] theorem clearError_script : s.clearError.script = s.script := rfl
@[simp] theorem clearError_reply : s.clearError.reply = s.reply := rfl
@[simp] theorem clearError_memDraw : s.clearError.memDraw = s.memDraw := rfl
@[simp] theorem clearError_nextDraw : s.clearError.nextDraw = s.nextDraw := rfl

/-! ## applyEffect -/

@[simp] theorem applyEffect_x (e : Effect) : (s.applyEffect e).x = s.xAfter e.xwrite := rfl
@[simp] theorem applyEffect_d (e : Effect) : (s.applyEffect e).d = s.d := rfl
@[simp] theorem applyEffect_mem (e : Effect) : (s.applyEffect e).mem = s.mem.storeAll e.stores := rfl
@[simp] theorem applyEffect_eie (e : Effect) : (s.applyEffect e).eie = s.eie := rfl
@[simp] theorem applyEffect_busy (e : Effect) : (s.applyEffect e).busy = false := rfl
@[simp] theorem applyEffect_err (e : Effect) : (s.applyEffect e).err = s.err := rfl
@[simp] theorem applyEffect_errcode (e : Effect) : (s.applyEffect e).errcode = s.errcode := rfl
@[simp] theorem applyEffect_errinfo (e : Effect) : (s.applyEffect e).errinfo = s.errinfo := rfl
@[simp] theorem applyEffect_errarg (e : Effect) : (s.applyEffect e).errarg = s.errarg := rfl
@[simp] theorem applyEffect_params (e : Effect) : (s.applyEffect e).params = s.params := rfl
@[simp] theorem applyEffect_script (e : Effect) : (s.applyEffect e).script = s.script := rfl
@[simp] theorem applyEffect_reply (e : Effect) : (s.applyEffect e).reply = s.reply := rfl
@[simp] theorem applyEffect_memDraw (e : Effect) : (s.applyEffect e).memDraw = s.memDraw := rfl
@[simp] theorem applyEffect_nextDraw (e : Effect) : (s.applyEffect e).nextDraw = s.nextDraw := rfl

/-! ## resetRegisters -/

@[simp] theorem resetRegisters_x : s.resetRegisters.x = Vector.replicate 8 0 := rfl
@[simp] theorem resetRegisters_d : s.resetRegisters.d = Vector.replicate 8 0 := rfl
@[simp] theorem resetRegisters_mem : s.resetRegisters.mem = s.mem := rfl
@[simp] theorem resetRegisters_eie : s.resetRegisters.eie = false := rfl
@[simp] theorem resetRegisters_busy : s.resetRegisters.busy = false := rfl
@[simp] theorem resetRegisters_err : s.resetRegisters.err = false := rfl
@[simp] theorem resetRegisters_errcode : s.resetRegisters.errcode = 0 := rfl
@[simp] theorem resetRegisters_errinfo : s.resetRegisters.errinfo = 0 := rfl
@[simp] theorem resetRegisters_errarg : s.resetRegisters.errarg = 0 := rfl
@[simp] theorem resetRegisters_params : s.resetRegisters.params = s.params := rfl
@[simp] theorem resetRegisters_script : s.resetRegisters.script = s.script := rfl
@[simp] theorem resetRegisters_reply : s.resetRegisters.reply = s.reply := rfl
@[simp] theorem resetRegisters_memDraw : s.resetRegisters.memDraw = s.memDraw := rfl
@[simp] theorem resetRegisters_nextDraw : s.resetRegisters.nextDraw = s.nextDraw := rfl

/-! ## softReset -/

@[simp] theorem softReset_x : s.softReset.x = Vector.replicate 8 0 := rfl
@[simp] theorem softReset_d : s.softReset.d = Vector.replicate 8 0 := rfl
@[simp] theorem softReset_mem : s.softReset.mem = s.mem := rfl
@[simp] theorem softReset_eie : s.softReset.eie = false := rfl
@[simp] theorem softReset_busy : s.softReset.busy = false := rfl
@[simp] theorem softReset_err : s.softReset.err = false := rfl
@[simp] theorem softReset_errcode : s.softReset.errcode = 0 := rfl
@[simp] theorem softReset_errinfo : s.softReset.errinfo = 0 := rfl
@[simp] theorem softReset_errarg : s.softReset.errarg = 0 := rfl
@[simp] theorem softReset_params : s.softReset.params = s.params := rfl
@[simp] theorem softReset_script : s.softReset.script = s.script := rfl
@[simp] theorem softReset_reply : s.softReset.reply = s.reply := rfl
@[simp] theorem softReset_memDraw : s.softReset.memDraw = s.memDraw := rfl
@[simp] theorem softReset_nextDraw : s.softReset.nextDraw = s.nextDraw := rfl

/-! ## hardReset -/

@[simp] theorem hardReset_x : s.hardReset.x = Vector.replicate 8 0 := rfl
@[simp] theorem hardReset_d : s.hardReset.d = Vector.replicate 8 0 := rfl
@[simp] theorem hardReset_mem : s.hardReset.mem = [] := rfl
@[simp] theorem hardReset_eie : s.hardReset.eie = false := rfl
@[simp] theorem hardReset_busy : s.hardReset.busy = false := rfl
@[simp] theorem hardReset_err : s.hardReset.err = false := rfl
@[simp] theorem hardReset_errcode : s.hardReset.errcode = 0 := rfl
@[simp] theorem hardReset_errinfo : s.hardReset.errinfo = 0 := rfl
@[simp] theorem hardReset_errarg : s.hardReset.errarg = 0 := rfl
@[simp] theorem hardReset_params : s.hardReset.params = s.params := rfl
@[simp] theorem hardReset_script : s.hardReset.script = s.script := rfl
@[simp] theorem hardReset_reply : s.hardReset.reply = s.reply := rfl
@[simp] theorem hardReset_memDraw : s.hardReset.memDraw = s.nextDraw := rfl
@[simp] theorem hardReset_nextDraw : s.hardReset.nextDraw = s.nextDraw + 1 := rfl

/-! ## hardResetTorn -/

@[simp] theorem hardResetTorn_x (as : List Nat) : (s.hardResetTorn as).x = Vector.replicate 8 0 := rfl
@[simp] theorem hardResetTorn_d (as : List Nat) : (s.hardResetTorn as).d = Vector.replicate 8 0 := rfl
@[simp] theorem hardResetTorn_mem (as : List Nat) : (s.hardResetTorn as).mem = s.mem.storeAll (as.map (fun a => (a, Config.freeByte s.nextDraw a))) := rfl
@[simp] theorem hardResetTorn_eie (as : List Nat) : (s.hardResetTorn as).eie = false := rfl
@[simp] theorem hardResetTorn_busy (as : List Nat) : (s.hardResetTorn as).busy = false := rfl
@[simp] theorem hardResetTorn_err (as : List Nat) : (s.hardResetTorn as).err = false := rfl
@[simp] theorem hardResetTorn_errcode (as : List Nat) : (s.hardResetTorn as).errcode = 0 := rfl
@[simp] theorem hardResetTorn_errinfo (as : List Nat) : (s.hardResetTorn as).errinfo = 0 := rfl
@[simp] theorem hardResetTorn_errarg (as : List Nat) : (s.hardResetTorn as).errarg = 0 := rfl
@[simp] theorem hardResetTorn_params (as : List Nat) : (s.hardResetTorn as).params = s.params := rfl
@[simp] theorem hardResetTorn_script (as : List Nat) : (s.hardResetTorn as).script = s.script := rfl
@[simp] theorem hardResetTorn_reply (as : List Nat) : (s.hardResetTorn as).reply = s.reply := rfl
@[simp] theorem hardResetTorn_memDraw (as : List Nat) : (s.hardResetTorn as).memDraw = s.memDraw := rfl
@[simp] theorem hardResetTorn_nextDraw (as : List Nat) : (s.hardResetTorn as).nextDraw = s.nextDraw + 1 := rfl

/-! ## answer -/

@[simp] theorem answer_x (r : Reply) : (s.answer r).x = s.x := rfl
@[simp] theorem answer_d (r : Reply) : (s.answer r).d = s.d := rfl
@[simp] theorem answer_mem (r : Reply) : (s.answer r).mem = s.mem := rfl
@[simp] theorem answer_eie (r : Reply) : (s.answer r).eie = s.eie := rfl
@[simp] theorem answer_busy (r : Reply) : (s.answer r).busy = s.busy := rfl
@[simp] theorem answer_err (r : Reply) : (s.answer r).err = s.err := rfl
@[simp] theorem answer_errcode (r : Reply) : (s.answer r).errcode = s.errcode := rfl
@[simp] theorem answer_errinfo (r : Reply) : (s.answer r).errinfo = s.errinfo := rfl
@[simp] theorem answer_errarg (r : Reply) : (s.answer r).errarg = s.errarg := rfl
@[simp] theorem answer_params (r : Reply) : (s.answer r).params = s.params := rfl
@[simp] theorem answer_script (r : Reply) : (s.answer r).script = s.script := rfl
@[simp] theorem answer_reply (r : Reply) : (s.answer r).reply = some r := rfl
@[simp] theorem answer_memDraw (r : Reply) : (s.answer r).memDraw = s.memDraw := rfl
@[simp] theorem answer_nextDraw (r : Reply) : (s.answer r).nextDraw = s.nextDraw := rfl

/-! ## Reading a register after writing one -/

@[simp] theorem readX_writeX (r q : XReg) (v : Data) : (s.writeX r v).readX q = if q = r then v else s.readX q := by
  simp only [State.readX, State.writeX, Vector.getElem_set, Fin.ext_iff, eq_comm]

@[simp] theorem readD_writeD (r q : DReg) (v : DescBits) : (s.writeD r v).readD q = if q = r then v else s.readD q := by
  simp only [State.readD, State.writeD, Vector.getElem_set, Fin.ext_iff, eq_comm]

/-- A state's view of a register depends on its descriptors alone. -/
theorem view_congr {s t : State} (h : t.d = s.d) (r : DReg) : t.view r = s.view r := by
  simp only [State.view, State.readD, h]

/-- A read of a data register depends on the data registers alone. -/
theorem readX_congr {s t : State} (h : t.x = s.x) (r : XReg) : t.readX r = s.readX r := by
  simp only [State.readX, h]

/-- A byte read depends on MEM and its draw alone. -/
theorem readByte_congr {s t : State} (hm : t.mem = s.mem) (hd : t.memDraw = s.memDraw) (a : Nat) :
    t.readByte a = s.readByte a := by
  simp only [State.readByte, State.unlistedByte, hm, hd]

end Sys2Proof.Laws
end

