-- ==== Sys2Proof/Laws/Memory.lean ====
section
/-!
SUPPORT. MEM as data: a read after a write, and every memory operation keeps the canonical form.
-/

namespace Sys2Proof.Laws

open Sys2Proof.Machine

/-! ## Reading after writing -/

/-- Listing a byte changes the entry of its own address only. -/
@[simp] theorem lookup_insert (m : Memory) (b c : Nat) (v : Byte) :
    (m.insert b v).lookup c = if c = b then some v else m.lookup c := by
  induction m with
  | nil => simp [Memory.insert, Memory.lookup]
  | cons e rest ih =>
    obtain ⟨a, u⟩ := e
    unfold Memory.insert
    split
    · simp [Memory.lookup]
    · split
      · subst_vars
        by_cases hc : c = a <;> simp [Memory.lookup, hc]
      · by_cases hc : c = a
        · subst hc
          have : c ≠ b := fun h => by subst h; simp_all
          simp [Memory.lookup, this]
        · simp [Memory.lookup, hc, ih]

/-- MemWrite then MemRead (rule R13). -/
@[simp] theorem readByte_writeByte (s : State) (a b : Nat) (v : Byte) :
    (s.writeByte a v).readByte b = if b = a then v else s.readByte b := by
  by_cases h : b = a <;> simp [State.readByte, State.unlistedByte, h]

/-- A list of stores leaves an address none of them names as it was. -/
theorem lookup_storeAll_of_not_mem (cs : List Host.Cell) (m : Memory) (a : Nat) (h : ∀ c ∈ cs, c.1 ≠ a) :
    (m.storeAll cs).lookup a = m.lookup a := by
  induction cs generalizing m with
  | nil => rfl
  | cons c cs ih =>
    have hc : a ≠ c.1 := fun e => h c (by simp) e.symm
    simpa [Memory.storeAll, hc] using ih (m.insert c.1 c.2) (fun e he => h e (by simp [he]))

/-- A list of stores to distinct addresses gives each address its byte. -/
theorem lookup_storeAll_of_mem (cs : List Host.Cell) (m : Memory) (c : Host.Cell) (hc : c ∈ cs)
    (hd : cs.Pairwise (fun c e => c.1 ≠ e.1)) : (m.storeAll cs).lookup c.1 = some c.2 := by
  induction cs generalizing m with
  | nil => cases hc
  | cons e cs ih =>
    obtain ⟨he, hd⟩ := List.pairwise_cons.mp hd
    rcases List.mem_cons.mp hc with rfl | hc
    · have := lookup_storeAll_of_not_mem cs (m.insert c.1 c.2) c.1 (fun f hf => (he f hf).symm)
      simpa [Memory.storeAll] using this
    · exact ih (m.insert e.1 e.2) hc hd

/-! ## The canonical form -/

/-- The addresses after listing a byte are those before and its own. -/
theorem mem_insert_addr {m : Memory} {b : Nat} {v : Byte} {c : Host.Cell} (h : c ∈ m.insert b v) : c.1 = b ∨ c ∈ m := by
  induction m with
  | nil => simp_all [Memory.insert]
  | cons e rest ih =>
    obtain ⟨a, u⟩ := e
    unfold Memory.insert at h
    split at h
    · rcases List.mem_cons.mp h with rfl | h <;> simp_all
    · split at h
      · rcases List.mem_cons.mp h with rfl | h <;> simp_all
      · rcases List.mem_cons.mp h with rfl | h
        · simp
        · rcases ih h with h | h <;> simp [h]

/-- Listing a byte inside MEM keeps the canonical form. -/
theorem wf_insert {m : Memory} {n b : Nat} {v : Byte} (h : Memory.wf m n) (hb : b < n) : Memory.wf (m.insert b v) n := by
  refine ⟨?_, fun c hc => (mem_insert_addr hc).elim (fun e => e ▸ hb) (h.2 c)⟩
  have hp := h.1
  clear h
  induction m with
  | nil => simp [Memory.insert]
  | cons e rest ih =>
    obtain ⟨a, u⟩ := e
    obtain ⟨ha, hr⟩ := List.pairwise_cons.mp hp
    unfold Memory.insert
    split
    · refine List.pairwise_cons.mpr ⟨fun c hc => ?_, hp⟩
      rcases List.mem_cons.mp hc with rfl | hc
      · assumption
      · exact lt_trans ‹b < a› (ha c hc)
    · split
      · subst_vars
        exact List.pairwise_cons.mpr ⟨ha, hr⟩
      · refine List.pairwise_cons.mpr ⟨fun c hc => ?_, ih hr⟩
        rcases mem_insert_addr hc with h | h
        · show a < c.1
          omega
        · exact ha c h

/-- A list of stores inside MEM keeps the canonical form. -/
theorem wf_storeAll {cs : List Host.Cell} {m : Memory} {n : Nat} (h : Memory.wf m n) (hc : ∀ c ∈ cs, c.1 < n) :
    Memory.wf (m.storeAll cs) n := by
  induction cs generalizing m with
  | nil => exact h
  | cons c cs ih => exact ih (wf_insert h (hc c (by simp))) (fun e he => hc e (by simp [he]))

/-- State.reset's MEM has the canonical form. -/
theorem wf_reset : Memory.wf State.reset.mem State.reset.params.memSize := by decide

end Sys2Proof.Laws
end

