-- ==== Sys2Proof/Laws/Ops.lean ====
section
/-!
SUPPORT. What the shared operations can do, said once: a check, the end of a command, and a command as its plan committed.
-/

namespace Sys2Proof.Laws

open Sys2Proof.Machine

/-! ## Checks -/

@[simp] theorem ensure_of {p : Prop} [Decidable p] (h : p) (c : ErrorCode) (a : Nat) : ensure p c a = .ok () := if_pos h

@[simp] theorem ensure_of_not {p : Prop} [Decidable p] (h : ¬p) (c : ErrorCode) (a : Nat) :
    ensure p c a = .error ⟨c, a⟩ := if_neg h

/-- A check passes exactly when its condition holds. -/
theorem ensure_ok_iff {p : Prop} [Decidable p] {c : ErrorCode} {a : Nat} {u : Unit} : ensure p c a = .ok u ↔ p := by
  by_cases h : p <;> simp [h]

/-- A check that raises gives its own error. -/
theorem ensure_error_iff {p : Prop} [Decidable p] {c : ErrorCode} {a : Nat} {e : CmdError} :
    ensure p c a = .error e ↔ ¬p ∧ e = ⟨c, a⟩ := by
  by_cases h : p <;> simp [h, eq_comm]

@[simp] theorem ok_bind {α β : Type} (a : α) (f : α → Except CmdError β) : (Except.ok a >>= f) = f a := rfl

@[simp] theorem error_bind {α β : Type} (e : CmdError) (f : α → Except CmdError β) : (Except.error e >>= f) = .error e := rfl

/-- A sequence of checks succeeds exactly when each part does. -/
theorem bind_ok_iff {α β : Type} {x : Except CmdError α} {f : α → Except CmdError β} {b : β} :
    (x >>= f) = .ok b ↔ ∃ a, x = .ok a ∧ f a = .ok b := by
  cases x <;> simp

/-- A sequence of checks raises the error of its first part that raises one. -/
theorem bind_error_iff {α β : Type} {x : Except CmdError α} {f : α → Except CmdError β} {e : CmdError} :
    (x >>= f) = .error e ↔ x = .error e ∨ ∃ a, x = .ok a ∧ f a = .error e := by
  cases x <;> simp

/-- The range check passes exactly when the view lies inside MEM (rule R64). -/
theorem rangeCheck_ok_iff {s : State} {v : View} {n k : Nat} {u : Unit} :
    rangeCheck s v n k = .ok u ↔ v.base + n ≤ s.params.memSize := by
  simp [rangeCheck, ensure_ok_iff]

/-- The bit-view check passes exactly when the view has at most 64 bits and lies inside MEM (rule R140). -/
theorem bvCheck_ok_iff {s : State} {v : View} {k : Nat} {u : Unit} :
    bvCheck s v k = .ok u ↔ v.size ≤ 64 ∧ v.base + v.nbytes ≤ s.params.memSize := by
  simp [bvCheck, bind_ok_iff, ensure_ok_iff, rangeCheck_ok_iff]

/-- A view of more than 64 bits raises VIEW_WIDTH first of all (rule R140). -/
theorem bvCheck_wide {s : State} {v : View} {k : Nat} (h : 64 < v.size) : bvCheck s v k = .error ⟨.viewWidth, k⟩ := by
  simp [bvCheck, Nat.not_le.mpr h]

/-- A view of at most 64 bits that is not inside MEM raises MEM_RANGE (rules R64, R140). -/
theorem bvCheck_outside {s : State} {v : View} {k : Nat} (h : v.size ≤ 64) (hm : s.params.memSize < v.base + v.nbytes) :
    bvCheck s v k = .error ⟨.memRange, k⟩ := by
  simp [bvCheck, rangeCheck, h, Nat.not_le.mpr hm]

/-- The index check of BGET and BSET (rules R112, R113). -/
theorem byteIndexCheck_ok_iff {s : State} {v : View} {i : Nat} {u : Unit} :
    byteIndexCheck s v i = .ok u ↔ v.base + v.size ≤ s.params.memSize ∧ i < v.size := by
  simp [byteIndexCheck, bind_ok_iff, ensure_ok_iff, rangeCheck_ok_iff]

/-- The index check of GETBIT and SETBIT (rules R141, R142). -/
theorem bitIndexCheck_ok_iff {s : State} {v : View} {i : Nat} {u : Unit} :
    bitIndexCheck s v i = .ok u ↔ (v.size ≤ 64 ∧ v.base + v.nbytes ≤ s.params.memSize) ∧ i < v.size := by
  simp [bitIndexCheck, bind_ok_iff, ensure_ok_iff, bvCheck_ok_iff]

/-- The check of LJV and RJV (rules R170, R171). -/
theorem bigEndianCheck_ok_iff {s : State} {v : View} {u : Unit} :
    bigEndianCheck s v = .ok u ↔ (v.size ≤ 64 ∧ v.base + v.nbytes ≤ s.params.memSize) ∧ v.order = .big := by
  simp [bigEndianCheck, bind_ok_iff, ensure_ok_iff, bvCheck_ok_iff]

/-- When two byte ranges share a byte (spec/44_packer.md). -/
theorem overlap_iff {a n b m : Nat} : overlap a n b m = true ↔ 0 < n ∧ 0 < m ∧ a < b + m ∧ b < a + n := by
  simp [overlap, and_assoc]

/-- The check of a string's destination (rules R190, R191). -/
theorem renderCheck_ok_iff {s : State} {dst src : View} {len n : Nat} {u : Unit} :
    renderCheck s dst len src n = .ok u ↔
      dst.base + dst.size ≤ s.params.memSize ∧ len ≤ dst.size ∧ overlap dst.base len src.base n = false := by
  simp [renderCheck, bind_ok_iff, ensure_ok_iff, rangeCheck_ok_iff]

/-- The checks of PACK's fields pass exactly when every field is a bit view inside MEM (rule R181). -/
theorem fieldChecks_ok_iff {s : State} {fs : List View} {j : Nat} {u : Unit} :
    fieldChecks s j fs = .ok u ↔ ∀ f ∈ fs, f.size ≤ 64 ∧ f.base + f.nbytes ≤ s.params.memSize := by
  induction fs generalizing j with
  | nil => simp [fieldChecks]
  | cons f fs ih => simp [fieldChecks, bind_ok_iff, bvCheck_ok_iff, ih]

/-- The overlap checks of PACK pass exactly when the destination shares no byte with a field (rule R181). -/
theorem fieldOverlapChecks_ok_iff {dst : View} {fs : List View} {j : Nat} {u : Unit} :
    fieldOverlapChecks dst j fs = .ok u ↔ ∀ f ∈ fs, overlap dst.base dst.size f.base f.nbytes = false := by
  induction fs generalizing j with
  | nil => simp [fieldOverlapChecks]
  | cons f fs ih => simp [fieldOverlapChecks, bind_ok_iff, ensure_ok_iff, ih]

/-- Everything PACK's CHECK phase asks, and the fields it gives (rule R181). -/
theorem packCheck_ok_iff {s : State} {dst : View} {ta k : Nat} {fs : List View} :
    packCheck s dst ta k = .ok fs ↔
      fs = tableFields s ta k ∧ dst.base + dst.size ≤ s.params.memSize ∧ ta + 4 * k ≤ s.params.memSize ∧
      (∀ f ∈ fs, f.size ≤ 64 ∧ f.base + f.nbytes ≤ s.params.memSize) ∧ dst.order = .big ∧ totalWidth fs = 8 * dst.size ∧
      overlap dst.base dst.size ta (4 * k) = false ∧ ∀ f ∈ fs, overlap dst.base dst.size f.base f.nbytes = false := by
  simp only [packCheck, bind_ok_iff, ensure_ok_iff, rangeCheck_ok_iff, fieldChecks_ok_iff, fieldOverlapChecks_ok_iff,
    pure, Except.pure, Except.ok.injEq, exists_and_left, exists_const]
  constructor
  · rintro ⟨h1, h2, h3, h4, h5, h6, h7, rfl⟩
    exact ⟨rfl, h1, h2, h3, h4, h5, h6, h7⟩
  · rintro ⟨rfl, h1, h2, h3, h4, h5, h6, h7⟩
    exact ⟨h1, h2, h3, h4, h5, h6, h7, rfl⟩

/-! ## The end of a command -/

/-- The number of every error is one of 1 to 13 (rule R203). -/
theorem number_range (c : ErrorCode) : 1 ≤ c.number.toNat ∧ c.number.toNat ≤ 13 := by
  cases c <;> decide

/-- A command whose CHECK phase raised ends by recording the error (rules R200, R201). -/
@[simp] theorem commit_error (i : Instr) (e : CmdError) (s : State) :
    commit i (.error e) s = .next (s.raiseError (encode i) e) := rfl

/-- Everything the end of a command can do: record an error, or apply an effect that lies inside MEM. -/
theorem commit_next {i : Instr} {p : Except CmdError Effect} {s t : State} (h : commit i p s = .next t) :
    (∃ e, p = .error e ∧ t = s.raiseError (encode i) e) ∨
      ∃ e, p = .ok e ∧ e.inside s.params.memSize = true ∧ t = s.applyEffect e := by
  cases p with
  | error e => exact .inl ⟨e, rfl, by simpa [commit, eq_comm] using h⟩
  | ok e =>
    simp only [commit] at h
    split at h
    · exact .inr ⟨e, rfl, ‹_›, by simpa [eq_comm] using h⟩
    · cases h

/-- An effect that stores nothing always lands. -/
theorem commit_setX (i : Instr) (r : XReg) (v : Data) (s : State) :
    commit i (.ok (.setX r v)) s = .next { s.writeX r v with busy := false } := by
  simp [commit, Effect.inside, Effect.setX, State.applyEffect, State.xAfter, Memory.storeAll, State.writeX]

/-- Stores inside MEM land in order, and nothing else changes. -/
theorem commit_store (i : Instr) (cs : List Host.Cell) (s : State) (h : ∀ c ∈ cs, c.1 < s.params.memSize) :
    commit i (.ok (.store cs)) s = .next { s with mem := s.mem.storeAll cs, busy := false } := by
  have h' : (Effect.store cs).inside s.params.memSize = true := by simpa [Effect.inside, Effect.store] using h
  rw [commit, if_pos h']
  rfl

/-- Every command is its plan, committed. -/
theorem exec_eq_commit (i : Instr) (s : State) : exec i s = commit i (plan i s) s := by
  cases i <;> rfl

end Sys2Proof.Laws
end

