-- ==== Sys2Proof/Laws/HostPort.lean ====
section
/-!
SUPPORT. What the host port can do, said once: which register a port word is, and what a step does with the host's next access.
-/

namespace Sys2Proof.Laws

open Sys2Proof.Machine

/-! ## The map (rule R29) -/

@[simp] theorem portReg_cmdPort : portReg cmdPort = .cmd := by decide
@[simp] theorem portReg_ctrlPort : portReg ctrlPort = .ctrl := by decide
@[simp] theorem portReg_descPort (r : DReg) : portReg (descPort r) = .desc r := by revert r; decide
@[simp] theorem portReg_xlowPort (r : XReg) : portReg (xlowPort r) = .xlow r := by revert r; decide
@[simp] theorem portReg_xhighPort (r : XReg) : portReg (xhighPort r) = .xhigh r := by revert r; decide

/-- The offsets from 0x80 up are reserved (rule R29). -/
theorem portReg_of_high {p : PortWord} (h : 32 ≤ p.toNat) : portReg p = .reserved := by
  have hne : ∀ k, k < 0x80 → ¬4 * p.toNat = k := by omega
  have h2 : ¬4 * p.toNat < 0x20 := by omega
  have h3 : ¬4 * p.toNat < 0x40 := by omega
  have h4 : ¬4 * p.toNat < 0x80 := by omega
  simp only [portReg, portOffset, hne, h2, h3, h4, if_false, Nat.reduceLT]

/-- A port word is CMD at one offset only (rule R29). -/
theorem eq_cmdPort_of_portReg {p : PortWord} (h : portReg p = .cmd) : p = cmdPort := by
  have small : ∀ n, n < 32 → portReg (BitVec.ofNat 14 n) = .cmd → n = 4 := by decide
  by_cases hlt : p.toNat < 32
  · exact BitVec.eq_of_toNat_eq (small p.toNat hlt (by simpa using h))
  · rw [portReg_of_high (by omega)] at h
    cases h

/-- A port word is CTRL at one offset only (rule R29). -/
theorem eq_ctrlPort_of_portReg {p : PortWord} (h : portReg p = .ctrl) : p = ctrlPort := by
  have small : ∀ n, n < 32 → portReg (BitVec.ofNat 14 n) = .ctrl → n = 2 := by decide
  by_cases hlt : p.toNat < 32
  · exact BitVec.eq_of_toNat_eq (small p.toNat hlt (by simpa using h))
  · rw [portReg_of_high (by omega)] at h
    cases h

/-! ## One access -/

/-- A read of a register answers its value and changes nothing else (rules R30 to R39, R73). -/
theorem step_readReg {s : State} {p : PortWord} {rest : List Move} (hb : s.busy = false)
    (hs : s.script = .readReg p :: rest) :
    step s = .next { s with reply := some (.word (s.readPort (portReg p))), script := rest } := by
  simp only [step, performNext, hs, perform]
  rw [if_neg (by simp [hb])]
  cases portReg p <;> rfl

/-- A write of a register is the write that rules R29 to R39 give it. -/
theorem step_writeReg {s : State} {p : PortWord} {v : Word} {rest : List Move} (hb : s.busy = false)
    (hs : s.script = .writeReg p v :: rest) : step s = writePort (portReg p) v { s with script := rest } := by
  simp only [step, performNext, hs, perform]
  rw [if_neg (by simp [hb])]

/-- Everything a write of CMD can do: be dropped, raise ILLEGAL, or execute a command (rules R34, R97, R202). -/
theorem issue_cases (w : Word) (s : State) :
    (s.err = true ∧ issue w s = .next s) ∨
      (s.err = false ∧ (∃ e, decode w = .error e) ∧
        issue w s = .next (s.accept.raiseError w { code := .illegal, arg := 0 })) ∨
      (s.err = false ∧ ∃ i, decode w = .ok i ∧ issue w s = exec i s.accept) := by
  unfold issue
  cases s.err with
  | true => exact .inl ⟨rfl, rfl⟩
  | false =>
    cases decode w with
    | error e => exact .inr (.inl ⟨rfl, ⟨e, rfl⟩, rfl⟩)
    | ok i => exact .inr (.inr ⟨rfl, i, rfl, rfl⟩)

/-- A soft reset sets every data register to 0 (rule R232). -/
@[simp] theorem readX_resetRegisters (s : State) (r : XReg) : s.resetRegisters.readX r = 0 := by
  simp [State.readX, State.resetRegisters]

/-- A soft reset sets every descriptor register to 0 (rule R232). -/
@[simp] theorem readD_resetRegisters (s : State) (r : DReg) : s.resetRegisters.readD r = 0 := by
  simp [State.readD, State.resetRegisters]

end Sys2Proof.Laws
end

