-- ==== Sys2Proof/Laws/Views.lean ====
section
/-!
SUPPORT. What the view functions can do (spec/20_memory.md rules R63 to R69), said once: where a logical byte lies, which bits a
raw value has, and what a view holds after WriteRaw or after a run of bytes was stored.
-/

namespace Sys2Proof.Laws

open Sys2Proof.Machine

/-! ## Where a logical byte lies -/

/-- A logical byte of a view lies inside its n bytes (rule R63). -/
theorem byteAddr_mem (v : View) {n i : Nat} (h : i < n) : v.base ≤ v.byteAddr n i ∧ v.byteAddr n i < v.base + n := by
  unfold View.byteAddr phys
  split <;> omega

/-- Two logical bytes of a view lie at different addresses (rule R63). -/
theorem byteAddr_inj (v : View) {n i j : Nat} (hi : i < n) (hj : j < n) : v.byteAddr n i = v.byteAddr n j ↔ i = j := by
  unfold View.byteAddr phys
  split <;> omega

/-- Every byte of a view is one of its logical bytes (rule R63). -/
theorem exists_byteAddr (v : View) {n a : Nat} (h : v.base ≤ a ∧ a < v.base + n) : ∃ i, i < n ∧ v.byteAddr n i = a := by
  cases ho : v.order with
  | little => exact ⟨a - v.base, by omega, by simp only [View.byteAddr, phys, ho]; omega⟩
  | big => exact ⟨n - 1 - (a - v.base), by omega, by simp only [View.byteAddr, phys, ho]; omega⟩

/-- N_bytes holds N_bits (rule R25). -/
theorem size_le_nbytes (v : View) : v.size ≤ 8 * v.nbytes := by
  simp only [View.nbytes, ceil8, Nat.shiftRight_eq_div_pow]
  omega

/-- N_bits and N_padding fill the N_bytes, and N_padding is at most 7 (rule R25). -/
theorem size_add_npadding (v : View) : v.size + v.npadding = 8 * v.nbytes ∧ v.npadding < 8 := by
  have := size_le_nbytes v
  simp only [View.npadding, View.nbytes, ceil8, Nat.shiftRight_eq_div_pow] at *
  omega

/-! ## Raw and logical values -/

/-- VRaw's sum over k bytes has 8k bits (rule R67). -/
theorem rawSum_lt (s : State) (v : View) (n k : Nat) : rawSum s v n k < 2 ^ (8 * k) := by
  induction k with
  | zero => simp [rawSum]
  | succ k ih =>
    have hb := (bvGet s v n k).isLt
    have hp : 2 ^ (8 * (k + 1)) = 256 * 2 ^ (8 * k) := by rw [Nat.mul_add, Nat.pow_add]; ring
    simp only [rawSum, Nat.shiftLeft_eq, hp]
    nlinarith

/-- The bits of VRaw's sum are the bits of the logical bytes (rule R67). -/
theorem testBit_rawSum (s : State) (v : View) (n k j : Nat) :
    (rawSum s v n k).testBit j = (decide (j < 8 * k) && s.rawBit v n j) := by
  induction k with
  | zero => simp [rawSum]
  | succ k ih =>
    rw [rawSum, Nat.shiftLeft_eq, Nat.add_comm, Nat.mul_comm, Nat.testBit_two_pow_mul_add _ (rawSum_lt s v n k), ih]
    by_cases h : j < 8 * k
    · have : j < 8 * (k + 1) := by omega
      simp [h, this]
    · by_cases h' : j < 8 * (k + 1)
      · have e1 : j / 8 = k := by omega
        have e2 : j - 8 * k = j % 8 := by omega
        simp [h, h', State.rawBit, e1, e2, BitVec.testBit_toNat]
      · have : 8 ≤ j - 8 * k := by omega
        simp [h, h', BitVec.testBit_toNat, BitVec.getLsbD_of_ge _ _ this]

/-- The bits of VRaw (rule R67). -/
theorem testBit_vRaw (s : State) (v : View) (j : Nat) :
    (vRaw s v).testBit j = (decide (j < 8 * v.nbytes) && s.rawBit v v.nbytes j) := testBit_rawSum ..

/-- VRaw has 8 * N_bytes bits (rule R67). -/
theorem vRaw_lt (s : State) (v : View) : vRaw s v < 2 ^ (8 * v.nbytes) := rawSum_lt ..

/-- The bits of VVal are the logical bits of the view (rule R68). -/
theorem testBit_vVal (s : State) (v : View) (j : Nat) :
    (vVal s v).testBit j = (decide (j < v.size) && s.rawBit v v.nbytes j) := by
  have := size_le_nbytes v
  simp only [vVal, Nat.testBit_mod_two_pow, testBit_vRaw]
  by_cases h : j < v.size
  · have : j < 8 * v.nbytes := by omega
    simp [h, this]
  · simp [h]

/-- VVal has N_bits bits (rule R68). -/
theorem vVal_lt (s : State) (v : View) : vVal s v < 2 ^ v.size := Nat.mod_lt _ (Nat.two_pow_pos _)

/-- VBit is the logical bit (rule R68). -/
theorem vBit_eq (s : State) (v : View) (i : Nat) : vBit s v i = (s.rawBit v v.nbytes i).toNat := by
  have h3 : i >>> 3 = i / 8 := Nat.shiftRight_eq_div_pow i 3
  rw [vBit, h3, Nat.and_one_is_mod, State.rawBit, Nat.shiftRight_eq_div_pow, ← Nat.toNat_testBit, BitVec.testBit_toNat]

/-- Equal logical bytes give equal raw values (rule R67). -/
theorem rawSum_congr {s t : State} {v w : View} {n m k : Nat} (h : ∀ i, i < k → bvGet t w m i = bvGet s v n i) :
    rawSum t w m k = rawSum s v n k := by
  induction k with
  | zero => rfl
  | succ k ih => rw [rawSum, rawSum, ih (fun i hi => h i (by omega)), h k (by omega)]

/-- A logical byte is its eight bits of VRaw (rules R67, R69). -/
theorem bvGet_eq_of_vRaw (s : State) (v : View) {i : Nat} (h : i < v.nbytes) :
    bvGet s v v.nbytes i = BitVec.ofNat 8 (vRaw s v >>> (8 * i)) := by
  apply BitVec.eq_of_getLsbD_eq
  intro j hj
  have e1 : (8 * i + j) / 8 = i := by omega
  have e2 : (8 * i + j) % 8 = j := by omega
  have e3 : 8 * i + j < 8 * v.nbytes := by omega
  rw [BitVec.getLsbD_ofNat, Nat.testBit_shiftRight, testBit_vRaw, State.rawBit, e1, e2]
  simp only [hj, e3, decide_true, Bool.true_and]

/-! ## After WriteRaw -/

/-- The stores of WriteRaw go to different addresses, all inside the view (rule R69). -/
theorem writeRaw_pairwise (v : View) (r : Nat) : (writeRaw v r).Pairwise (fun c e => c.1 ≠ e.1) := by
  refine List.pairwise_map.mpr (List.Pairwise.imp_of_mem ?_ List.nodup_range)
  intro i j hi hj hne heq
  exact hne ((byteAddr_inj v (List.mem_range.mp hi) (List.mem_range.mp hj)).mp heq)

/-- Every store of WriteRaw goes to a byte of the view (rule R69). -/
theorem writeRaw_addr {v : View} {r : Nat} {c : Host.Cell} (h : c ∈ writeRaw v r) :
    v.base ≤ c.1 ∧ c.1 < v.base + v.nbytes := by
  obtain ⟨i, hi, rfl⟩ := List.mem_map.mp h
  exact byteAddr_mem v (List.mem_range.mp hi)

/-- WriteRaw gives each logical byte its bits of r (rule R69). -/
theorem bvGet_writeRaw {s t : State} {v : View} {r i : Nat} (ht : t.mem = s.mem.storeAll (writeRaw v r)) (hi : i < v.nbytes) :
    bvGet t v v.nbytes i = BitVec.ofNat 8 (r >>> (8 * i)) := by
  have hc : bvSet v v.nbytes i (BitVec.ofNat 8 (r >>> (8 * i))) ∈ writeRaw v r :=
    List.mem_map.mpr ⟨i, List.mem_range.mpr hi, rfl⟩
  have := lookup_storeAll_of_mem _ s.mem _ hc (writeRaw_pairwise v r)
  simp only [bvSet] at this
  simp [bvGet, State.readByte, ht, this]

/-- After WriteRaw of r the view's raw value is r (rules R67, R69). -/
theorem vRaw_writeRaw {s t : State} {v : View} {r : Nat} (ht : t.mem = s.mem.storeAll (writeRaw v r))
    (hr : r < 2 ^ (8 * v.nbytes)) : vRaw t v = r := by
  apply Nat.eq_of_testBit_eq
  intro j
  rw [testBit_vRaw]
  by_cases h : j < 8 * v.nbytes
  · have hj : j / 8 < v.nbytes := by omega
    have e : 8 * (j / 8) + j % 8 = j := by omega
    have hm : j % 8 < 8 := by omega
    rw [State.rawBit, bvGet_writeRaw ht hj, BitVec.getLsbD_ofNat, Nat.testBit_shiftRight, e]
    simp only [h, hm, decide_true, Bool.true_and]
  · have : r < 2 ^ j := lt_of_lt_of_le hr (Nat.pow_le_pow_right (by omega) (by omega))
    simp [h, Nat.testBit_lt_two_pow this]

/-- Stores leave every byte they do not name as it was. -/
theorem readByte_storeAll_of_not_mem {s t : State} {cs : List Host.Cell} {a : Nat} (ht : t.mem = s.mem.storeAll cs)
    (hd : t.memDraw = s.memDraw) (h : ∀ c ∈ cs, c.1 ≠ a) : t.readByte a = s.readByte a := by
  simp only [State.readByte, State.unlistedByte, ht, hd, lookup_storeAll_of_not_mem cs s.mem a h]

/-- WriteRaw leaves every byte outside the view as it was (rule R69). -/
theorem sameOutside_writeRaw {s t : State} {v : View} {r : Nat} (ht : t.mem = s.mem.storeAll (writeRaw v r))
    (hd : t.memDraw = s.memDraw) : s.SameOutside t v.base v.nbytes := fun _ ha =>
  readByte_storeAll_of_not_mem ht hd (fun _ hc e => ha (e ▸ writeRaw_addr hc))

/-- WriteRaw to a view inside MEM lands whole (rules R64, R69). -/
theorem commit_writeRaw (i : Instr) {s : State} {v : View} {r : Nat} (h : s.HasBytes v v.nbytes) :
    commit i (.ok (.store (writeRaw v r))) s = .next { s with mem := s.mem.storeAll (writeRaw v r), busy := false } :=
  commit_store _ _ _ (fun _ hc => lt_of_lt_of_le (writeRaw_addr hc).2 h)

/-! ## After a run of bytes was stored -/

/-- The stores of a run of bytes go to increasing addresses from its base. -/
theorem storesFrom_addr {base : Nat} {bs : List Byte} {c : Host.Cell} (h : c ∈ storesFrom base bs) :
    base ≤ c.1 ∧ c.1 < base + bs.length := by
  induction bs generalizing base with
  | nil => cases h
  | cons b bs ih =>
    rcases List.mem_cons.mp h with rfl | h
    · simp
    · have := ih h
      simp only [List.length_cons]
      omega

/-- A run of bytes inside MEM lands whole. -/
theorem commit_storesFrom (i : Instr) {s : State} {base n : Nat} {bs : List Byte} (hl : bs.length ≤ n)
    (h : base + n ≤ s.params.memSize) :
    commit i (.ok (.store (storesFrom base bs))) s =
      .next { s with mem := s.mem.storeAll (storesFrom base bs), busy := false } :=
  commit_store _ _ _ (fun _ hc => lt_of_lt_of_le (storesFrom_addr hc).2 (by omega))

/-- The stores of a run of bytes go to different addresses. -/
theorem storesFrom_pairwise (base : Nat) (bs : List Byte) : (storesFrom base bs).Pairwise (fun c e => c.1 ≠ e.1) := by
  induction bs generalizing base with
  | nil => exact List.Pairwise.nil
  | cons b bs ih =>
    refine List.pairwise_cons.mpr ⟨fun c hc => ?_, ih _⟩
    have := storesFrom_addr hc
    show base ≠ c.1
    omega

/-- A run of bytes has its byte k at base + k among its stores. -/
theorem mem_storesFrom {base : Nat} {bs : List Byte} {k : Nat} (h : k < bs.length) :
    (base + k, bs[k]) ∈ storesFrom base bs := by
  induction bs generalizing base k with
  | nil => cases h
  | cons b bs ih =>
    cases k with
    | zero => simp [storesFrom]
    | succ k =>
      have := ih (base := base + 1) (k := k) (by simpa using h)
      rw [show base + (k + 1) = base + 1 + k by omega]
      exact List.mem_cons_of_mem _ this

/-- After a run of bytes was stored, byte k stands at base + k. -/
theorem readByte_storesFrom {s t : State} {base : Nat} {bs : List Byte} {k : Nat}
    (ht : t.mem = s.mem.storeAll (storesFrom base bs)) (h : k < bs.length) : t.readByte (base + k) = bs[k] := by
  have := lookup_storeAll_of_mem _ s.mem _ (mem_storesFrom (base := base) h) (storesFrom_pairwise base bs)
  simp [State.readByte, ht, this]

/-- After a run of bytes was stored, every byte outside it is as it was. -/
theorem sameOutside_storesFrom {s t : State} {base : Nat} {bs : List Byte}
    (ht : t.mem = s.mem.storeAll (storesFrom base bs)) (hd : t.memDraw = s.memDraw) :
    s.SameOutside t base bs.length := fun _ ha =>
  readByte_storeAll_of_not_mem ht hd (fun _ hc e => ha (e ▸ storesFrom_addr hc))

end Sys2Proof.Laws
end

