-- ==== Sys2Proof/Laws/Packing.lean ====
section
/-!
SUPPORT. The concatenation of PACK (spec/44_packer.md rule R182) and sign extension (spec/00_scope.md rule R12), said once: how
many bits they have and which.
-/

namespace Sys2Proof.Laws

open Sys2Proof.Machine

/-! ## Concatenation -/

@[simp] theorem totalWidth_cons (f : View) (fs : List View) : totalWidth (f :: fs) = f.size + totalWidth fs := by
  simp [totalWidth]

@[simp] theorem totalWidth_append (fs gs : List View) : totalWidth (fs ++ gs) = totalWidth fs + totalWidth gs := by
  simp [totalWidth]

/-- Going on with the concatenation from a value c appends the fields to it (rule R182). -/
theorem packValue_from (s : State) (fs : List View) (c : Nat) :
    fs.foldl (fun c f => (c <<< f.size) ||| vVal s f) c = c * 2 ^ totalWidth fs + packValue s fs := by
  induction fs generalizing c with
  | nil => simp [packValue, totalWidth]
  | cons f fs ih =>
    have hlt := vVal_lt s f
    simp only [List.foldl, packValue]
    rw [ih, ih (0 <<< f.size ||| vVal s f), ← Nat.shiftLeft_add_eq_or_of_lt hlt, ← Nat.shiftLeft_add_eq_or_of_lt hlt,
      Nat.shiftLeft_eq, totalWidth_cons, Nat.pow_add]
    simp
    ring

/-- The first field stands at the top (rule R182). -/
theorem packValue_cons (s : State) (f : View) (fs : List View) :
    packValue s (f :: fs) = vVal s f * 2 ^ totalWidth fs + packValue s fs := by
  rw [← packValue_from s fs (vVal s f)]
  simp [packValue]

/-- The concatenation of fields has as many bits as they have together (rule R182). -/
theorem packValue_lt (s : State) (fs : List View) : packValue s fs < 2 ^ totalWidth fs := by
  induction fs with
  | nil => simp [packValue, totalWidth]
  | cons f fs ih =>
    have hlt := vVal_lt s f
    rw [packValue_cons, totalWidth_cons, Nat.pow_add]
    nlinarith [Nat.two_pow_pos (totalWidth fs)]

/-- Two lists of fields one after the other (rule R182). -/
theorem packValue_append (s : State) (fs gs : List View) :
    packValue s (fs ++ gs) = packValue s fs * 2 ^ totalWidth gs + packValue s gs := by
  rw [packValue, List.foldl_append, packValue_from]
  rfl

/-! ## Sign extension -/

/-- sext_{n->64} of an n-bit value repeats bit n - 1 above it (rule R12). -/
theorem getLsbD_sext64 {n p j : Nat} (hp : p < 2 ^ n) (hn : n ≤ 64) (hj : j < 64) :
    (sext64 n p).getLsbD j = if j < n then p.testBit j else decide (0 < n) && p.testBit (n - 1) := by
  have high : n ≤ j → p.testBit j = false := fun h =>
    Nat.testBit_lt_two_pow (lt_of_lt_of_le hp (Nat.pow_le_pow_right (by decide) h))
  unfold sext64 sint
  by_cases h0 : n = 0
  · simp [h0]
  · by_cases hb : p.testBit (n - 1) = true
    · have hpow : 2 ^ 64 = 2 ^ n * 2 ^ (64 - n) := by
        rw [← Nat.pow_add]
        congr 1
        omega
      have e : BitVec.ofInt 64 ((p : Int) - 2 ^ n) = BitVec.ofNat 64 (2 ^ n * (2 ^ (64 - n) - 1) + p) := by
        have h2 : 2 ^ n ≤ 2 ^ 64 := Nat.pow_le_pow_right (by decide) hn
        have : ((2 ^ n * (2 ^ (64 - n) - 1) + p : Nat) : Int) = ((p : Int) - 2 ^ n) + 2 ^ 64 := by
          rw [Nat.mul_sub, ← hpow, Nat.mul_one, Nat.cast_add, Nat.cast_sub h2]
          push_cast
          ring
        rw [← BitVec.ofInt_natCast, this]
        apply BitVec.eq_of_toInt_eq
        rw [BitVec.toInt_ofInt, BitVec.toInt_ofInt]
        exact (Int.add_mul_bmod_self_right _ 1 (2 ^ 64)).symm ▸ by simp
      simp only [h0, hb, if_true, if_false]
      rw [e, BitVec.getLsbD_ofNat, Nat.testBit_two_pow_mul_add _ hp, Nat.testBit_two_pow_sub_one]
      by_cases hjn : j < n
      · simp [hjn, hj]
      · simp [hjn, hj]
        omega
    · simp only [h0, hb, if_false, Bool.false_eq_true]
      rw [BitVec.ofInt_natCast, BitVec.getLsbD_ofNat]
      by_cases hjn : j < n
      · simp [hjn, hj]
      · simp [hjn, high (by omega)]

end Sys2Proof.Laws
end

