-- ==== Sys2Proof/Laws/PerInstr.lean ====
section
/-!
SUPPORT. One law for all commands, proved command by command: the encoding of a well-formed command fits the row of its own
opcode (spec/30_encoding.md rules R89, R98).
-/

namespace Sys2Proof.Laws

/-- The opcode of a command, as the opcode map has it (rule R89). -/
def opcodeOf : Instr → Nat
  | .bsize _ _ => 0x01
  | .bget _ _ _ => 0x02
  | .bset _ _ _ => 0x03
  | .mask _ _ _ _ => 0x08
  | .lji _ _ _ _ => 0x09
  | .rji _ _ _ _ => 0x0A
  | .csize _ _ => 0x0B
  | .getbit _ _ _ => 0x10
  | .setbit _ _ _ => 0x11
  | .conv _ _ _ => 0x12
  | .fromint _ _ => 0x13
  | .neg _ => 0x14
  | .ival _ _ _ _ _ => 0x15
  | .ljv _ => 0x18
  | .rjv _ => 0x19
  | .pack _ _ _ => 0x20
  | .strb _ _ => 0x28
  | .strh _ _ => 0x29

/-- A row of the opcode map, of a given opcode, that a word fits. -/
def FitsRowOf (op : Nat) (w : Word) : Prop := ∃ r ∈ opcodeMap, opField r.pattern = op ∧ r.fits w = true

/-- A word fits the row at a place of the map, when the number it is made from gives the row's match under the row's mask. -/
theorem fitsRowOf_of {op n : Nat} (mask pattern : Nat) (k : Nat) (hk : k < opcodeMap.length)
    (ho : opField opcodeMap[k].pattern = op) (hm : opcodeMap[k].mask.toNat = mask)
    (hp : opcodeMap[k].pattern.toNat = pattern) (h : n &&& mask = pattern) : FitsRowOf op (BitVec.ofNat 32 n) :=
  ⟨opcodeMap[k], List.getElem_mem hk, ho, by
    simpa [OpcodeRow.fits] using ofNat_and_eq (n := n) (mask := opcodeMap[k].mask) (pattern := opcodeMap[k].pattern)
      (by rw [hm, hp, h])⟩

/-- A 3-bit field under a mask that is 0 there is masked away. -/
theorem reg_masked {sh mask : Nat} (h : ∀ r : Fin 8, r.val <<< sh &&& mask = 0) (r : Fin 8) : r.val <<< sh &&& mask = 0 := h r

/-- A 7-bit field under a mask that is 0 there is masked away. -/
theorem imm_masked {sh mask n : Nat} (h : ∀ r : Fin 128, r.val <<< sh &&& mask = 0) (hn : n < 128) : n <<< sh &&& mask = 0 :=
  h ⟨n, hn⟩

/-- A width code under a mask that is 0 there is masked away. -/
theorem code_masked {sh mask : Nat} (h : ∀ r : Fin 4, r.val <<< sh &&& mask = 0) (w : IntWidth) : w.code <<< sh &&& mask = 0 :=
  h ⟨w.code, code_lt w⟩

/-- A signedness bit under a mask that is 0 there is masked away. -/
theorem sign_masked {sh mask : Nat} (h : ∀ r : Fin 2, r.val <<< sh &&& mask = 0) (t : IntType) :
    t.signCode <<< sh &&& mask = 0 := h ⟨t.signCode, signCode_lt t⟩

namespace FitsItsRow

/-- The encoding of a well-formed command fits the row of its own opcode (rules R89, R98). -/
def Statement (i : Instr) : Prop := i.wellFormed = true → FitsRowOf (opcodeOf i) (encode i)

theorem bsize (rd : XReg) (ds : DReg) : Statement (.bsize rd ds) := by
  intro _
  refine fitsRowOf_of 0xFFFFF03F 0x00000001 0 (by decide) rfl rfl rfl ?_
  simp only [Nat.and_or_distrib_right,
    reg_masked (sh := 6) (mask := 0xFFFFF03F) (by decide) rd,
    reg_masked (sh := 9) (mask := 0xFFFFF03F) (by decide) ds]
  rfl

theorem bget (rd : XReg) (ds : DReg) (rs : XReg) : Statement (.bget rd ds rs) := by
  intro _
  refine fitsRowOf_of 0xFFFF803F 0x00000002 1 (by decide) rfl rfl rfl ?_
  simp only [Nat.and_or_distrib_right,
    reg_masked (sh := 6) (mask := 0xFFFF803F) (by decide) rd,
    reg_masked (sh := 9) (mask := 0xFFFF803F) (by decide) ds,
    reg_masked (sh := 12) (mask := 0xFFFF803F) (by decide) rs]
  rfl

theorem bset (ds : DReg) (rs rt : XReg) : Statement (.bset ds rs rt) := by
  intro _
  refine fitsRowOf_of 0xFFFC01FF 0x00000003 2 (by decide) rfl rfl rfl ?_
  simp only [Nat.and_or_distrib_right,
    reg_masked (sh := 9) (mask := 0xFFFC01FF) (by decide) ds,
    reg_masked (sh := 12) (mask := 0xFFFC01FF) (by decide) rs,
    reg_masked (sh := 15) (mask := 0xFFFC01FF) (by decide) rt]
  rfl

theorem mask (rd : XReg) (l m r : Nat) : Statement (.mask rd l m r) := by
  intro h
  obtain ⟨hl, hm, hr⟩ : l < 128 ∧ m < 128 ∧ r < 128 := by simpa [Instr.wellFormed, and_assoc] using h
  refine fitsRowOf_of 0xC000003F 0x00000008 3 (by decide) rfl rfl rfl ?_
  simp only [Nat.and_or_distrib_right,
    reg_masked (sh := 6) (mask := 0xC000003F) (by decide) rd,
    imm_masked (sh := 9) (mask := 0xC000003F) (by decide) hl,
    imm_masked (sh := 16) (mask := 0xC000003F) (by decide) hm,
    imm_masked (sh := 23) (mask := 0xC000003F) (by decide) hr]
  rfl

theorem lji (rd rs : XReg) (w : IntWidth) (n : Nat) : Statement (.lji rd rs w n) := by
  intro h
  have hn : n < 128 := by simpa [Instr.wellFormed] using h
  refine fitsRowOf_of 0xFF000E3F 0x00000009 4 (by decide) rfl rfl rfl ?_
  simp only [Nat.and_or_distrib_right,
    reg_masked (sh := 6) (mask := 0xFF000E3F) (by decide) rd,
    reg_masked (sh := 12) (mask := 0xFF000E3F) (by decide) rs,
    code_masked (sh := 15) (mask := 0xFF000E3F) (by decide) w,
    imm_masked (sh := 17) (mask := 0xFF000E3F) (by decide) hn]
  rfl

theorem rji (rd rs : XReg) (w : IntWidth) (n : Nat) : Statement (.rji rd rs w n) := by
  intro h
  have hn : n < 128 := by simpa [Instr.wellFormed] using h
  refine fitsRowOf_of 0xFF000E3F 0x0000000A 5 (by decide) rfl rfl rfl ?_
  simp only [Nat.and_or_distrib_right,
    reg_masked (sh := 6) (mask := 0xFF000E3F) (by decide) rd,
    reg_masked (sh := 12) (mask := 0xFF000E3F) (by decide) rs,
    code_masked (sh := 15) (mask := 0xFF000E3F) (by decide) w,
    imm_masked (sh := 17) (mask := 0xFF000E3F) (by decide) hn]
  rfl

theorem csize (rd rs : XReg) : Statement (.csize rd rs) := by
  intro _
  refine fitsRowOf_of 0xFFFF8E3F 0x0000000B 6 (by decide) rfl rfl rfl ?_
  simp only [Nat.and_or_distrib_right,
    reg_masked (sh := 6) (mask := 0xFFFF8E3F) (by decide) rd,
    reg_masked (sh := 12) (mask := 0xFFFF8E3F) (by decide) rs]
  rfl

theorem getbit (rd : XReg) (ds : DReg) (rs : XReg) : Statement (.getbit rd ds rs) := by
  intro _
  refine fitsRowOf_of 0xFFFF803F 0x00000010 7 (by decide) rfl rfl rfl ?_
  simp only [Nat.and_or_distrib_right,
    reg_masked (sh := 6) (mask := 0xFFFF803F) (by decide) rd,
    reg_masked (sh := 9) (mask := 0xFFFF803F) (by decide) ds,
    reg_masked (sh := 12) (mask := 0xFFFF803F) (by decide) rs]
  rfl

theorem setbit (ds : DReg) (rs rt : XReg) : Statement (.setbit ds rs rt) := by
  intro _
  refine fitsRowOf_of 0xFFFC01FF 0x00000011 8 (by decide) rfl rfl rfl ?_
  simp only [Nat.and_or_distrib_right,
    reg_masked (sh := 9) (mask := 0xFFFC01FF) (by decide) ds,
    reg_masked (sh := 12) (mask := 0xFFFC01FF) (by decide) rs,
    reg_masked (sh := 15) (mask := 0xFFFC01FF) (by decide) rt]
  rfl

theorem conv (rd : XReg) (ds : DReg) (t : IntType) : Statement (.conv rd ds t) := by
  intro _
  refine fitsRowOf_of 0xFFFF803F 0x00000012 9 (by decide) rfl rfl rfl ?_
  simp only [Nat.and_or_distrib_right,
    reg_masked (sh := 6) (mask := 0xFFFF803F) (by decide) rd,
    reg_masked (sh := 9) (mask := 0xFFFF803F) (by decide) ds,
    code_masked (sh := 12) (mask := 0xFFFF803F) (by decide) t.width,
    sign_masked (sh := 14) (mask := 0xFFFF803F) (by decide) t]
  rfl

theorem fromint (ds : DReg) (rs : XReg) : Statement (.fromint ds rs) := by
  intro _
  refine fitsRowOf_of 0xFFFF81FF 0x00000013 10 (by decide) rfl rfl rfl ?_
  simp only [Nat.and_or_distrib_right,
    reg_masked (sh := 9) (mask := 0xFFFF81FF) (by decide) ds,
    reg_masked (sh := 12) (mask := 0xFFFF81FF) (by decide) rs]
  rfl

theorem neg (ds : DReg) : Statement (.neg ds) := by
  intro _
  refine fitsRowOf_of 0xFFFFF1FF 0x00000014 11 (by decide) rfl rfl rfl ?_
  simp only [Nat.and_or_distrib_right,
    reg_masked (sh := 9) (mask := 0xFFFFF1FF) (by decide) ds]
  rfl

theorem ival (rd : XReg) (ds : DReg) (t : IntType) (len off : Nat) : Statement (.ival rd ds t len off) := by
  intro h
  obtain ⟨hlen, hoff⟩ : len < 128 ∧ off < 128 := by simpa [Instr.wellFormed] using h
  refine fitsRowOf_of 0xE000003F 0x00000015 12 (by decide) rfl rfl rfl ?_
  simp only [Nat.and_or_distrib_right,
    reg_masked (sh := 6) (mask := 0xE000003F) (by decide) rd,
    reg_masked (sh := 9) (mask := 0xE000003F) (by decide) ds,
    code_masked (sh := 12) (mask := 0xE000003F) (by decide) t.width,
    sign_masked (sh := 14) (mask := 0xE000003F) (by decide) t,
    imm_masked (sh := 15) (mask := 0xE000003F) (by decide) hlen,
    imm_masked (sh := 22) (mask := 0xE000003F) (by decide) hoff]
  rfl

theorem ljv (ds : DReg) : Statement (.ljv ds) := by
  intro _
  refine fitsRowOf_of 0xFFFFF1FF 0x00000018 13 (by decide) rfl rfl rfl ?_
  simp only [Nat.and_or_distrib_right,
    reg_masked (sh := 9) (mask := 0xFFFFF1FF) (by decide) ds]
  rfl

theorem rjv (ds : DReg) : Statement (.rjv ds) := by
  intro _
  refine fitsRowOf_of 0xFFFFF1FF 0x00000019 14 (by decide) rfl rfl rfl ?_
  simp only [Nat.and_or_distrib_right,
    reg_masked (sh := 9) (mask := 0xFFFFF1FF) (by decide) ds]
  rfl

theorem pack (dd : DReg) (rs rt : XReg) : Statement (.pack dd rs rt) := by
  intro _
  refine fitsRowOf_of 0xFFE00FFF 0x00000020 15 (by decide) rfl rfl rfl ?_
  simp only [Nat.and_or_distrib_right,
    reg_masked (sh := 12) (mask := 0xFFE00FFF) (by decide) rs,
    reg_masked (sh := 15) (mask := 0xFFE00FFF) (by decide) rt,
    reg_masked (sh := 18) (mask := 0xFFE00FFF) (by decide) dd]
  rfl

theorem strb (dd ds : DReg) : Statement (.strb dd ds) := by
  intro _
  refine fitsRowOf_of 0xFFE3F1FF 0x00000028 16 (by decide) rfl rfl rfl ?_
  simp only [Nat.and_or_distrib_right,
    reg_masked (sh := 9) (mask := 0xFFE3F1FF) (by decide) ds,
    reg_masked (sh := 18) (mask := 0xFFE3F1FF) (by decide) dd]
  rfl

theorem strh (dd ds : DReg) : Statement (.strh dd ds) := by
  intro _
  refine fitsRowOf_of 0xFFE3F1FF 0x00000029 17 (by decide) rfl rfl rfl ?_
  simp only [Nat.and_or_distrib_right,
    reg_masked (sh := 9) (mask := 0xFFE3F1FF) (by decide) ds,
    reg_masked (sh := 18) (mask := 0xFFE3F1FF) (by decide) dd]
  rfl

end FitsItsRow

end Sys2Proof.Laws
end

