-- ==== Sys2Proof/Tests/Slice0.lean ====
section
/-!
SUPPORT. Small tests, each by the kernel's own evaluation: the words and results of the spec's examples (rules R111 to R191 and
spec/95_test_vectors.md), the ill-formed commands, and a witness of the hypotheses of each statement that has some.
-/

namespace Sys2Proof.Tests

open Sys2Proof.Machine

/-! ## Decoding: the words of the rules' examples -/

/-- Rule R89's pattern of BGET, 00000000000000000aaasssddd000010, bit by bit: RS = 3, DS = 2, RD = 1. -/
theorem test_decode_bget_bits : decode 0b00000000000000000011010001000010 = .ok (.bget 1 2 3) := by decide

/-- Rule R89's pattern of LJI, 00000000nnnnnnnwwaaa000ddd001001: N = 3, W = 0, RS = 2, RD = 1. -/
theorem test_decode_lji_bits : decode 0b00000000000001100010000001001001 = .ok (.lji 1 2 .w8 3) := by decide

/-- Rule R89's pattern of IVAL, 000ooooooolllllllgwwsssddd010101: OFF = 3, LEN = 7, S = 1, W = 1, DS = 1, RD = 2. -/
theorem test_decode_ival_bits : decode 0b00000000110000111101001010010101 = .ok (.ival 2 1 ⟨.w16, true⟩ 7 3) := by decide

/-- Rule R89's pattern of LJV, 00000000000000000000sss000011000: DS = 5. -/
theorem test_decode_ljv_bits : decode 0b00000000000000000000101000011000 = .ok (.ljv 5) := by decide

/-- Rule R89's pattern of PACK, 00000000000eeebbbaaa000000100000: DD = 5, RT = 4, RS = 3. -/
theorem test_decode_pack_bits : decode 0b00000000000101100011000000100000 = .ok (.pack 5 3 4) := by decide

/-- Rule R89's pattern of STRH, 00000000000eee000000sss000101001: DD = 2, DS = 3. -/
theorem test_decode_strh_bits : decode 0b00000000000010000000011000101001 = .ok (.strh 2 3) := by decide

theorem test_decode_byte_view : decode 0x00000441 = .ok (.bsize 1 2) ∧ decode 0x00003442 = .ok (.bget 1 2 3) ∧
    decode 0x00023403 = .ok (.bset 2 3 4) := by decide

theorem test_decode_primitives : decode 0x02030248 = .ok (.mask 1 1 3 4) ∧ decode 0x00062049 = .ok (.lji 1 2 .w8 3) ∧
    decode 0x0006204A = .ok (.rji 1 2 .w8 3) ∧ decode 0x0000204B = .ok (.csize 1 2) := by decide

theorem test_decode_bit_view : decode 0x00002250 = .ok (.getbit 1 1 2) ∧ decode 0x0001A211 = .ok (.setbit 1 2 3) ∧
    decode 0x00005252 = .ok (.conv 1 1 ⟨.w16, true⟩) ∧ decode 0x00002213 = .ok (.fromint 1 2) ∧
    decode 0x00000214 = .ok (.neg 1) ∧ decode 0x00C39295 = .ok (.ival 2 1 ⟨.w16, false⟩ 7 3) := by decide

theorem test_decode_rest : decode 0x00000218 = .ok (.ljv 1) ∧ decode 0x00000219 = .ok (.rjv 1) ∧
    decode 0x00163020 = .ok (.pack 5 3 4) ∧ decode 0x00080228 = .ok (.strb 2 1) ∧ decode 0x00080629 = .ok (.strh 2 3) := by
  decide

theorem test_encode : encode (.bset 2 3 4) = 0x00023403 ∧ encode (.mask 1 1 3 4) = 0x02030248 ∧
    encode (.rji 1 2 .w8 3) = 0x0006204A ∧ encode (.ival 1 1 ⟨.w16, false⟩ 4 8) = 0x02021255 ∧
    encode (.pack 5 3 4) = 0x00163020 ∧ encode (.strb 2 1) = 0x00080228 := by decide

/-- Rules R90, R91: the all-zero word, a reserved opcode, and a 1 in an unused field. -/
theorem test_decode_refuses : decode 0 = .error .reservedOpcode ∧ decode 0x0000003F = .error .reservedOpcode ∧
    decode 0x00001441 = .error .reservedBits ∧ decode 0x82030248 = .error .reservedBits := by decide

theorem test_decodeTableWord : decodeTableWord 32 0x00000441 = some (.bsize 1 2) ∧ decodeTableWord 32 0 = none := by decide

/-- Rule R11: a slice of one bit, and an empty slice, whose high end is below its low end. -/
theorem test_wordBits : wordBits 0xFFFFFFFF 5 5 = 1 ∧ wordBits 0xFFFFFFFF 4 5 = 0 ∧ wordBits 0xFFFFFFFF 0 31 = 0 := by decide

/-! ## Well-formedness: an ill-formed command for each check -/

theorem test_illFormed_mask : (Instr.mask 0 128 0 0).wellFormed = false ∧ (Instr.mask 0 0 128 0).wellFormed = false ∧
    (Instr.mask 0 0 0 128).wellFormed = false ∧ (Instr.mask 0 127 127 127).wellFormed = true := by decide

theorem test_illFormed_justify : (Instr.lji 0 0 .w8 128).wellFormed = false ∧ (Instr.rji 0 0 .w8 128).wellFormed = false ∧
    (Instr.lji 0 0 .w8 127).wellFormed = true ∧ (Instr.rji 0 0 .w8 127).wellFormed = true := by decide

theorem test_illFormed_ival : (Instr.ival 0 0 ⟨.w8, true⟩ 128 0).wellFormed = false ∧
    (Instr.ival 0 0 ⟨.w8, true⟩ 0 128).wellFormed = false ∧ (Instr.ival 0 0 ⟨.w8, true⟩ 127 127).wellFormed = true := by decide

/-! ## Small states -/

/-- The state s with a descriptor register written by the host (rule R96). -/
def withD (s : State) (r : DReg) (base size : Nat) (o : ByteOrder) : State := s.writeD r ((descWord base size o).setWidth 30)

/-- The state s with bytes written by the host at an address and up (rule R96). -/
def withBytes (s : State) (a : Nat) (bs : List Byte) : State := { s with mem := s.mem.storeAll (storesFrom a bs) }

/-- The state s with an error recorded. -/
def erred (s : State) : State := s.withError 0x00003442 8 3

/-- The state s with one move of the host or the platform left. -/
def move (s : State) (m : Move) : State := { s with script := [m] }

/-- The data registers of the bench. -/
def benchX : State :=
  ((((((State.reset.writeX 1 5).writeX 2 12).writeX 3 0x300).writeX 4 4).writeX 5 0xFFFFFFFFFFFFFFFF).writeX 6 2).writeX 7
    0xFFFFFFFFFFFFFFFB

/-- The descriptor registers of the bench: D0 the last byte of MEM, D1 the 12-bit view of the examples, D2 three bytes, D3 as D1
but little-endian, D4 a string's destination, D5 PACK's destination, D6 two bytes past the end of MEM, D7 a view of 65 bits. -/
def benchD : State :=
  withD (withD (withD (withD (withD (withD (withD (withD benchX 0 0xFFFF 1 .little) 1 0x100 12 .big) 2 0x100 3 .big) 3 0x100 12
    .little) 4 0x180 12 .little) 5 0x400 2 .big) 6 0xFFFF 2 .little) 7 0x100 65 .big

/-- A small state: the example of rule R186 in MEM, and three bytes at 0x100. -/
def bench : State :=
  withBytes (withBytes (withBytes benchD 0x100 [0x06, 0x71, 0x33]) 0x200 [0x02, 0xBE, 0x05, 0x06]) 0x300
    [0x00, 0x02, 0x02, 0x20, 0x01, 0x02, 0x08, 0x20, 0x02, 0x02, 0x03, 0x20, 0x03, 0x02, 0x03, 0x20]

/-- The bench with other bytes at 0x100. -/
def bench2 (b0 b1 : Byte) : State := withBytes bench 0x100 [b0, b1]

/-- The next state of an outcome. -/
def after (o : Host.Outcome State Fault Refusal) : Option State :=
  match o with
  | .next t => some t
  | .fault _ => none
  | .refused _ => none

/-- A data register after a command. -/
def xAfter (i : Instr) (s : State) (r : XReg) : Option Data := (after (exec i s)).map (fun t => t.readX r)

/-- The byte listed at an address after a command. -/
def byteAfter (i : Instr) (s : State) (a : Nat) : Option Byte := (after (exec i s)).bind (fun t => Memory.lookup t.mem a)

/-- The error registers after a command: ERR, ERRCODE, ERRINFO, ERRARG. -/
def errAfter (i : Instr) (s : State) : Option (Bool × BitVec 8 × Word × Word) :=
  (after (exec i s)).map (fun t => (t.err, t.errcode, t.errinfo, t.errarg))

/-! ## One command each: the examples of the rules -/

theorem test_bsize : xAfter (.bsize 1 2) bench 1 = some 3 := by decide
theorem test_bget : xAfter (.bget 1 2 0) bench 1 = some 0x33 := by decide
theorem test_bget_range : errAfter (.bget 1 2 5) bench = some (true, 0x08, 0x00005442, 0xFFFFFFFF) := by decide
theorem test_bset : byteAfter (.bset 2 6 4) (bench.writeX 4 0x1AB) 0x100 = some 0xAB := by decide
theorem test_mask : xAfter (.mask 1 1 3 4) bench 1 = some 0x70 := by decide
theorem test_mask_all_ones : xAfter (.mask 1 0 64 0) bench 1 = some 0xFFFFFFFFFFFFFFFF := by decide
theorem test_lji : xAfter (.lji 2 1 .w8 3) bench 2 = some 0xA0 := by decide
theorem test_rji : xAfter (.rji 1 2 .w8 3) (bench.writeX 2 0xA0) 1 = some 5 := by decide
theorem test_csize : xAfter (.csize 1 2) bench 1 = some 2 := by decide
theorem test_csize_largest : xAfter (.csize 1 5) bench 1 = some 0x2000000000000000 := by decide
theorem test_getbit : xAfter (.getbit 1 1 2) ((bench2 0x46 0x1E).writeX 2 9) 1 = some 1 := by decide
theorem test_getbit_padding : errAfter (.getbit 1 1 2) bench = some (true, 0x07, 0x00002250, 12) := by decide
theorem test_setbit : byteAfter (.setbit 1 2 3) ((bench2 0 0).writeX 2 9) 0x100 = some 0x02 := by decide
theorem test_conv : xAfter (.conv 1 1 ⟨.w16, true⟩) (bench2 0x0F 0xFB) 1 = some 0xFFFFFFFFFFFFFFFB := by decide
theorem test_conv_mismatch :
    errAfter (.conv 1 1 ⟨.w8, true⟩) (bench2 0x0F 0xFB) = some (true, 0x05, 0x00004252, 12) := by decide
theorem test_fromint : byteAfter (.fromint 1 7) bench 0x100 = some 0x0F ∧ byteAfter (.fromint 1 7) bench 0x101 = some 0xFB := by
  decide
theorem test_neg : byteAfter (.neg 1) (bench2 0x00 0x05) 0x100 = some 0xFF ∧
    byteAfter (.neg 1) (bench2 0x00 0x05) 0x101 = some 0xFB := by decide
theorem test_ival : xAfter (.ival 2 1 ⟨.w16, false⟩ 7 3) (bench2 0xB6 0x71) 2 = some 0x4E := by decide
theorem test_ival_range : errAfter (.ival 2 1 ⟨.w16, false⟩ 7 6) bench = some (true, 0x06, 0x01839295, 0) := by decide
theorem test_ljv : byteAfter (.ljv 1) bench 0x100 = some 0x67 ∧ byteAfter (.ljv 1) bench 0x101 = some 0x10 := by decide
theorem test_rjv : byteAfter (.rjv 1) (bench2 0x67 0x10) 0x100 = some 0x06 ∧
    byteAfter (.rjv 1) (bench2 0x67 0x10) 0x101 = some 0x71 := by decide
theorem test_pack : byteAfter (.pack 5 3 4) bench 0x400 = some 0xAF ∧ byteAfter (.pack 5 3 4) bench 0x401 = some 0xAE := by
  decide
theorem test_pack_capacity : errAfter (.pack 5 3 6) bench = some (true, 0x09, 0x00173020, 10) := by decide
theorem test_strb : byteAfter (.strb 4 1) bench 0x180 = some 0x30 ∧ byteAfter (.strb 4 1) bench 0x18B = some 0x31 := by decide
theorem test_strh : byteAfter (.strh 4 1) (withD bench 1 0x100 2 .big) 0x181 = some 0x36 ∧
    byteAfter (.strh 4 1) (withD bench 1 0x100 2 .big) 0x183 = some 0x31 := by decide

/-! ## The host port and the resets -/

/-- Rules R34, R97: the host's CMD write runs the command (withFetchWord places it). -/
theorem test_step_runs : (after (step (bench.withFetchWord 32 0x00000441))).map (fun t => t.readX 1) = some 3 := by decide

/-- Rules R90, R201: a word with a 1 in an unused bit is recorded as ILLEGAL. -/
theorem test_step_illegal : (after (step (bench.withFetchWord 32 0x00001441))).map (fun t => (t.errcode, t.errinfo)) =
    some (0x01, 0x00001441) := by decide

/-- Rules R30, R33, R37: what the host reads. -/
theorem test_reads : bench.readPort .id = 0x42465801 ∧ bench.readPort .cap = 0x00010000 ∧
    (erred bench).readPort .status = 0x00000802 ∧ bench.readPort (.xhigh 7) = 0xFFFFFFFF ∧
    bench.readPort (.desc 1) = 0x200C0100 := by decide

/-- Rule R29: the map at its boundaries. -/
theorem test_map : portReg 7 = .reserved ∧ portReg 8 = .desc 0 ∧ portReg 15 = .desc 7 ∧ portReg 16 = .xlow 0 ∧
    portReg 31 = .xhigh 7 ∧ portReg 32 = .reserved ∧ portReg 0x3FFF = .reserved := by decide

/-! ## Witnesses of the statements' hypotheses -/

theorem witness_DecodeOfEncodeIsTheCommand : (Instr.ival 7 7 ⟨.w64, true⟩ 127 127).wellFormed = true := by decide

theorem witness_EncodeOfDecodeIsTheWord : decode 0x3FFFFFC8 = .ok (.mask 7 127 127 127) := by decide

theorem witness_EncodingFormulasDecodeBack :
    (127 < 128) ∧ encC 0x15 7 7 3 1 127 127 = 0x1FFFFFD5 ∧ encM 0x08 7 127 127 127 = 0x3FFFFFC8 := by decide

theorem witness_OneOpcodeRowPerCommandWord : (∃ i, decode 0x00000441 = .ok i) ∧
    ∃ r ∈ opcodeMap, (0x00000441 : Word) &&& r.mask = r.pattern := ⟨⟨.bsize 1 2, by decide⟩, _, .head _, by decide⟩

theorem witness_StepRunsTheDecodedCommand :
    (move bench (.writeReg cmdPort 0x00003442)).Ready ∧
    (move bench (.writeReg cmdPort 0x00003442)).script = .writeReg cmdPort 0x00003442 :: [] ∧
    decode 0x00003442 = .ok (.bget 1 2 3) := by decide

/-- Both ends of every range of reserved opcodes, each in a state that is ready. -/
theorem witness_ReservedOpcodesRaiseIllegal : (move bench (.writeReg cmdPort 0)).Ready ∧
    [0x00, 0x04, 0x07, 0x0C, 0x0F, 0x16, 0x17, 0x1A, 0x1F, 0x21, 0x27, 0x2A, 0x3F].all
      (fun n => decide (opField (BitVec.ofNat 32 n) = n)) = true := by decide

theorem witness_NonzeroUnusedBitsRaiseIllegal : (move bench (.writeReg cmdPort 0x00001441)).Ready ∧
    ∃ r ∈ opcodeMap, opField 0x00001441 = opField r.pattern ∧ (0x00001441 : Word) &&& r.mask &&& 0xFFFFFFC0 ≠ 0 :=
  ⟨by decide, _, .head _, by decide⟩

theorem witness_RecordedErrorDropsCommands : (move (erred bench) (.writeReg cmdPort 0x00000441)).err = true ∧
    (move (erred bench) (.writeReg cmdPort 0x00000441)).busy = false := by decide

theorem witness_CommandFrame : (∃ t, exec (.bget 1 2 0) bench = .next t) ∧ destination (.bget 1 2 0) ≠ some 0 ∧
    0x402 ∉ storedAddresses (.pack 5 3 4) bench ∧ 0x3FF ∉ storedAddresses (.pack 5 3 4) bench := ⟨⟨_, rfl⟩, by decide⟩

theorem witness_StoresStayInsideTheWrittenView : 0x400 ∈ storedAddresses (.pack 5 3 4) bench ∧
    0x401 ∈ storedAddresses (.pack 5 3 4) bench ∧ 0xFFFF ∈ storedAddresses (.bset 0 0 1) bench := by decide

/-- Two states whose MEM differs at 0x102 and in the draw, and agrees on the two bytes of D1. -/
theorem witness_CommandsReadOnlyTheirViews : ∀ region ∈ readViews (.getbit 1 1 6) bench, ∀ a, region.1 ≤ a →
    a < region.1 + region.2 → { bench with mem := bench.mem.insert 0x102 0x99, memDraw := 7 }.readByte a = bench.readByte a := by
  decide

/-- The little-endian last byte of MEM at index 0, and the big-endian view of three bytes at its last index. -/
theorem witness_ByteViewLaw :
    ((bench.readD 0).extractLsb' 0 16).toNat + ((bench.readD 0).extractLsb' 16 13).toNat ≤ bench.params.memSize ∧
    bench.natX 0 < ((bench.readD 0).extractLsb' 16 13).toNat ∧ (bench.readD 0).getLsbD 29 = false ∧
    ((bench.readD 2).extractLsb' 0 16).toNat + ((bench.readD 2).extractLsb' 16 13).toNat ≤ bench.params.memSize ∧
    bench.natX 6 < ((bench.readD 2).extractLsb' 16 13).toNat ∧ (bench.readD 2).getLsbD 29 = true := by decide

theorem witness_BsetStoresOneByte : bench.HasBytes (bench.view 2) (bench.view 2).size ∧ bench.natX 6 < (bench.view 2).size := by
  decide

/-- D6 ends one byte past MEM; the index 3 is the first past D2. -/
theorem witness_ByteIndexErrors : bench.params.memSize < (bench.view 6).base + (bench.view 6).size ∧
    (bench.writeX 1 3).HasBytes ((bench.writeX 1 3).view 2) ((bench.writeX 1 3).view 2).size ∧
    ((bench.writeX 1 3).view 2).size ≤ (bench.writeX 1 3).natX 1 := by decide

theorem witness_MaskSetsTheMiddleBits : 1 + 3 + 4 = 8 ∧ 0 + 64 + 0 = 64 ∧ ¬(0 + 0 + 0 = 8 ∨ 0 + 0 + 0 = 16) ∧
    ¬(3 + 3 + 3 = 8 ∨ 3 + 3 + 3 = 16 ∨ 3 + 3 + 3 = 32 ∨ 3 + 3 + 3 = 64) := by decide

theorem witness_LjiMovesTheLowBitsUp : 0 ≤ IntWidth.w8.bits ∧ 8 ≤ IntWidth.w8.bits ∧ IntWidth.w8.bits < 9 := by decide

theorem witness_RjiMovesTheTopBitsDown : 0 ≤ IntWidth.w64.bits ∧ 64 ≤ IntWidth.w64.bits ∧ IntWidth.w64.bits < 65 := by decide

theorem witness_IntegerJustifyInverseLaws : 8 ≤ IntWidth.w8.bits ∧ (bench.writeX 1 0xFF).natX 1 < 2 ^ IntWidth.w8.bits := by
  decide

/-- D7 has 65 bits; a 9-bit view at the last byte of MEM has its second byte outside. -/
theorem witness_BitViewOperandErrors : bitViewSource (.neg 7) = some 7 ∧ 64 < (bench.view 7).size ∧
    ((withD bench 6 0xFFFF 9 .little).view 6).size ≤ 64 ∧
    (withD bench 6 0xFFFF 9 .little).params.memSize <
      ((withD bench 6 0xFFFF 9 .little).view 6).base + ((withD bench 6 0xFFFF 9 .little).view 6).nbytes := by decide

theorem witness_GetbitReadsOneBit : (bench.writeX 2 11).HasBitView ((bench.writeX 2 11).view 1) ∧
    (bench.writeX 2 11).natX 2 < ((bench.writeX 2 11).view 1).size := by decide

theorem witness_SetbitWritesOneBit : (bench.writeX 2 11).HasBitView ((bench.writeX 2 11).view 3) ∧
    (bench.writeX 2 11).natX 2 < ((bench.writeX 2 11).view 3).size := by decide

theorem witness_BitIndexErrors : bench.HasBitView (bench.view 1) ∧ (bench.view 1).size ≤ bench.natX 2 := by decide

/-- A view as wide as T, with its sign bit set and with it clear. -/
theorem witness_ConvGivesTheLogicalValue :
    (withD bench 1 0x100 16 .big).HasBitView ((withD bench 1 0x100 16 .big).view 1) ∧
    ((withD bench 1 0x100 16 .big).view 1).size ≤ IntWidth.w16.bits ∧
    (bench2 0x0F 0xFB).rawBit ((bench2 0x0F 0xFB).view 1) 2 11 = true ∧ bench.rawBit (bench.view 1) 2 11 = false := by decide

theorem witness_ConvAndIvalParameterErrors : bench.HasBitView (bench.view 1) ∧ IntWidth.w8.bits < (bench.view 1).size ∧
    IntWidth.w8.bits < 9 ∧ (bench.view 1).size < 8 + 5 := by decide

theorem witness_SourceConversionAgrees : bench.HasBitView (bench.view 1) ∧ 0 < (bench.view 1).size ∧
    (bench.view 1).size ≤ IntWidth.w16.bits := by decide

theorem witness_FromintWritesTheLowBits : bench.HasBitView (bench.view 1) ∧ bench.HasBitView (bench.view 6) := by decide

theorem witness_NegNegatesInPlace : bench.HasBitView (bench.view 1) ∧ bench.HasBitView (bench.view 3) := by decide

theorem witness_IvalExtractsTheField : bench.HasBitView (bench.view 1) ∧ 8 ≤ IntWidth.w8.bits ∧ 8 + 4 ≤ (bench.view 1).size := by
  decide

/-- (a), (b): a 16-bit view; the value -5 and the most negative one. (c): the same logical bytes in both byte orders. -/
theorem witness_BitViewLaws :
    (withD bench 1 0x100 16 .big).HasBytes ((withD bench 1 0x100 16 .big).view 1) ((withD bench 1 0x100 16 .big).view 1).nbytes ∧
    ((withD bench 1 0x100 16 .big).view 1).size = IntWidth.w16.bits ∧
    ((bench.readX 7).setWidth 16).toInt ≠ -2 ^ 15 ∧ (((bench.writeX 7 0x8000).readX 7).setWidth 16).toInt = -2 ^ 15 ∧
    (let s := withBytes (withD bench 3 0x110 12 .little) 0x110 [0x71, 0x06]
     s.HasBitView (s.view 1) ∧ s.HasBitView (s.view 3) ∧ (s.view 1).size = (s.view 3).size ∧
      (∀ i, i < (s.view 1).nbytes → bvGet s (s.view 1) (s.view 1).nbytes i = bvGet s (s.view 3) (s.view 3).nbytes i) ∧
      s.natX 6 < (s.view 1).size ∧ (s.view 1).size ≤ 16 ∧ 8 + 4 ≤ (s.view 1).size) := by decide

theorem witness_LjvShiftsEveryByteLeft : bench.HasBitView (bench.view 1) ∧ (bench.view 1).order = .big ∧
    bench.HasBitView (bench.view 3) ∧ (bench.view 3).order = .little := by decide

theorem witness_RjvShiftsEveryByteRight : bench.HasBitView (bench.view 2) ∧ (bench.view 2).order = .big ∧
    bench.HasBitView (bench.view 4) ∧ (bench.view 4).order = .little := by decide

/-- The padding of D1 is 0 in the bench, and is not with 0xF6 at 0x100. -/
theorem witness_JustifyInverseLaws : bench.HasBitView (bench.view 1) ∧ (bench.view 1).order = .big ∧
    vRaw bench (bench.view 1) / 2 ^ 12 = 0 ∧ vRaw (bench2 0xF6 0x71) (bench.view 1) / 2 ^ 12 ≠ 0 ∧
    vRaw (bench2 0x67 0x10) (bench.view 1) % 2 ^ 4 = 0 ∧ vRaw bench (bench.view 1) % 2 ^ 4 ≠ 0 := by decide

/-- The example of rule R186 passes every check of PACK, and entry 1 of its table is the word 0x20080201. -/
theorem witness_PackConcatenatesTheFields : bench.PackAccepts (bench.view 5) (bench.natX 3) (bench.natX 4) ∧
    tableFields bench (bench.natX 3) (bench.natX 4) =
      [⟨0x200, 2, .big⟩] ++ ⟨0x201, 8, .big⟩ :: [⟨0x202, 3, .big⟩, ⟨0x203, 3, .big⟩] ∧
    (0x20080201 : Word) = bench.readByte (0x300 + 4 * 1 + 3) ++ bench.readByte (0x300 + 4 * 1 + 2) ++
      bench.readByte (0x300 + 4 * 1 + 1) ++ bench.readByte (0x300 + 4 * 1) :=
  ⟨⟨by decide, by decide, by decide, by decide, by decide, by decide, by decide⟩, by decide⟩

/-- One state for each clause: the destination, the table, a field's width, a field's place, the order, the capacity, the table's
overlap and the second field's overlap. -/
theorem witness_PackRaisesTheFirstFailure :
    (let s := withD bench 5 0xFFFF 2 .big
     s.params.memSize < (s.view 5).base + (s.view 5).size) ∧
    (let s := bench.writeX 3 0xFFF1
     s.HasBytes (s.view 5) (s.view 5).size ∧ s.params.memSize < s.natX 3 + 4 * s.natX 4) ∧
    (let s := withBytes bench 0x304 [0x01, 0x02, 0x41, 0x20]
     tableFields s 0x300 4 = [⟨0x200, 2, .big⟩] ++ ⟨0x201, 65, .big⟩ :: [⟨0x202, 3, .big⟩, ⟨0x203, 3, .big⟩] ∧
      s.HasBitView ⟨0x200, 2, .big⟩) ∧
    (let s := withBytes bench 0x304 [0xFF, 0xFF, 0x09, 0x20]
     tableFields s 0x300 4 = [⟨0x200, 2, .big⟩] ++ ⟨0xFFFF, 9, .big⟩ :: [⟨0x202, 3, .big⟩, ⟨0x203, 3, .big⟩] ∧
      s.params.memSize < 0xFFFF + (⟨0xFFFF, 9, .big⟩ : View).nbytes) ∧
    (let s := withD bench 5 0x400 2 .little
     (∀ f ∈ tableFields s 0x300 4, s.HasBitView f) ∧ (s.view 5).order = .little) ∧
    (let s := withD bench 5 0x400 3 .big
     (s.view 5).order = .big ∧ totalWidth (tableFields s 0x300 4) ≠ 8 * (s.view 5).size) ∧
    (let s := withD bench 5 0x30F 2 .big
     totalWidth (tableFields s 0x300 4) = 8 * (s.view 5).size ∧ overlap (s.view 5).base (s.view 5).size 0x300 (4 * 4) = true) ∧
    (let s := withD bench 5 0x203 2 .big
     overlap (s.view 5).base (s.view 5).size 0x300 (4 * 4) = false ∧
      (∀ g ∈ [(⟨0x200, 2, .big⟩ : View), ⟨0x201, 8, .big⟩, ⟨0x202, 3, .big⟩],
        overlap (s.view 5).base (s.view 5).size g.base g.nbytes = false) ∧
      overlap (s.view 5).base (s.view 5).size 0x203 1 = true) := by decide

theorem witness_PackScanGivesTheSameBytes : totalWidth (tableFields bench 0x300 4) = 8 * 2 ∧ totalWidth [] = 8 * 0 := by decide

/-- The state after rule R186's PACK. -/
def packed : State := (after (exec (.pack 5 3 4) bench)).getD bench

theorem witness_IvalUnpacksAPackedField : bench.PackAccepts (bench.view 5) (bench.natX 3) (bench.natX 4) ∧
    exec (.pack 5 3 4) bench = .next packed ∧ tableFields bench (bench.natX 3) (bench.natX 4) =
      [⟨0x200, 2, .big⟩] ++ ⟨0x201, 8, .big⟩ :: [⟨0x202, 3, .big⟩, ⟨0x203, 3, .big⟩] ∧
    (bench.view 5).size ≤ 8 ∧ (⟨0x201, 8, .big⟩ : View).size ≤ IntWidth.w8.bits ∧
    (withD packed 6 0x400 16 .big).mem = packed.mem ∧ (withD packed 6 0x400 16 .big).memDraw = packed.memDraw ∧
    (withD packed 6 0x400 16 .big).params = packed.params ∧
    (withD packed 6 0x400 16 .big).view 6 =
      { base := (bench.view 5).base, size := 8 * (bench.view 5).size, order := .big } :=
  ⟨witness_PackConcatenatesTheFields.1, rfl, by decide⟩

theorem witness_StrbRendersEveryBit : bench.HasBitView (bench.view 1) ∧ bench.HasBytes (bench.view 4) (bench.view 4).size ∧
    (bench.view 1).size ≤ (bench.view 4).size ∧
    overlap (bench.view 4).base (bench.view 1).size (bench.view 1).base (bench.view 1).nbytes = false := by decide

theorem witness_StrhRendersEveryByte : bench.HasBytes (bench.view 2) (bench.view 2).size ∧
    bench.HasBytes (bench.view 4) (bench.view 4).size ∧ 2 * (bench.view 2).size ≤ (bench.view 4).size ∧
    overlap (bench.view 4).base (2 * (bench.view 2).size) (bench.view 2).base (bench.view 2).size = false := by decide

/-- A source outside MEM; then, with the source inside, a destination outside, one too small, and one over the source. -/
theorem witness_RenderErrors : bench.params.memSize < (bench.view 6).base + (bench.view 6).size ∧
    bench.HasBytes (bench.view 1) (bench.view 1).nbytes ∧ (bench.view 1).size ≤ 64 ∧
    (bench.HasBytes (bench.view 5) (bench.view 5).size ∧ (bench.view 5).size < (bench.view 1).size) ∧
    (let s := withD bench 4 0xF5 12 .little
     (s.view 1).size ≤ (s.view 4).size ∧
      overlap (s.view 4).base (s.view 1).size (s.view 1).base (s.view 1).nbytes = true) := by decide

theorem witness_DataRegistersAreTwoHalves : (move bench (.writeReg (xlowPort 7) 1)).busy = false ∧
    (move bench (.writeReg (xhighPort 0) 1)).script = .writeReg (xhighPort 0) 1 :: [] ∧
    (move bench (.readReg (xlowPort 0))).script = .readReg (xlowPort 0) :: [] := by decide

theorem witness_DescriptorsStoreThirtyBits : (move bench (.writeReg (descPort 7) 0xFFFFFFFF)).busy = false ∧
    (move bench (.readReg (descPort 0))).script = .readReg (descPort 0) :: [] := by decide

/-- The last byte of a MEM of 65536 bytes, and the first past a MEM of 16. -/
theorem witness_MemWindowAccess : (move bench (.writeMem 0xFFFF 1)).busy = false ∧
    (0xFFFF : BitVec 16).toNat < bench.params.memSize ∧
    (let s := { bench with params := { memSize := 16, hexUpper := true } }
     s.params.memSize ≤ (16 : BitVec 16).toNat) := by decide

theorem witness_ReservedOffsetsReadZero : 4 * (7 : PortWord).toNat = 0x1C ∧ 0x80 ≤ 4 * (32 : PortWord).toNat ∧
    0x80 ≤ 4 * (0x3FFF : PortWord).toNat ∧ (move bench (.readReg 7)).busy = false := by decide

/-- A state with the invariant and one move left. -/
theorem witness_inv (m : Move) : (move State.reset m).Inv :=
  ⟨(by decide : State.reset.params.Legal), (by decide : Memory.wf [] 65536), rfl, fun _ => ⟨rfl, rfl, rfl⟩, nofun, nofun,
    (by decide : 0 < 1)⟩

/-- A state with the invariant and an error recorded. -/
theorem witness_inv_error (m : Move) : (move (erred State.reset) m).Inv :=
  ⟨(by decide : State.reset.params.Legal), (by decide : Memory.wf [] 65536), rfl, nofun,
    fun _ => (by decide : 1 ≤ (8 : BitVec 8).toNat ∧ (8 : BitVec 8).toNat ≤ 13),
    fun _ => ⟨fun h => absurd h (by decide : ¬(8 : BitVec 8) = 1),
      fun h => absurd (by decide : decode 0x00003442 = .ok (.bget 1 2 3)) (h (.bget 1 2 3))⟩, (by decide : 0 < 1)⟩

theorem witness_ControlRegistersRead : (move State.reset (.readReg 3)).Inv ∧
    (move State.reset (.readReg 3)).script = .readReg 3 :: [] ∧ (move (erred State.reset) (.readReg 3)).Inv :=
  ⟨witness_inv _, rfl, witness_inv_error _⟩

theorem witness_CtrlWriteActs : (move (erred bench) (.writeReg ctrlPort 4)).busy = false ∧
    (4 : Word).getLsbD 0 = false ∧ (4 : Word).getLsbD 1 = false ∧ (2 : Word).getLsbD 0 = false ∧ (2 : Word).getLsbD 1 = true ∧
    (0xFFFFFFFF : Word).getLsbD 0 = true := by decide

theorem witness_ErrclrReturnsFromAnError :
    let s := { move (erred State.reset) .hardReset with script := [.writeReg ctrlPort 2, .writeReg cmdPort 0x00000441] }
    s.Inv ∧ (2 : Word).getLsbD 0 = false ∧ (2 : Word).getLsbD 1 = true ∧ decode 0x00000441 = .ok (.bsize 1 2) :=
  ⟨⟨by decide, by decide, rfl, nofun, fun _ => by decide,
    fun _ => ⟨fun h => absurd h (by decide), fun h => absurd (by decide) (h (.bget 1 2 3))⟩, by decide⟩, by decide⟩

theorem witness_AccessWhileBusyIsRefused : (move bench.accept (.writeReg cmdPort 0)).busy = true ∧
    (move bench.accept (.readReg 5)).script = .readReg 5 :: [] ∧ (5 : PortWord) ≠ 0 ∧ (5 : PortWord) ≠ 3 ∧
    (move bench.accept (.readReg 0)).script = .readReg 0 :: [] ∧ (move bench.accept (.readReg 3)).script = .readReg 3 :: [] := by
  decide

theorem witness_OnlyRaisingSetsErr : ∃ t, step (move State.reset (.writeReg cmdPort 0)) = .next t ∧ t.err = true ∧
    (move State.reset (.writeReg cmdPort 0)).err = false ∧ (move State.reset (.writeReg cmdPort 0)).busy = false :=
  ⟨_, rfl, by decide⟩

theorem witness_FirstErrorIsKept : ∃ t, step (move (erred State.reset) (.writeReg cmdPort 0)) = .next t ∧
    (move (erred State.reset) (.writeReg cmdPort 0)).err = true ∧
    (∀ v rest, (move (erred State.reset) (.writeReg cmdPort 0)).script ≠ .writeReg ctrlPort v :: rest) ∧
    (∀ rest, (move (erred State.reset) (.writeReg cmdPort 0)).script ≠ .hardReset :: rest) ∧
    (∀ w rest, (move (erred State.reset) (.writeReg cmdPort 0)).script ≠ .hardResetDuring w :: rest) := by
  refine ⟨_, rfl, rfl, ?_, ?_, ?_⟩ <;> intros <;> simp [move, cmdPort, ctrlPort]

/-- IRQ rises when an error is raised with EIE 1, and when EIE is set with an error recorded. -/
theorem witness_IrqFollowsErrAndEie :
    (∃ t, step (move { State.reset with eie := true } (.writeReg cmdPort 0)) = .next t ∧
      (move { State.reset with eie := true } (.writeReg cmdPort 0)).irq = false ∧ t.irq = true) ∧
    (∃ t, step (move (erred State.reset) (.writeReg ctrlPort 4)) = .next t ∧
      (move (erred State.reset) (.writeReg ctrlPort 4)).irq = false ∧ t.irq = true) :=
  ⟨⟨_, rfl, by decide⟩, _, rfl, by decide⟩

theorem witness_HardwareResetValues : (move bench .hardReset).busy = false ∧
    (move bench .hardReset).script = .hardReset :: [] := by decide

theorem witness_ResetDuringACommand : (move bench (.hardResetDuring 0x00163020)).Ready ∧
    decode 0x00163020 = .ok (.pack 5 3 4) ∧ 0x400 ∈ storedAddresses (.pack 5 3 4) bench := by decide

theorem witness_SoftResetKeepsMem : (move bench (.writeReg ctrlPort 1)).busy = false ∧ (1 : Word).getLsbD 0 = true := by decide

theorem witness_EveryStepKeepsTheInvariant :
    ∃ t, (move State.reset .hardReset).Inv ∧ step (move State.reset .hardReset) = .next t := ⟨_, witness_inv _, rfl⟩

theorem witness_NoStepStops : (move State.reset (.writeReg cmdPort 0)).Inv := witness_inv _

end Sys2Proof.Tests
end

section
/-!
PROOFS of the statements about the state, the host port and the invariant (spec/10_state.md). Lemmas that other families need too
stand first: what a step does with each move, what a plan can give, and what each update of State does to the invariant.
-/

namespace Sys2Proof.Proofs

open Sys2Proof.Machine Sys2Proof.Laws

/-! ## One step, by the move at the head of the script -/

/-- With no move left the engine waits (rules R218, R233; log entry 10). -/
theorem step_nil {s : State} (hs : s.script = []) : step s = .next s := by
  simp only [step, performNext, hs]

/-- A read of the MEM window answers the byte there and changes nothing else (rule R61). -/
theorem step_readMem {s : State} {a : BitVec 16} {rest : List Move} (hb : s.busy = false)
    (hs : s.script = .readMem a :: rest) :
    step s = .next ({ s with script := rest }.answer (.byte ({ s with script := rest }.readWindow a.toNat))) := by
  simp only [step, performNext, hs, perform]
  rw [if_neg (by simp [hb])]

/-- A write of the MEM window is the write that rule R61 gives it. -/
theorem step_writeMem {s : State} {a : BitVec 16} {v : Byte} {rest : List Move} (hb : s.busy = false)
    (hs : s.script = .writeMem a v :: rest) : step s = .next ({ s with script := rest }.writeWindow a.toNat v) := by
  simp only [step, performNext, hs, perform]
  rw [if_neg (by simp [hb])]

/-- A hardware reset acts in every state (rules R230, R231). -/
theorem step_hardReset {s : State} {rest : List Move} (hs : s.script = .hardReset :: rest) :
    step s = .next { s with script := rest }.hardReset := by
  simp only [step, performNext, hs, perform]
  rw [if_neg (by simp [Move.allowedWhileBusy])]

/-- A hardware reset that arrives during a command (rule R231, last part). -/
theorem step_hardResetDuring {s : State} {w : Word} {rest : List Move} (hb : s.busy = false)
    (hs : s.script = .hardResetDuring w :: rest) : step s = .next ({ s with script := rest }.resetDuring w) := by
  simp only [step, performNext, hs, perform]
  rw [if_neg (by simp [hb])]

/-- A word that decodes is executed when no error is recorded (rules R34, R97). -/
theorem issue_of_decode {w : Word} {i : Instr} {s : State} (he : s.err = false) (hd : decode w = .ok i) :
    issue w s = exec i s.accept := by
  simp [issue, he, hd]

/-! ## The commands that words hold -/

/-- A 7-bit field holds a 7-bit immediate (rules R83 to R85). -/
theorem imm7_wordBits (w : Word) {hi lo : Nat} (h : hi + 1 - lo = 7) : Imm7 (wordBits w hi lo) := by
  rw [wordBits_eq, h]
  exact Nat.mod_lt _ (by decide)

/-- Every row of the opcode map reads a well-formed command (rules R87, R89). -/
theorem wellFormed_read (w : Word) : ∀ r ∈ opcodeMap, (r.read w).wellFormed = true := by
  simp [opcodeMap, Instr.wellFormed, imm7_wordBits]

/-- Decoding gives well-formed commands (rules R87, R97). -/
theorem wellFormed_of_decode {w : Word} {i : Instr} (h : decode w = .ok i) : i.wellFormed = true := by
  obtain ⟨r, hr, -, rfl⟩ := fits_of_decode h
  exact wellFormed_read w r hr

/-- The encoding of every well-formed command fits the row of its own opcode (rules R89, R98). -/
theorem fitsItsRow (i : Instr) : FitsItsRow.Statement i := by
  cases i with
  | bsize rd ds => exact FitsItsRow.bsize rd ds
  | bget rd ds rs => exact FitsItsRow.bget rd ds rs
  | bset ds rs rt => exact FitsItsRow.bset ds rs rt
  | mask rd l m r => exact FitsItsRow.mask rd l m r
  | lji rd rs w n => exact FitsItsRow.lji rd rs w n
  | rji rd rs w n => exact FitsItsRow.rji rd rs w n
  | csize rd rs => exact FitsItsRow.csize rd rs
  | getbit rd ds rs => exact FitsItsRow.getbit rd ds rs
  | setbit ds rs rt => exact FitsItsRow.setbit ds rs rt
  | conv rd ds t => exact FitsItsRow.conv rd ds t
  | fromint ds rs => exact FitsItsRow.fromint ds rs
  | neg ds => exact FitsItsRow.neg ds
  | ival rd ds t len off => exact FitsItsRow.ival rd ds t len off
  | ljv ds => exact FitsItsRow.ljv ds
  | rjv ds => exact FitsItsRow.rjv ds
  | pack dd rs rt => exact FitsItsRow.pack dd rs rt
  | strb dd ds => exact FitsItsRow.strb dd ds
  | strh dd ds => exact FitsItsRow.strh dd ds

/-- The word of a well-formed command is some command's word (rules R97, R98). -/
theorem exists_decode_encode {i : Instr} (h : i.wellFormed = true) : ∃ j, decode (encode i) = .ok j := by
  obtain ⟨r, hr, -, hf⟩ := fitsItsRow i h
  exact ⟨_, decode_of_fits hr hf⟩

/-! ## The errors a plan can raise -/

/-- ILLEGAL is the engine's answer to an undecodable word; no part of a CHECK phase raises it (rule R203). -/
def NeverIllegal {α : Type} (x : Except CmdError α) : Prop := ∀ e, x = .error e → e.code ≠ .illegal

theorem neverIllegal_ok {α : Type} (a : α) : NeverIllegal (.ok a) := nofun

theorem neverIllegal_ensure {p : Prop} [Decidable p] {c : ErrorCode} {a : Nat} (hc : c ≠ .illegal) :
    NeverIllegal (ensure p c a) := by
  intro e he
  obtain ⟨-, rfl⟩ := ensure_error_iff.mp he
  exact hc

theorem neverIllegal_bind {α β : Type} {x : Except CmdError α} {f : α → Except CmdError β} (hx : NeverIllegal x)
    (hf : ∀ a, NeverIllegal (f a)) : NeverIllegal (x >>= f) := by
  intro e he
  rcases bind_error_iff.mp he with hxe | ⟨a, -, hfe⟩
  · exact hx e hxe
  · exact hf a e hfe

theorem rangeCheck_neverIllegal {s : State} {v : View} {n k : Nat} : NeverIllegal (rangeCheck s v n k) :=
  neverIllegal_ensure nofun

theorem bvCheck_neverIllegal {s : State} {v : View} {k : Nat} : NeverIllegal (bvCheck s v k) :=
  neverIllegal_bind (neverIllegal_ensure nofun) fun _ => rangeCheck_neverIllegal

theorem byteIndexCheck_neverIllegal {s : State} {v : View} {i : Nat} : NeverIllegal (byteIndexCheck s v i) :=
  neverIllegal_bind rangeCheck_neverIllegal fun _ => neverIllegal_ensure nofun

theorem bitIndexCheck_neverIllegal {s : State} {v : View} {i : Nat} : NeverIllegal (bitIndexCheck s v i) :=
  neverIllegal_bind bvCheck_neverIllegal fun _ => neverIllegal_ensure nofun

theorem bigEndianCheck_neverIllegal {s : State} {v : View} : NeverIllegal (bigEndianCheck s v) :=
  neverIllegal_bind bvCheck_neverIllegal fun _ => neverIllegal_ensure nofun

theorem renderCheck_neverIllegal {s : State} {dst src : View} {len n : Nat} : NeverIllegal (renderCheck s dst len src n) :=
  neverIllegal_bind rangeCheck_neverIllegal fun _ =>
    neverIllegal_bind (neverIllegal_ensure nofun) fun _ => neverIllegal_ensure nofun

theorem fieldChecks_neverIllegal (s : State) (fs : List View) (j : Nat) : NeverIllegal (fieldChecks s j fs) := by
  induction fs generalizing j with
  | nil => exact neverIllegal_ok _
  | cons f fs ih => exact neverIllegal_bind bvCheck_neverIllegal fun _ => ih (j + 1)

theorem fieldOverlapChecks_neverIllegal (dst : View) (fs : List View) (j : Nat) :
    NeverIllegal (fieldOverlapChecks dst j fs) := by
  induction fs generalizing j with
  | nil => exact neverIllegal_ok _
  | cons f fs ih => exact neverIllegal_bind (neverIllegal_ensure nofun) fun _ => ih (j + 1)

/-- The eight stages of rule R181, in their order. -/
theorem packCheck_neverIllegal {s : State} {dst : View} {ta k : Nat} : NeverIllegal (packCheck s dst ta k) :=
  neverIllegal_bind rangeCheck_neverIllegal fun _ =>
  neverIllegal_bind (neverIllegal_ensure nofun) fun _ =>
  neverIllegal_bind (fieldChecks_neverIllegal _ _ _) fun _ =>
  neverIllegal_bind (neverIllegal_ensure nofun) fun _ =>
  neverIllegal_bind (neverIllegal_ensure nofun) fun _ =>
  neverIllegal_bind (neverIllegal_ensure nofun) fun _ =>
  neverIllegal_bind (fieldOverlapChecks_neverIllegal _ _ _) fun _ => neverIllegal_ok _

/-- No command raises ILLEGAL (rule R203). -/
theorem plan_neverIllegal (i : Instr) (s : State) : NeverIllegal (plan i s) := by
  cases i with
  | bsize | csize => exact neverIllegal_ok _
  | bget | bset => exact neverIllegal_bind byteIndexCheck_neverIllegal fun _ => neverIllegal_ok _
  | mask | lji | rji => exact neverIllegal_bind (neverIllegal_ensure nofun) fun _ => neverIllegal_ok _
  | getbit | setbit => exact neverIllegal_bind bitIndexCheck_neverIllegal fun _ => neverIllegal_ok _
  | conv | ival =>
    exact neverIllegal_bind bvCheck_neverIllegal fun _ =>
      neverIllegal_bind (neverIllegal_ensure nofun) fun _ => neverIllegal_ok _
  | fromint | neg => exact neverIllegal_bind bvCheck_neverIllegal fun _ => neverIllegal_ok _
  | ljv | rjv => exact neverIllegal_bind bigEndianCheck_neverIllegal fun _ => neverIllegal_ok _
  | pack => exact neverIllegal_bind packCheck_neverIllegal fun _ => neverIllegal_ok _
  | strb =>
    exact neverIllegal_bind bvCheck_neverIllegal fun _ =>
      neverIllegal_bind renderCheck_neverIllegal fun _ => neverIllegal_ok _
  | strh =>
    exact neverIllegal_bind rangeCheck_neverIllegal fun _ =>
      neverIllegal_bind renderCheck_neverIllegal fun _ => neverIllegal_ok _

/-! ## The effects a plan can have -/

/-- The four shapes of an effect, each with its place inside a MEM of memSize bytes: one data register, one byte of a view, a
WriteRaw of a view, or a run of bytes (rules R14, R66, R69, R182). -/
inductive EffectShape (memSize : Nat) : Effect → Prop
  | register (r : XReg) (v : Data) : EffectShape memSize (.setX r v)
  | byte {v : View} {n i : Nat} (b : Byte) (hi : i < n) (hm : v.base + n ≤ memSize) :
    EffectShape memSize (.store [bvSet v n i b])
  | raw {v : View} (r : Nat) (hm : v.base + v.nbytes ≤ memSize) : EffectShape memSize (.store (writeRaw v r))
  | run {base : Nat} {bs : List Byte} (hm : base + bs.length ≤ memSize) :
    EffectShape memSize (.store (storesFrom base bs))

/-- The stores of an effect of one of the four shapes lie inside MEM (rules R60, R64). -/
theorem EffectShape.inside {n : Nat} {e : Effect} (h : EffectShape n e) : e.inside n = true := by
  refine List.all_eq_true.mpr fun c hc => decide_eq_true ?_
  cases h with
  | register => cases hc
  | byte b hi hm =>
    obtain rfl := List.mem_singleton.mp hc
    exact lt_of_lt_of_le (byteAddr_mem _ hi).2 hm
  | raw r hm => exact lt_of_lt_of_le (writeRaw_addr hc).2 hm
  | run hm => exact lt_of_lt_of_le (storesFrom_addr hc).2 hm

/-- When x succeeds, its result has the property P. -/
def Gives {α : Type} (x : Except CmdError α) (P : α → Prop) : Prop := ∀ a, x = .ok a → P a

theorem gives_ok {α : Type} {P : α → Prop} {a : α} (h : P a) : Gives (.ok a) P := by
  rintro _ ⟨⟩
  exact h

theorem gives_bind {α β : Type} {x : Except CmdError α} {f : α → Except CmdError β} {P : β → Prop}
    (hf : ∀ a, x = .ok a → Gives (f a) P) : Gives (x >>= f) P := by
  intro b hb
  obtain ⟨a, hx, hfa⟩ := bind_ok_iff.mp hb
  exact hf a hx b hfa

@[simp] theorem length_binString (n v : Nat) : (binString n v).length = n := by simp [binString]

@[simp] theorem length_packBytes (n c : Nat) : (packBytes n c).length = n := by simp [packBytes]

@[simp] theorem length_hexString (s : State) (v : View) : (hexString s v).length = 2 * v.size := by
  simp [hexString, hexPair, List.length_flatMap, Nat.mul_comm]

/-- What the plan of any command can give: the checks keep every store inside MEM (rules R60, R64). -/
theorem plan_effectShape (i : Instr) (s : State) : Gives (plan i s) (EffectShape s.params.memSize) := by
  cases i with
  | bsize | csize => exact gives_ok (.register ..)
  | bget | mask | lji | rji | getbit => exact gives_bind fun _ _ => gives_ok (.register ..)
  | conv | ival => exact gives_bind fun _ _ => gives_bind fun _ _ => gives_ok (.register ..)
  | bset ds rs rt =>
    refine gives_bind fun _ h => ?_
    obtain ⟨hm, hi⟩ := byteIndexCheck_ok_iff.mp h
    exact gives_ok (.byte _ hi hm)
  | setbit ds rs rt =>
    refine gives_bind fun _ h => ?_
    obtain ⟨⟨-, hm⟩, hi⟩ := bitIndexCheck_ok_iff.mp h
    refine gives_ok (.byte _ ?_ hm)
    have hsize := size_le_nbytes (s.view ds)
    rw [Nat.shiftRight_eq_div_pow]
    omega
  | fromint | neg => exact gives_bind fun _ h => gives_ok (.raw _ (bvCheck_ok_iff.mp h).2)
  | ljv | rjv => exact gives_bind fun _ h => gives_ok (.raw _ (bigEndianCheck_ok_iff.mp h).1.2)
  | pack dd rs rt =>
    refine gives_bind fun fs h => ?_
    obtain ⟨-, hm, -⟩ := packCheck_ok_iff.mp h
    exact gives_ok (.run (by simpa using hm))
  | strb dd ds | strh dd ds =>
    refine gives_bind fun _ _ => gives_bind fun _ h => ?_
    obtain ⟨hm, hlen, -⟩ := renderCheck_ok_iff.mp h
    refine gives_ok (.run ?_)
    simp only [length_binString, length_hexString]
    omega

/-- Every address a command would store to lies inside MEM (rules R60, R64). -/
theorem storedAddresses_lt {i : Instr} {s : State} {a : Nat} (h : a ∈ storedAddresses i s) : a < s.params.memSize := by
  unfold storedAddresses at h
  split at h
  next e hp =>
    obtain ⟨c, hc, rfl⟩ := List.mem_map.mp h
    simpa using List.all_eq_true.mp (plan_effectShape i s e hp).inside c hc
  next => cases h

/-! ## What each update does to the invariant -/

/-- ILLEGAL has the number 1 and no other error has (rule R203). -/
theorem number_eq_one_iff (c : ErrorCode) : c.number = 1 ↔ c = .illegal := by
  cases c <;> decide

section
variable {s : State} (h : s.Inv)
include h

theorem inv_script (rest : List Move) : { s with script := rest }.Inv :=
  ⟨h.params, h.mem, h.idle, h.noError, h.errorKnown, h.errorWord, h.draws⟩

theorem inv_answer (r : Reply) : (s.answer r).Inv :=
  ⟨h.params, h.mem, h.idle, h.noError, h.errorKnown, h.errorWord, h.draws⟩

theorem inv_writeX (r : XReg) (v : Data) : (s.writeX r v).Inv :=
  ⟨h.params, h.mem, h.idle, h.noError, h.errorKnown, h.errorWord, h.draws⟩

theorem inv_writeD (r : DReg) (v : DescBits) : (s.writeD r v).Inv :=
  ⟨h.params, h.mem, h.idle, h.noError, h.errorKnown, h.errorWord, h.draws⟩

theorem inv_eie (b : Bool) : { s with eie := b }.Inv :=
  ⟨h.params, h.mem, h.idle, h.noError, h.errorKnown, h.errorWord, h.draws⟩

/-- A MEM write past MEM is ignored, so MEM keeps its canonical form (rules R39, R61). -/
theorem inv_writeWindow (a : Nat) (v : Byte) : (s.writeWindow a v).Inv := by
  unfold State.writeWindow
  split
  next ha => exact ⟨h.params, wf_insert h.mem ha, h.idle, h.noError, h.errorKnown, h.errorWord, h.draws⟩
  next => exact h

theorem inv_clearError : s.clearError.Inv :=
  ⟨h.params, h.mem, h.idle, fun _ => ⟨rfl, rfl, rfl⟩, nofun, nofun, h.draws⟩

theorem inv_softReset : s.softReset.Inv :=
  ⟨h.params, h.mem, rfl, fun _ => ⟨rfl, rfl, rfl⟩, nofun, nofun, h.draws⟩

theorem inv_writeCtrl (v : Word) : (s.writeCtrl v).Inv := by
  unfold State.writeCtrl
  split
  · exact inv_softReset h
  · split
    · exact inv_clearError (inv_eie h _)
    · exact inv_eie h _

theorem inv_hardReset : s.hardReset.Inv :=
  ⟨h.params, ⟨.nil, nofun⟩, rfl, fun _ => ⟨rfl, rfl, rfl⟩, nofun, nofun, Nat.lt_succ_self _⟩

/-- The torn bytes are listed, so they have to lie inside MEM (rule R231; log entry 5). -/
theorem inv_hardResetTorn {as : List Nat} (has : ∀ a ∈ as, a < s.params.memSize) : (s.hardResetTorn as).Inv := by
  refine ⟨h.params, wf_storeAll h.mem fun c hc => ?_, rfl, fun _ => ⟨rfl, rfl, rfl⟩, nofun, nofun,
    Nat.lt_succ_of_lt h.draws⟩
  obtain ⟨a, ha, rfl⟩ := List.mem_map.mp hc
  exact has a ha

theorem inv_resetDuring (w : Word) : (s.resetDuring w).Inv := by
  unfold State.resetDuring
  split
  · exact inv_hardReset h
  · split
    · exact inv_hardResetTorn h nofun
    · exact inv_hardResetTorn h fun _ => storedAddresses_lt

/-- Raising ILLEGAL with a word that is no command, or another error with one that is (rules R201, R203). -/
theorem inv_raiseError {w : Word} {e : CmdError} (hw : e.code = .illegal ↔ ∀ i, decode w ≠ .ok i) :
    (s.accept.raiseError w e).Inv :=
  ⟨h.params, h.mem, rfl, nofun, fun _ => number_range e.code, fun _ => (number_eq_one_iff e.code).trans hw, h.draws⟩

/-- A command that completes leaves the error registers and falls idle (rules R41, R200). -/
theorem inv_applyEffect {e : Effect} (he : e.inside s.params.memSize = true) : (s.accept.applyEffect e).Inv := by
  refine ⟨h.params, wf_storeAll h.mem fun c hc => ?_, rfl, h.noError, h.errorKnown, h.errorWord, h.draws⟩
  simpa using List.all_eq_true.mp he c hc

/-- The execution of a command that a word holds (rules R200, R201). -/
theorem inv_exec {i : Instr} {t : State} (hi : i.wellFormed = true) (ht : exec i s.accept = .next t) : t.Inv := by
  rw [exec_eq_commit] at ht
  rcases commit_next ht with ⟨e, hp, rfl⟩ | ⟨e, -, he, rfl⟩
  · have hcode : e.code ≠ .illegal := plan_neverIllegal i _ e hp
    obtain ⟨j, hj⟩ := exists_decode_encode hi
    exact inv_raiseError h ⟨fun hc => absurd hc hcode, fun hn => absurd hj (hn j)⟩
  · exact inv_applyEffect h he

theorem inv_issue {w : Word} {t : State} (ht : issue w s = .next t) : t.Inv := by
  rcases issue_cases w s with ⟨-, hi⟩ | ⟨-, ⟨e, he⟩, hi⟩ | ⟨-, i, hd, hi⟩
  · obtain rfl : s = t := by simpa [hi] using ht
    exact h
  · obtain rfl : s.accept.raiseError w ⟨.illegal, 0⟩ = t := by simpa [hi] using ht
    exact inv_raiseError h ⟨fun _ i => by simp [he], fun _ => rfl⟩
  · exact inv_exec h (wellFormed_of_decode hd) (hi ▸ ht)

theorem inv_writePort {r : PortReg} {v : Word} {t : State} (ht : writePort r v s = .next t) : t.Inv := by
  cases r with
  | cmd => exact inv_issue h ht
  | ctrl => cases ht; exact inv_writeCtrl h v
  | desc r => cases ht; exact inv_writeD h r _
  | xlow r | xhigh r => cases ht; exact inv_writeX h r _
  | id | cap | status | errinfo | errarg | reserved => cases ht; exact h

end

/-! ## The invariant -/

/-- Settles O58: MEM is empty, no error is recorded, and the draws 0 and 1 are in order. -/
theorem invariantHoldsAtReset : Obligations.InvariantHoldsAtReset :=
  ⟨by decide, wf_reset, rfl, fun _ => ⟨rfl, rfl, rfl⟩, nofun, nofun, by decide⟩

/-- Settles O59, by the move at the head of the script. -/
theorem everyStepKeepsTheInvariant : Obligations.EveryStepKeepsTheInvariant := by
  unfold Obligations.EveryStepKeepsTheInvariant
  intro s t h ht
  cases hs : s.script with
  | nil => rw [step_nil hs] at ht; cases ht; exact h
  | cons m rest =>
    have h' := inv_script h rest
    cases m with
    | readReg p => rw [step_readReg h.idle hs] at ht; cases ht; exact inv_answer h' _
    | writeReg p v => rw [step_writeReg h.idle hs] at ht; exact inv_writePort h' ht
    | readMem a => rw [step_readMem h.idle hs] at ht; cases ht; exact inv_answer h' _
    | writeMem a v => rw [step_writeMem h.idle hs] at ht; cases ht; exact inv_writeWindow h' _ v
    | hardReset => rw [step_hardReset hs] at ht; cases ht; exact inv_hardReset h'
    | hardResetDuring w => rw [step_hardResetDuring h.idle hs] at ht; cases ht; exact inv_resetDuring h' w

/-! ## The fields of the fixed registers -/

/-- The number of STATUS: its fields do not meet, and ERRCODE ends below bit 16 (rule R33). -/
theorem statusWord_toNat (s : State) :
    s.statusWord.toNat = s.busy.toNat + 2 * s.err.toNat + 256 * s.shownErrcode.toNat := by
  have hb := s.busy.toNat_le
  have he := s.err.toNat_le
  rw [State.statusWord, BitVec.toNat_ofNat, Nat.mod_eq_of_lt (by omega)]

/-- A bit of a word as a digit of its number. -/
theorem getLsbD_eq_digit (w : Word) (b : Bool) (k : Nat) (h : w.toNat / 2 ^ k % 2 = b.toNat) : w.getLsbD k = b := by
  rw [← BitVec.testBit_toNat, Nat.testBit_eq_decide_div_mod_eq, h]
  cases b <;> rfl

/-- A field of a word as digits of its number. -/
theorem extractLsb'_eq_digits (w : Word) (lo n : Nat) (v : BitVec n) (h : w.toNat / 2 ^ lo % 2 ^ n = v.toNat) :
    w.extractLsb' lo n = v :=
  BitVec.eq_of_toNat_eq (by rw [BitVec.extractLsb'_toNat, Nat.shiftRight_eq_div_pow, h])

/-- BUSY is bit 0 of STATUS (rule R33). -/
theorem statusWord_busy (s : State) : s.statusWord.getLsbD 0 = s.busy := by
  apply getLsbD_eq_digit
  have hb := s.busy.toNat_le
  rw [statusWord_toNat]
  omega

/-- ERR is bit 1 of STATUS (rule R33). -/
theorem statusWord_err (s : State) : s.statusWord.getLsbD 1 = s.err := by
  apply getLsbD_eq_digit
  have hb := s.busy.toNat_le
  have he := s.err.toNat_le
  rw [statusWord_toNat]
  omega

/-- ERRCODE is bits 15:8 of STATUS (rule R33). -/
theorem statusWord_errcode (s : State) : s.statusWord.extractLsb' 8 8 = s.shownErrcode := by
  apply extractLsb'_eq_digits
  have hb := s.busy.toNat_le
  have he := s.err.toNat_le
  rw [statusWord_toNat]
  omega

/-- Bits 7:2 and 31:16 of STATUS are 0 (rule R33). -/
theorem statusWord_zeros (s : State) : s.statusWord.extractLsb' 2 6 = 0 ∧ s.statusWord.extractLsb' 16 16 = 0 := by
  have hb := s.busy.toNat_le
  have he := s.err.toNat_le
  constructor
  · apply extractLsb'_eq_digits
    simp only [statusWord_toNat, BitVec.ofNat_eq_ofNat, BitVec.toNat_ofNat]
    omega
  · apply extractLsb'_eq_digits
    simp only [statusWord_toNat, BitVec.ofNat_eq_ofNat, BitVec.toNat_ofNat]
    omega

/-- With the invariant STATUS shows ERRCODE as it is stored (rule R33; log entry 14). -/
theorem shownErrcode_of_inv {s : State} (h : s.Inv) : s.shownErrcode = s.errcode := by
  unfold State.shownErrcode
  split
  next => rfl
  next herr =>
    obtain ⟨hcode, -, -⟩ := h.noError (Bool.eq_false_iff.mpr herr)
    exact hcode.symm

/-- The fields of CAP, with a MEM_SIZE in its range (rules R8, R31). -/
theorem capWord_fields {p : Config.Params} (h : p.Legal) :
    ((capWord p).extractLsb' 0 17).toNat = p.memSize ∧ (capWord p).getLsbD 17 = p.hexUpper ∧
      (capWord p).extractLsb' 18 14 = 0 := by
  obtain ⟨-, hmem⟩ := h
  have hx := p.hexUpper.toNat_le
  have hcap : (capWord p).toNat = p.memSize + 2 ^ 17 * p.hexUpper.toNat := by
    rw [capWord, BitVec.toNat_ofNat]
    omega
  refine ⟨?_, getLsbD_eq_digit _ _ _ ?_, extractLsb'_eq_digits _ _ _ _ ?_⟩
  · rw [BitVec.extractLsb'_toNat, Nat.shiftRight_eq_div_pow, hcap]
    omega
  · rw [hcap]
    omega
  · simp only [hcap, BitVec.ofNat_eq_ofNat, BitVec.toNat_ofNat]
    omega

/-- The fields of CTRL as it reads (rule R32). -/
theorem ctrlWord_fields (s : State) :
    s.ctrlWord.extractLsb' 0 2 = 0 ∧ s.ctrlWord.getLsbD 2 = s.eie ∧ s.ctrlWord.extractLsb' 3 29 = 0 := by
  cases he : s.eie <;> simp only [State.ctrlWord, he] <;> decide

/-! ## The fixed registers -/

/-- The registers of the map that a host write does not change and that start no command (rules R30, R31, R33, R35, R36, R39). -/
def ReadOnly (r : PortReg) : Prop := r = .id ∨ r = .cap ∨ r = .status ∨ r = .errinfo ∨ r = .errarg ∨ r = .reserved

/-- A host write of a read-only register is ignored (rules R30 to R39). -/
theorem step_writeReg_of_readOnly {s : State} {p : PortWord} {v : Word} {rest : List Move} (hb : s.busy = false)
    (hs : s.script = .writeReg p v :: rest) (hp : ReadOnly (portReg p)) : step s = .next { s with script := rest } := by
  rw [step_writeReg hb hs]
  rcases hp with hp | hp | hp | hp | hp | hp <;> rw [hp] <;> rfl

/-- The five read-only register words below the reserved ones (rule R29). -/
theorem readOnly_of_port {p : PortWord} (h : p = 0 ∨ p = 1 ∨ p = 3 ∨ p = 5 ∨ p = 6) : ReadOnly (portReg p) := by
  unfold ReadOnly
  rcases h with rfl | rfl | rfl | rfl | rfl <;> decide

/-- Settles O48, from the fields of CAP, CTRL and STATUS. -/
theorem controlRegistersRead : Obligations.ControlRegistersRead := by
  unfold Obligations.ControlRegistersRead
  intro s v rest h
  have hread : ∀ p, s.script = .readReg p :: rest →
      step s = .next { s with reply := some (.word (s.readPort (portReg p))), script := rest } :=
    fun p hs => step_readReg h.idle hs
  refine ⟨hread 0, fun hs => ⟨_, hread 1 hs, capWord_fields h.params⟩, fun hs => ⟨_, hread 2 hs, ctrlWord_fields s⟩,
    fun hs => ⟨_, hread 3 hs, ?_⟩, hread 4, hread 5, hread 6,
    fun p hp hs => step_writeReg_of_readOnly h.idle hs (readOnly_of_port hp)⟩
  obtain ⟨hlow, hhigh⟩ := statusWord_zeros s
  exact ⟨(statusWord_busy s).trans h.idle, statusWord_err s, hlow,
    (statusWord_errcode s).trans (shownErrcode_of_inv h), hhigh⟩

/-! ## The other accesses of the host port -/

/-- Settles O6: the port word is CMD, and accepting a command sets BUSY. -/
theorem stepRunsTheDecodedCommand : Obligations.StepRunsTheDecodedCommand := by
  unfold Obligations.StepRunsTheDecodedCommand
  intro s w rest i hready hs hd
  obtain ⟨herr, hbusy⟩ := hready
  rw [step_writeReg hbusy hs, portReg_cmdPort]
  exact issue_of_decode herr hd

/-- Settles O44, from the map's two words for each X register. -/
theorem dataRegistersAreTwoHalves : Obligations.DataRegistersAreTwoHalves := by
  unfold Obligations.DataRegistersAreTwoHalves
  intro s i v rest hb
  refine ⟨fun hs => ?_, fun hs => ?_, fun hs => ?_, fun hs => ?_⟩
  · rw [step_writeReg hb hs, portReg_xlowPort]; rfl
  · rw [step_writeReg hb hs, portReg_xhighPort]; rfl
  · rw [step_readReg hb hs, portReg_xlowPort]; rfl
  · rw [step_readReg hb hs, portReg_xhighPort]; rfl

/-- The descriptor layout, read off the word that the host writes (rules R23, R38). -/
theorem viewOfBits_extractLsb' (v : Word) :
    viewOfBits (v.extractLsb' 0 30) =
      { base := (v.extractLsb' 0 16).toNat
        size := (v.extractLsb' 16 13).toNat
        order := if v.getLsbD 29 then .big else .little } := by
  have hbase : (v.extractLsb' 0 30).extractLsb' 0 16 = v.extractLsb' 0 16 := by ext j hj; simp
  have hsize : (v.extractLsb' 0 30).extractLsb' 16 13 = v.extractLsb' 16 13 := by ext j hj; simp
  have horder : (v.extractLsb' 0 30).getLsbD 29 = v.getLsbD 29 := by simp
  rw [viewOfBits, hbase, hsize, horder]

/-- Settles O45, the view read off the written word. -/
theorem descriptorsStoreThirtyBits : Obligations.DescriptorsStoreThirtyBits := by
  unfold Obligations.DescriptorsStoreThirtyBits
  intro s i v rest hb
  refine ⟨fun hs => ⟨{ s with script := rest }.writeD i (v.extractLsb' 0 30), ?_, rfl, ?_⟩, fun hs => ?_⟩
  · rw [step_writeReg hb hs, portReg_descPort, ← BitVec.setWidth_eq_extractLsb' (by decide)]
    rfl
  · rw [State.view, readD_writeD, if_pos rfl, viewOfBits_extractLsb']
  · rw [step_readReg hb hs, portReg_descPort]
    rfl

/-- The reserved register words: offset 0x1C and those from 0x80 up (rules R29, R39). -/
theorem portReg_of_reserved {p : PortWord} (h : 4 * p.toNat = 0x1C ∨ 0x80 ≤ 4 * p.toNat) : portReg p = .reserved := by
  rcases h with h | h
  · obtain rfl : p = 7 := BitVec.eq_of_toNat_eq (by simpa using (by omega : p.toNat = 7))
    decide
  · exact portReg_of_high (by omega)

/-- Settles O47, from the map's reserved words. -/
theorem reservedOffsetsReadZero : Obligations.ReservedOffsetsReadZero := by
  unfold Obligations.ReservedOffsetsReadZero
  intro s p v rest hb hp
  have hreg := portReg_of_reserved hp
  refine ⟨fun hs => step_writeReg_of_readOnly hb hs (by simp [ReadOnly, hreg]), fun hs => ?_⟩
  rw [step_readReg hb hs, hreg]
  rfl

/-- SRST 1 is the soft reset (rules R32, R232). -/
theorem writeCtrl_of_srst {s : State} {v : Word} (h : v.getLsbD 0 = true) : s.writeCtrl v = s.softReset := if_pos h

/-- SRST 0 and ERRCLR 0 set EIE only (rule R32). -/
theorem writeCtrl_of_eie {s : State} {v : Word} (h0 : v.getLsbD 0 = false) (h1 : v.getLsbD 1 = false) :
    s.writeCtrl v = { s with eie := v.getLsbD 2 } := by
  simp only [State.writeCtrl, h0, h1, Bool.false_eq_true, if_false]

/-- SRST 0 and ERRCLR 1 set EIE and clear the error (rules R32, R208). -/
theorem writeCtrl_of_errclr {s : State} {v : Word} (h0 : v.getLsbD 0 = false) (h1 : v.getLsbD 1 = true) :
    s.writeCtrl v = { s with eie := v.getLsbD 2 }.clearError := by
  simp only [State.writeCtrl, h0, h1, Bool.false_eq_true, if_false, if_true]

/-- Settles O49, by the branches of writeCtrl. -/
theorem ctrlWriteActs : Obligations.CtrlWriteActs := by
  unfold Obligations.CtrlWriteActs
  intro s v rest hb hs
  have hstep : step s = .next ({ s with script := rest }.writeCtrl v) := by
    rw [step_writeReg hb hs, portReg_ctrlPort]
    rfl
  refine ⟨fun h0 h1 => ?_, fun h0 h1 => ?_, fun h0 => ?_⟩
  · rw [hstep, writeCtrl_of_eie h0 h1]
  · rw [hstep, writeCtrl_of_errclr h0 h1]; rfl
  · rw [hstep, writeCtrl_of_srst h0]; rfl

end Sys2Proof.Proofs
end

section
/-!
PROOFS of the statements about MEM (spec/20_memory.md): where a command stores, which bytes its plan depends on, and the MEM
window. A command's plan is computed from its operands and from the bytes of its views, so two states that agree there have the
same plan; the statement about reading follows from the plans being equal.
-/

namespace Sys2Proof.Proofs

open Sys2Proof.Machine Sys2Proof.Laws

/-! ## A command by its plan -/

/-- The addresses a command would store to are those of its plan's effect (rules R200, R231). -/
theorem mem_storedAddresses {i : Instr} {s : State} {a : Nat} :
    a ∈ storedAddresses i s ↔ ∃ e, plan i s = .ok e ∧ a ∈ e.stores.map (fun c => c.1) := by
  cases hp : plan i s <;> simp [storedAddresses, hp]

/-- A command whose CHECK phase raises records the error (rules R200, R201). -/
theorem exec_of_plan_error {i : Instr} {s : State} {e : CmdError} (h : plan i s = .error e) :
    exec i s = .next (s.raiseError (encode i) e) := by
  rw [exec_eq_commit, h, commit_error]

/-- A command whose CHECK phase passes applies its effect: the effect lies inside MEM (rules R60, R64, R200). -/
theorem exec_of_plan_ok {i : Instr} {s : State} {e : Effect} (h : plan i s = .ok e) :
    exec i s = .next (s.applyEffect e) := by
  rw [exec_eq_commit, h, commit, if_pos (plan_effectShape i s e h).inside]

/-! ## Where a command stores -/

/-- Every store of an effect goes to a byte of a region, given by its first address and its byte count. -/
def StoresWithin (region : Option (Nat × Nat)) (e : Effect) : Prop :=
  ∀ c ∈ e.stores, ∃ base n, region = some (base, n) ∧ base ≤ c.1 ∧ c.1 < base + n

/-- A register write stores nothing. -/
theorem storesWithin_setX {region : Option (Nat × Nat)} {r : XReg} {v : Data} : StoresWithin region (.setX r v) := nofun

/-- BVSet stays inside its view (rule R66). -/
theorem storesWithin_bvSet {v : View} {n i : Nat} (b : Byte) (hi : i < n) :
    StoresWithin (some (v.base, n)) (.store [bvSet v n i b]) := by
  intro c hc
  obtain rfl := List.mem_singleton.mp hc
  exact ⟨_, _, rfl, byteAddr_mem v hi⟩

/-- WriteRaw stays inside its view (rule R69). -/
theorem storesWithin_writeRaw {v : View} {r : Nat} : StoresWithin (some (v.base, v.nbytes)) (.store (writeRaw v r)) :=
  fun _ hc => ⟨_, _, rfl, writeRaw_addr hc⟩

/-- A run of bytes stays inside any view at its base that is long enough for it. -/
theorem storesWithin_storesFrom {base n : Nat} {bs : List Byte} (hlen : bs.length ≤ n) :
    StoresWithin (some (base, n)) (.store (storesFrom base bs)) := by
  intro c hc
  obtain ⟨hlo, hhi⟩ := storesFrom_addr hc
  exact ⟨_, _, rfl, hlo, by omega⟩

/-- The byte of a logical bit is one of the view's N_bytes (rules R25, R68). -/
theorem byteOfBit_lt_nbytes {v : View} {i : Nat} (h : i < v.size) : i >>> 3 < v.nbytes := by
  have hsize := size_le_nbytes v
  rw [Nat.shiftRight_eq_div_pow]
  omega

/-- Every command's plan stores only inside the view the command writes to (rule R62). -/
theorem plan_storesWithin (i : Instr) (s : State) : Gives (plan i s) (StoresWithin (writtenView i s)) := by
  cases i with
  | bsize | csize => exact gives_ok storesWithin_setX
  | bget | mask | lji | rji | getbit => exact gives_bind fun _ _ => gives_ok storesWithin_setX
  | conv | ival => exact gives_bind fun _ _ => gives_bind fun _ _ => gives_ok storesWithin_setX
  | bset =>
    refine gives_bind fun _ h => gives_ok (storesWithin_bvSet _ ?_)
    exact (byteIndexCheck_ok_iff.mp h).2
  | setbit =>
    refine gives_bind fun _ h => gives_ok (storesWithin_bvSet _ ?_)
    exact byteOfBit_lt_nbytes (bitIndexCheck_ok_iff.mp h).2
  | fromint | neg | ljv | rjv => exact gives_bind fun _ _ => gives_ok storesWithin_writeRaw
  | pack => exact gives_bind fun _ _ => gives_ok (storesWithin_storesFrom (length_packBytes ..).le)
  | strb | strh =>
    refine gives_bind fun _ _ => gives_bind fun _ h => gives_ok (storesWithin_storesFrom ?_)
    obtain ⟨-, hlen, -⟩ := renderCheck_ok_iff.mp h
    simpa using hlen

/-- Settles O12: the plan of every command keeps to the view it writes to, and its checks keep that inside MEM. -/
theorem storesStayInsideTheWrittenView : Obligations.StoresStayInsideTheWrittenView := by
  unfold Obligations.StoresStayInsideTheWrittenView
  intro i s a ha
  obtain ⟨e, hplan, he⟩ := mem_storedAddresses.mp ha
  obtain ⟨c, hc, rfl⟩ := List.mem_map.mp he
  exact ⟨storedAddresses_lt ha, plan_storesWithin i s e hplan c hc⟩

/-! ## What the view functions read -/

/-- The n bytes at base read in t as in s. -/
def SameBytes (s t : State) (base n : Nat) : Prop := ∀ a, base ≤ a → a < base + n → t.readByte a = s.readByte a

section
variable {s t : State} {v : View}

/-- BVGet reads a byte of its view (rule R65). -/
theorem bvGet_of_sameBytes {n i : Nat} (h : SameBytes s t v.base n) (hi : i < n) : bvGet t v n i = bvGet s v n i :=
  h _ (byteAddr_mem v hi).1 (byteAddr_mem v hi).2

/-- VRaw reads the bytes of its view (rule R67). -/
theorem vRaw_of_sameBytes (h : SameBytes s t v.base v.nbytes) : vRaw t v = vRaw s v :=
  rawSum_congr fun _ hi => bvGet_of_sameBytes h hi

/-- VVal reads the bytes of its view (rule R68). -/
theorem vVal_of_sameBytes (h : SameBytes s t v.base v.nbytes) : vVal t v = vVal s v := by
  rw [vVal, vVal, vRaw_of_sameBytes h]

/-- VBit reads one byte of its view (rule R68). -/
theorem vBit_of_sameBytes {i : Nat} (h : SameBytes s t v.base v.nbytes) (hi : i < v.size) : vBit t v i = vBit s v i := by
  rw [vBit, vBit, bvGet_of_sameBytes h (byteOfBit_lt_nbytes hi)]

/-- The characters of STRH come from the bytes of its view (rule R191). -/
theorem hexString_of_sameBytes (hp : t.params = s.params) (h : SameBytes s t v.base v.size) :
    hexString t v = hexString s v := by
  rw [hexString, hexString, hp]
  refine List.flatMap_congr fun k hk => ?_
  have hk := List.mem_range.mp hk
  rw [bvGet_of_sameBytes h (by omega)]

/-- A table entry comes from its four bytes (rule R180). -/
theorem tableWord_of_sameBytes {ta k j : Nat} (h : SameBytes s t ta (4 * k)) (hj : j < k) :
    tableWord t ta j = tableWord s ta j := by
  have hbyte (b : Nat) (hb : b < 4) : t.readByte (ta + 4 * j + b) = s.readByte (ta + 4 * j + b) :=
    h _ (by omega) (by omega)
  unfold tableWord
  dsimp only
  rw [hbyte 0 (by decide), hbyte 1 (by decide), hbyte 2 (by decide), hbyte 3 (by decide)]

/-- The fields of a table come from its bytes (rule R180). -/
theorem tableFields_of_sameBytes {ta k : Nat} (h : SameBytes s t ta (4 * k)) : tableFields t ta k = tableFields s ta k := by
  unfold tableFields
  refine List.map_congr_left fun j hj => ?_
  rw [tableField, tableField, tableWord_of_sameBytes h (List.mem_range.mp hj)]

/-- The concatenation of PACK comes from the bytes of its fields (rule R182). -/
theorem packValue_of_sameBytes {fs : List View} (h : ∀ f ∈ fs, SameBytes s t f.base f.nbytes) :
    packValue t fs = packValue s fs := by
  induction fs with
  | nil => rfl
  | cons f fs ih =>
    obtain ⟨hf, hfs⟩ := List.forall_mem_cons.mp h
    rw [packValue_cons, packValue_cons, vVal_of_sameBytes hf, ih hfs]

/-- The checks of PACK's fields look at no byte of MEM (rules R140, R181). -/
theorem fieldChecks_of_params (hp : t.params = s.params) (j : Nat) (fs : List View) :
    fieldChecks t j fs = fieldChecks s j fs := by
  induction fs generalizing j with
  | nil => rfl
  | cons f fs ih => simp only [fieldChecks, bvCheck, rangeCheck, hp, ih]

/-- The CHECK phase of PACK reads the field table and nothing else of MEM (rule R181). -/
theorem packCheck_of_sameBytes {dst : View} {ta k : Nat} (hp : t.params = s.params) (h : SameBytes s t ta (4 * k)) :
    packCheck t dst ta k = packCheck s dst ta k := by
  simp only [packCheck, rangeCheck, hp, tableFields_of_sameBytes h, fieldChecks_of_params hp]

end

/-! ## Two states that differ in MEM alone -/

/-- The state s with another MEM, its unlisted bytes from another draw. -/
def withMem (s : State) (m : Memory) (draw : Nat) : State := { s with mem := m, memDraw := draw }

section
variable (s : State) (m : Memory) (draw : Nat)

@[simp] theorem withMem_view (r : DReg) : (withMem s m draw).view r = s.view r := rfl
@[simp] theorem withMem_readX (r : XReg) : (withMem s m draw).readX r = s.readX r := rfl
@[simp] theorem withMem_natX (r : XReg) : (withMem s m draw).natX r = s.natX r := rfl
@[simp] theorem withMem_params : (withMem s m draw).params = s.params := rfl

end

/-- Two sequences with the same checks agree when what follows a passed check agrees. -/
theorem bind_congr_of_ok {α β : Type} {x : Except CmdError α} {f g : α → Except CmdError β}
    (h : ∀ a, x = .ok a → f a = g a) : (x >>= f) = (x >>= g) := by
  cases x with
  | error => rfl
  | ok a => exact h a rfl

/-- The plan of a command depends on no byte outside the views and the table it is given to read (rule R62). -/
theorem plan_withMem {i : Instr} {s : State} {m : Memory} {draw : Nat}
    (h : ∀ region ∈ readViews i s, SameBytes s (withMem s m draw) region.1 region.2) :
    plan i (withMem s m draw) = plan i s := by
  cases i with
  | bsize | bset | mask | lji | rji | csize | fromint => rfl
  | bget rd ds rs =>
    have hv : SameBytes s _ (s.view ds).base (s.view ds).size := h _ (List.mem_singleton_self _)
    refine bind_congr_of_ok fun _ hc => ?_
    have hi : s.natX rs < (s.view ds).size := (byteIndexCheck_ok_iff.mp hc).2
    simp only [withMem_view, withMem_natX, bvGet_of_sameBytes hv hi]
  | getbit rd ds rs =>
    have hv := h _ (List.mem_singleton_self _)
    refine bind_congr_of_ok fun _ hc => ?_
    have hi : s.natX rs < (s.view ds).size := (bitIndexCheck_ok_iff.mp hc).2
    simp only [withMem_view, withMem_natX, vBit_of_sameBytes hv hi]
  | setbit ds rs rt =>
    have hv : SameBytes s _ (s.view ds).base (s.view ds).nbytes := h _ (List.mem_singleton_self _)
    refine bind_congr_of_ok fun _ hc => ?_
    have hi : s.natX rs < (s.view ds).size := (bitIndexCheck_ok_iff.mp hc).2
    simp only [withMem_view, withMem_natX, withMem_readX, bvGet_of_sameBytes hv (byteOfBit_lt_nbytes hi)]
  | conv | ival | strb =>
    have hv := h _ (List.mem_singleton_self _)
    refine bind_congr_of_ok fun _ _ => bind_congr_of_ok fun _ _ => ?_
    simp only [withMem_view, vVal_of_sameBytes hv]
  | neg | ljv | rjv =>
    have hv := h _ (List.mem_singleton_self _)
    refine bind_congr_of_ok fun _ _ => ?_
    simp only [withMem_view, vRaw_of_sameBytes hv]
  | strh =>
    have hv := h _ (List.mem_singleton_self _)
    refine bind_congr_of_ok fun _ _ => bind_congr_of_ok fun _ _ => ?_
    simp only [withMem_view, hexString_of_sameBytes (withMem_params s m draw) hv]
  | pack =>
    obtain ⟨htable, hfields⟩ := List.forall_mem_cons.mp h
    simp only [plan, planPack, withMem_view, withMem_natX, packCheck_of_sameBytes (withMem_params s m draw) htable]
    refine bind_congr_of_ok fun fs hc => ?_
    obtain ⟨rfl, -⟩ := packCheck_ok_iff.mp hc
    rw [packValue_of_sameBytes fun f hf => hfields _ (List.mem_map_of_mem hf)]

/-- A list of stores gives each address it names one byte, whatever MEM was. -/
theorem exists_lookup_storeAll {cs : List Host.Cell} {a : Nat} (h : a ∈ cs.map (fun c => c.1)) :
    ∃ v, ∀ m : Memory, (m.storeAll cs).lookup a = some v := by
  induction cs with
  | nil => cases h
  | cons c cs ih =>
    by_cases hcs : a ∈ cs.map (fun c => c.1)
    · obtain ⟨v, hv⟩ := ih hcs
      exact ⟨v, fun m => hv (m.insert c.1 c.2)⟩
    · have hac : a = c.1 := by simpa [hcs] using h
      refine ⟨c.2, fun m => ?_⟩
      have hlater : ((m.insert c.1 c.2).storeAll cs).lookup a = (m.insert c.1 c.2).lookup a :=
        lookup_storeAll_of_not_mem cs _ a fun e he hea => hcs (List.mem_map.mpr ⟨e, he, hea⟩)
      simpa [Memory.storeAll, hac] using hlater

/-- An effect leaves the same bytes at the addresses it stores to, whatever the states were. -/
theorem readByte_applyEffect_of_mem {e : Effect} {a : Nat} (s t : State) (h : a ∈ e.stores.map (fun c => c.1)) :
    (t.applyEffect e).readByte a = (s.applyEffect e).readByte a := by
  obtain ⟨v, hv⟩ := exists_lookup_storeAll h
  simp only [State.readByte, State.applyEffect, hv, Option.getD_some]

/-- Settles O13: the two states have the same plan, and a command is its plan, committed. -/
theorem commandsReadOnlyTheirViews : Obligations.CommandsReadOnlyTheirViews := by
  unfold Obligations.CommandsReadOnlyTheirViews
  intro i s m draw h
  have hplan : plan i (withMem s m draw) = plan i s := plan_withMem h
  have hstored : storedAddresses i (withMem s m draw) = storedAddresses i s := by
    rw [storedAddresses, storedAddresses, hplan]
  cases hp : plan i s with
  | error e =>
    refine ⟨_, _, exec_of_plan_error hp, exec_of_plan_error (hplan.trans hp), rfl, hstored, fun a ha => ?_⟩
    simp [mem_storedAddresses, hp] at ha
  | ok e =>
    refine ⟨_, _, exec_of_plan_ok hp, exec_of_plan_ok (hplan.trans hp), rfl, hstored, fun a ha => ?_⟩
    obtain ⟨e', he', ha⟩ := mem_storedAddresses.mp ha
    cases hp.symm.trans he'
    exact readByte_applyEffect_of_mem s _ ha

/-! ## The MEM window -/

/-- Inside MEM the window writes its byte (rule R61). -/
theorem writeWindow_of_lt {s : State} {a : Nat} (h : a < s.params.memSize) (v : Byte) :
    s.writeWindow a v = s.writeByte a v := if_pos h

/-- Past MEM the window ignores a write (rule R39). -/
theorem writeWindow_of_le {s : State} {a : Nat} (h : s.params.memSize ≤ a) (v : Byte) : s.writeWindow a v = s :=
  if_neg (Nat.not_lt.mpr h)

/-- Settles O46, by the move and by the two sides of MEM_SIZE. -/
theorem memWindowAccess : Obligations.MemWindowAccess := by
  unfold Obligations.MemWindowAccess
  intro s a v rest hb
  refine ⟨fun hs ha => ?_, fun hs ha => ?_, fun hs => step_readMem hb hs⟩
  · refine ⟨{ s with script := rest }.writeByte a.toNat v, ?_, rfl, fun b => readByte_writeByte ..⟩
    rw [step_writeMem hb hs, writeWindow_of_lt (s := { s with script := rest }) ha]
  · rw [step_writeMem hb hs, writeWindow_of_le (s := { s with script := rest }) ha]

end Sys2Proof.Proofs
end

section
/-!
PROOFS of the statements about the command encoding (spec/30_encoding.md). The fields of an encoding are its operands, and a word
is the encoding of its own fields; with the row that a word fits, these give the two directions of the round trip. A word that
fits no row is what rules R90 and R91 call illegal.
-/

namespace Sys2Proof.Proofs

open Sys2Proof.Machine Sys2Proof.Laws

/-! ## The fields of an encoding -/

/-- A register field reads a register's number back. -/
@[simp] theorem ofNat_regNumber (r : Fin 8) : Fin.ofNat 8 r.val = r := Fin.ofNat_val_eq_self r

/-- The signedness bit of a type says whether it is signed (rule R15). -/
@[simp] theorem signCode_beq_one (t : IntType) : (t.signCode == 1) = t.signed := by
  unfold IntType.signCode
  cases t.signed <;> rfl

/-- Field S of a type is one bit (rule R83). -/
theorem signCode_le_one (t : IntType) : t.signCode ≤ 1 := Nat.le_of_lt_succ (signCode_lt t)

/-- The fields of enc_R are its operands (rules R82, R98). -/
@[simp] theorem fields_encR {op rd ds rs rt dd : Nat} (h0 : op < 64) (h1 : rd < 8) (h2 : ds < 8) (h3 : rs < 8) (h4 : rt < 8)
    (h5 : dd < 8) :
    rdField (encR op rd ds rs rt dd) = Fin.ofNat 8 rd ∧ dsField (encR op rd ds rs rt dd) = Fin.ofNat 8 ds ∧
      rsField (encR op rd ds rs rt dd) = Fin.ofNat 8 rs ∧ rtField (encR op rd ds rs rt dd) = Fin.ofNat 8 rt ∧
      ddField (encR op rd ds rs rt dd) = Fin.ofNat 8 dd := by
  simp only [rdField, dsField, rsField, rtField, ddField, regField, wordBits_eq, encR_toNat h0 h1 h2 h3 h4 h5]
  refine ⟨congrArg _ ?_, congrArg _ ?_, congrArg _ ?_, congrArg _ ?_, congrArg _ ?_⟩ <;> omega

/-- The fields of enc_C are its operands (rules R83, R98). -/
@[simp] theorem fields_encC {op rd ds w s len off : Nat} (h0 : op < 64) (h1 : rd < 8) (h2 : ds < 8) (h3 : w < 4) (h4 : s ≤ 1)
    (h5 : len < 128) (h6 : off < 128) :
    rdField (encC op rd ds w s len off) = Fin.ofNat 8 rd ∧ dsField (encC op rd ds w s len off) = Fin.ofNat 8 ds ∧
      typeField (encC op rd ds w s len off) = { width := widthOfCode w, signed := s == 1 } ∧
      wordBits (encC op rd ds w s len off) 21 15 = len ∧ wordBits (encC op rd ds w s len off) 28 22 = off := by
  have hw : wordBits (encC op rd ds w s len off) 13 12 = w := by
    rw [wordBits_eq, encC_toNat h0 h1 h2 h3 (Nat.lt_succ_of_le h4) h5 h6]; omega
  have hs : wordBits (encC op rd ds w s len off) 14 14 = s := by
    rw [wordBits_eq, encC_toNat h0 h1 h2 h3 (Nat.lt_succ_of_le h4) h5 h6]; omega
  rw [typeField, hw, hs]
  simp only [rdField, dsField, regField, wordBits_eq, encC_toNat h0 h1 h2 h3 (Nat.lt_succ_of_le h4) h5 h6]
  refine ⟨congrArg _ ?_, congrArg _ ?_, trivial, ?_, ?_⟩ <;> omega

/-- The fields of enc_J are its operands (rules R84, R98). -/
@[simp] theorem fields_encJ {op rd rs w n : Nat} (h0 : op < 64) (h1 : rd < 8) (h2 : rs < 8) (h3 : w < 4) (h4 : n < 128) :
    rdField (encJ op rd rs w n) = Fin.ofNat 8 rd ∧ rsField (encJ op rd rs w n) = Fin.ofNat 8 rs ∧
      wordBits (encJ op rd rs w n) 16 15 = w ∧ wordBits (encJ op rd rs w n) 23 17 = n := by
  simp only [rdField, rsField, regField, wordBits_eq, encJ_toNat h0 h1 h2 h3 h4]
  refine ⟨congrArg _ ?_, congrArg _ ?_, ?_, ?_⟩ <;> omega

/-- The fields of enc_M are its operands (rules R85, R98). -/
@[simp] theorem fields_encM {op rd l m r : Nat} (h0 : op < 64) (h1 : rd < 8) (h2 : l < 128) (h3 : m < 128) (h4 : r < 128) :
    rdField (encM op rd l m r) = Fin.ofNat 8 rd ∧ wordBits (encM op rd l m r) 15 9 = l ∧
      wordBits (encM op rd l m r) 22 16 = m ∧ wordBits (encM op rd l m r) 29 23 = r := by
  simp only [rdField, regField, wordBits_eq, encM_toNat h0 h1 h2 h3 h4]
  refine ⟨congrArg _ ?_, ?_, ?_, ?_⟩ <;> omega

/-! ## Decoding an encoding -/

/-- A well-formed command's word decodes to what the row of its opcode, at place k of the map, reads from it (rules R89, R97). -/
theorem decode_encode_of_read {i : Instr} (h : i.wellFormed = true) (k : Nat) (hk : k < opcodeMap.length)
    (hop : opField opcodeMap[k].pattern = opcodeOf i) (hread : opcodeMap[k].read (encode i) = i) :
    decode (encode i) = .ok i := by
  obtain ⟨r, hr, hrop, hf⟩ := fitsItsRow i h
  obtain rfl : r = opcodeMap[k] := row_unique hr (List.getElem_mem hk) (hrop.trans hop.symm)
  rw [decode_of_fits hr hf, hread]

/-- Settles O1, by the commands: the row of a command's opcode reads from the command's word each operand in its own field. -/
theorem decodeOfEncodeIsTheCommand : Obligations.DecodeOfEncodeIsTheCommand := by
  unfold Obligations.DecodeOfEncodeIsTheCommand
  intro i h
  cases i with
  | bsize rd ds => exact decode_encode_of_read h 0 (by decide) rfl (by simp [opcodeMap, encode])
  | bget rd ds rs => exact decode_encode_of_read h 1 (by decide) rfl (by simp [opcodeMap, encode])
  | bset ds rs rt => exact decode_encode_of_read h 2 (by decide) rfl (by simp [opcodeMap, encode])
  | mask rd l m r =>
    obtain ⟨⟨hl, hm⟩, hr⟩ : (l < 128 ∧ m < 128) ∧ r < 128 := by simpa [Instr.wellFormed] using h
    exact decode_encode_of_read h 3 (by decide) rfl (by simp [opcodeMap, encode, hl, hm, hr])
  | lji rd rs w n =>
    have hn : n < 128 := by simpa [Instr.wellFormed] using h
    exact decode_encode_of_read h 4 (by decide) rfl (by simp [opcodeMap, encode, code_lt, hn])
  | rji rd rs w n =>
    have hn : n < 128 := by simpa [Instr.wellFormed] using h
    exact decode_encode_of_read h 5 (by decide) rfl (by simp [opcodeMap, encode, code_lt, hn])
  | csize rd rs => exact decode_encode_of_read h 6 (by decide) rfl (by simp [opcodeMap, encode])
  | getbit rd ds rs => exact decode_encode_of_read h 7 (by decide) rfl (by simp [opcodeMap, encode])
  | setbit ds rs rt => exact decode_encode_of_read h 8 (by decide) rfl (by simp [opcodeMap, encode])
  | conv rd ds t =>
    exact decode_encode_of_read h 9 (by decide) rfl (by simp [opcodeMap, encode, code_lt, signCode_le_one])
  | fromint ds rs => exact decode_encode_of_read h 10 (by decide) rfl (by simp [opcodeMap, encode])
  | neg ds => exact decode_encode_of_read h 11 (by decide) rfl (by simp [opcodeMap, encode])
  | ival rd ds t len off =>
    obtain ⟨hlen, hoff⟩ : len < 128 ∧ off < 128 := by simpa [Instr.wellFormed] using h
    exact decode_encode_of_read h 12 (by decide) rfl (by simp [opcodeMap, encode, code_lt, signCode_le_one, hlen, hoff])
  | ljv ds => exact decode_encode_of_read h 13 (by decide) rfl (by simp [opcodeMap, encode])
  | rjv ds => exact decode_encode_of_read h 14 (by decide) rfl (by simp [opcodeMap, encode])
  | pack dd rs rt => exact decode_encode_of_read h 15 (by decide) rfl (by simp [opcodeMap, encode])
  | strb dd ds => exact decode_encode_of_read h 16 (by decide) rfl (by simp [opcodeMap, encode])
  | strh dd ds => exact decode_encode_of_read h 17 (by decide) rfl (by simp [opcodeMap, encode])

/-! ## A word from its fields -/

/-- A register field is the slice of its three bits (rules R11, R88). -/
theorem regField_val_eq_wordBits (w : Word) (lo : Nat) : (regField w lo).val = wordBits w (lo + 2) lo := by
  rw [regField_val, wordBits_eq, show lo + 2 + 1 - lo = 3 by omega, show 2 ^ 3 = 8 by rfl]

/-- The code of a type's width is bits 13:12 of its word (rules R83, R86). -/
theorem code_typeField (w : Word) : (typeField w).width.code = wordBits w 13 12 :=
  code_widthOfCode (Nat.mod_lt _ (by decide))

/-- The code of a width read from a 2-bit field is that field (rule R86). -/
theorem code_widthOfCode_wordBits (w : Word) {hi lo : Nat} (h : hi + 1 - lo = 2) :
    (widthOfCode (wordBits w hi lo)).code = wordBits w hi lo :=
  code_widthOfCode (by rw [wordBits_eq, h]; exact Nat.mod_lt _ (by decide))

section
variable {word : Word} {op rd ds rs rt dd w s len off n l m r : Nat}

/-- A word that is 0 above the fields of format R is enc_R of its fields (rules R82, R98). -/
theorem encR_eq (hop : wordBits word 5 0 = op) (hrd : wordBits word 8 6 = rd) (hds : wordBits word 11 9 = ds)
    (hrs : wordBits word 14 12 = rs) (hrt : wordBits word 17 15 = rt) (hdd : wordBits word 20 18 = dd)
    (hz : wordBits word 31 21 = 0) : encR op rd ds rs rt dd = word := by
  simp only [wordBits_eq, Nat.reduceAdd, Nat.reduceSub] at *
  apply BitVec.eq_of_toNat_eq
  rw [encR_toNat] <;> omega

/-- A word that is 0 above the fields of format C is enc_C of its fields (rules R83, R98). -/
theorem encC_eq (hop : wordBits word 5 0 = op) (hrd : wordBits word 8 6 = rd) (hds : wordBits word 11 9 = ds)
    (hw : wordBits word 13 12 = w) (hs : wordBits word 14 14 = s) (hlen : wordBits word 21 15 = len)
    (hoff : wordBits word 28 22 = off) (hz : wordBits word 31 29 = 0) : encC op rd ds w s len off = word := by
  simp only [wordBits_eq, Nat.reduceAdd, Nat.reduceSub] at *
  apply BitVec.eq_of_toNat_eq
  rw [encC_toNat] <;> omega

/-- A word that is 0 between and above the fields of format J is enc_J of its fields (rules R84, R98). -/
theorem encJ_eq (hop : wordBits word 5 0 = op) (hrd : wordBits word 8 6 = rd) (hgap : wordBits word 11 9 = 0)
    (hrs : wordBits word 14 12 = rs) (hw : wordBits word 16 15 = w) (hn : wordBits word 23 17 = n)
    (hz : wordBits word 31 24 = 0) : encJ op rd rs w n = word := by
  simp only [wordBits_eq, Nat.reduceAdd, Nat.reduceSub] at *
  apply BitVec.eq_of_toNat_eq
  rw [encJ_toNat] <;> omega

/-- A word that is 0 above the fields of format M is enc_M of its fields (rules R85, R98). -/
theorem encM_eq (hop : wordBits word 5 0 = op) (hrd : wordBits word 8 6 = rd) (hl : wordBits word 15 9 = l)
    (hm : wordBits word 22 16 = m) (hr : wordBits word 29 23 = r) (hz : wordBits word 31 30 = 0) :
    encM op rd l m r = word := by
  simp only [wordBits_eq, Nat.reduceAdd, Nat.reduceSub] at *
  apply BitVec.eq_of_toNat_eq
  rw [encM_toNat] <;> omega

end

/-- A field that a row fixes has the row's value in every word that fits the row (rules R89, R90). -/
theorem fixedField {row : OpcodeRow} {w : Word} (hf : row.fits w = true) {hi lo n : Nat}
    (h : wordBits row.mask hi lo = 2 ^ (hi + 1 - lo) - 1 ∧ wordBits row.pattern hi lo = n := by decide) :
    wordBits w hi lo = n := (wordBits_of_fits hf hi lo h.1).trans h.2

/-- A word that fits a row is the encoding of the command the row reads: every field of the row's format is an operand of the
command or is fixed by the row, and the bits outside the fields are fixed (rules R89, R90, R98). -/
theorem encode_read (w : Word) : ∀ row ∈ opcodeMap, row.fits w = true → encode (row.read w) = w := by
  have reg (lo : Nat) : wordBits w (lo + 2) lo = (regField w lo).val := (regField_val_eq_wordBits w lo).symm
  have width := (code_typeField w).symm
  have sign := (signCode_typeField w).symm
  have justifyWidth := (code_widthOfCode_wordBits w (hi := 16) (lo := 15) rfl).symm
  simp only [opcodeMap, List.forall_mem_cons, List.not_mem_nil, false_imp_iff, implies_true, and_true]
  refine ⟨?bsize, ?bget, ?bset, ?mask, ?lji, ?rji, ?csize, ?getbit, ?setbit, ?conv, ?fromint, ?neg, ?ival, ?ljv, ?rjv, ?pack,
    ?strb, ?strh⟩ <;> intro hf
  case bsize => exact encR_eq (fixedField hf) (reg 6) (reg 9) (fixedField hf) (fixedField hf) (fixedField hf) (fixedField hf)
  case bget | getbit => exact encR_eq (fixedField hf) (reg 6) (reg 9) (reg 12) (fixedField hf) (fixedField hf) (fixedField hf)
  case bset | setbit => exact encR_eq (fixedField hf) (fixedField hf) (reg 9) (reg 12) (reg 15) (fixedField hf) (fixedField hf)
  case mask => exact encM_eq (fixedField hf) (reg 6) rfl rfl rfl (fixedField hf)
  case lji | rji => exact encJ_eq (fixedField hf) (reg 6) (fixedField hf) (reg 12) justifyWidth rfl (fixedField hf)
  case csize => exact encR_eq (fixedField hf) (reg 6) (fixedField hf) (reg 12) (fixedField hf) (fixedField hf) (fixedField hf)
  case conv => exact encC_eq (fixedField hf) (reg 6) (reg 9) width sign (fixedField hf) (fixedField hf) (fixedField hf)
  case fromint => exact encR_eq (fixedField hf) (fixedField hf) (reg 9) (reg 12) (fixedField hf) (fixedField hf) (fixedField hf)
  case neg | ljv | rjv =>
    exact encR_eq (fixedField hf) (fixedField hf) (reg 9) (fixedField hf) (fixedField hf) (fixedField hf) (fixedField hf)
  case ival => exact encC_eq (fixedField hf) (reg 6) (reg 9) width sign rfl rfl (fixedField hf)
  case pack => exact encR_eq (fixedField hf) (fixedField hf) (fixedField hf) (reg 12) (reg 15) (reg 18) (fixedField hf)
  case strb | strh =>
    exact encR_eq (fixedField hf) (fixedField hf) (reg 9) (fixedField hf) (fixedField hf) (reg 18) (fixedField hf)

/-- Settles O2: the word fits a row, and is the encoding of what the row reads. -/
theorem encodeOfDecodeIsTheWord : Obligations.EncodeOfDecodeIsTheWord := by
  unfold Obligations.EncodeOfDecodeIsTheWord
  intro w i h
  refine ⟨wellFormed_of_decode h, ?_⟩
  obtain ⟨row, hrow, hf, rfl⟩ := fits_of_decode h
  exact encode_read w row hrow hf

/-! ## The formulas and the sample words -/

/-- Field S of a type, from its signedness (rules R15, R83). -/
theorem signCode_mk (w : IntWidth) (signed : Bool) : IntType.signCode ⟨w, signed⟩ = signed.toNat := by
  cases signed <;> rfl

/-- Settles O3: the formulas are the definitions, and each word the statement decodes is the encoding of its command (O1). -/
theorem encodingFormulasDecodeBack : Obligations.EncodingFormulasDecodeBack := by
  unfold Obligations.EncodingFormulasDecodeBack
  have back := decodeOfEncodeIsTheCommand
  refine ⟨fun _ _ _ _ _ _ => rfl, fun _ _ _ _ _ _ _ => rfl, fun _ _ _ _ _ => rfl, fun _ _ _ _ _ => rfl, ?formatR, ?formatC,
    ?formatJ, ?formatM⟩
  case formatR =>
    intro rd rs rt ds dd
    exact ⟨back (.bsize rd ds) rfl, back (.bget rd ds rs) rfl, back (.bset ds rs rt) rfl, back (.csize rd rs) rfl,
      back (.getbit rd ds rs) rfl, back (.setbit ds rs rt) rfl, back (.fromint ds rs) rfl, back (.neg ds) rfl,
      back (.ljv ds) rfl, back (.rjv ds) rfl, back (.pack dd rs rt) rfl, back (.strb dd ds) rfl, back (.strh dd ds) rfl⟩
  case formatC =>
    intro rd ds w signed len off hlen hoff
    rw [← signCode_mk w signed]
    exact ⟨back (.conv rd ds ⟨w, signed⟩) rfl, back (.ival rd ds ⟨w, signed⟩ len off) (by simp [Instr.wellFormed, hlen, hoff])⟩
  case formatJ =>
    intro rd rs w n hn
    exact ⟨back (.lji rd rs w n) (by simp [Instr.wellFormed, hn]), back (.rji rd rs w n) (by simp [Instr.wellFormed, hn])⟩
  case formatM =>
    intro rd l m r hl hm hr
    exact back (.mask rd l m r) (by simp [Instr.wellFormed, hl, hm, hr])

/-- Settles O5: each word is the encoding of its command, and decoding an encoding gives the command back (O1). -/
theorem sampleWordsDecode : Obligations.SampleWordsDecode := by
  unfold Obligations.SampleWordsDecode
  have back := decodeOfEncodeIsTheCommand
  exact ⟨back (.bget 1 2 3) rfl, back (.lji 1 2 .w8 3) rfl, back (.mask 1 1 3 4) rfl, back (.ival 2 1 ⟨.w16, false⟩ 7 3) rfl,
    back (.rjv 1) rfl, back (.pack 5 3 4) rfl, back (.strh 2 3) rfl⟩

/-! ## Words and rows -/

/-- A word fits a row when its bits under the row's mask are the row's match (rule R97). -/
theorem fits_iff {row : OpcodeRow} {w : Word} : row.fits w = true ↔ w &&& row.mask = row.pattern := by
  simp [OpcodeRow.fits]

/-- A word decodes to a command exactly when it fits a row of the map (rule R97). -/
theorem exists_decode_iff {w : Word} : (∃ i, decode w = .ok i) ↔ ∃ row ∈ opcodeMap, row.fits w = true := by
  constructor
  · rintro ⟨i, h⟩
    obtain ⟨row, hrow, hf, -⟩ := fits_of_decode h
    exact ⟨row, hrow, hf⟩
  · rintro ⟨row, hrow, hf⟩
    exact ⟨row.read w, decode_of_fits hrow hf⟩

/-- Settles O4: two rows that one word fits have the word's opcode both, and a row is found by its opcode. -/
theorem oneOpcodeRowPerCommandWord : Obligations.OneOpcodeRowPerCommandWord := by
  unfold Obligations.OneOpcodeRowPerCommandWord
  simp only [← fits_iff]
  refine ⟨fun w => exists_decode_iff, fun w r hr q hq hfr hfq => ?_⟩
  rw [row_unique hr hq ((opField_of_fits hr hfr).symm.trans (opField_of_fits hq hfq))]

/-! ## Illegal words -/

/-- A word that fits no row of its own opcode fits no row at all, and is no command (rules R81, R97). -/
theorem exists_decode_error {w : Word} (h : ∀ row ∈ opcodeMap, opField w = opField row.pattern → row.fits w ≠ true) :
    ∃ e, decode w = .error e := by
  cases hd : decode w with
  | error e => exact ⟨e, rfl⟩
  | ok i =>
    obtain ⟨row, hrow, hf⟩ := exists_decode_iff.mp ⟨i, hd⟩
    exact absurd hf (h row hrow (opField_of_fits hrow hf))

/-- In a ready state a CMD write of a word that is no command raises ILLEGAL with argument 0 and has no other effect (rules R90,
R91, R201, R203). -/
theorem step_of_decode_error {s : State} {w : Word} {rest : List Move} (hready : s.Ready)
    (hs : s.script = .writeReg cmdPort w :: rest) (hd : ∃ e, decode w = .error e) :
    step s = .next ({ s with script := rest }.withError w 0x01 0) := by
  obtain ⟨herr, hbusy⟩ := hready
  obtain ⟨e, he⟩ := hd
  have hissue : step s = issue w { s with script := rest } := by
    rw [step_writeReg hbusy hs, portReg_cmdPort, writePort]
  rcases issue_cases w { s with script := rest } with ⟨herr', -⟩ | ⟨-, -, hi⟩ | ⟨-, i, hi, -⟩
  · exact absurd (herr'.symm.trans herr) (by decide)
  · exact hissue.trans hi
  · cases he.symm.trans hi

/-- Rule R91's reserved values of OP. -/
def ReservedOp (op : Nat) : Prop :=
  op = 0x00 ∨ (0x04 ≤ op ∧ op ≤ 0x07) ∨ (0x0C ≤ op ∧ op ≤ 0x0F) ∨ op = 0x16 ∨ op = 0x17 ∨ (0x1A ≤ op ∧ op ≤ 0x1F) ∨
    (0x21 ≤ op ∧ op ≤ 0x27) ∨ (0x2A ≤ op ∧ op ≤ 0x3F)

/-- No row of the map has a reserved opcode (rules R89, R91). -/
theorem not_reservedOp_of_mem : ∀ row ∈ opcodeMap, ¬ReservedOp (opField row.pattern) := by
  unfold ReservedOp
  decide

/-- Settles O7: no row has a reserved opcode, so the word is no command. -/
theorem reservedOpcodesRaiseIllegal : Obligations.ReservedOpcodesRaiseIllegal := by
  unfold Obligations.ReservedOpcodesRaiseIllegal
  refine ⟨fun s w rest hready hs hop => ?_, rfl⟩
  have hres : ReservedOp (opField w) := hop
  exact step_of_decode_error hready hs
    (exists_decode_error fun row hrow hrop _ => not_reservedOp_of_mem row hrow (hrop ▸ hres))

/-- A row's match is 0 above OP (rule R89). -/
theorem pattern_above_op : ∀ row ∈ opcodeMap, row.pattern &&& 0xFFFFFFC0 = 0 := by decide

/-- Settles O8: the only row of the word's opcode asks for 0 in the bits of its mask above OP, so the word fits no row. -/
theorem nonzeroUnusedBitsRaiseIllegal : Obligations.NonzeroUnusedBitsRaiseIllegal := by
  unfold Obligations.NonzeroUnusedBitsRaiseIllegal
  refine ⟨fun s w rest r hready hs hr hop hbits => ?_, fun w => ?_⟩
  · refine step_of_decode_error hready hs (exists_decode_error fun row hrow hrop hf => hbits ?_)
    obtain rfl : row = r := row_unique hrow hr (hrop.symm.trans hop)
    rw [fits_iff.mp hf, pattern_above_op row hrow]
  · cases decode w with
    | error e => exact .inr ⟨e, rfl⟩
    | ok i => exact .inl ⟨i, rfl, fun j hj => (Except.ok.inj hj).symm⟩

end Sys2Proof.Proofs
end

section
/-!
PROOFS of the statements about the Byte View commands (spec/40_byteview.md). Each command is its plan, so it is enough to say what
the shared index check answers and what the effect after it does: a register write, or one byte stored at the index's address.
-/

namespace Sys2Proof.Proofs

open Sys2Proof.Machine Sys2Proof.Laws

/-! ## The end of a command, in the words of the statements -/

/-- A command whose plan raises records that error's number and argument (rules R200, R201, R203). -/
theorem exec_of_plan_raises {i : Instr} {s : State} {c : ErrorCode} {arg : Nat} (h : plan i s = .error ⟨c, arg⟩) :
    exec i s = .next (s.withError (encode i) c.number.toNat arg) := by
  rw [exec_of_plan_error h, State.withError, BitVec.ofNat_toNat, BitVec.setWidth_eq]
  rfl

/-- A command whose plan writes a data register changes that register alone (rule R200). -/
theorem exec_of_plan_setX {i : Instr} {s : State} {r : XReg} {v : Data} (h : plan i s = .ok (.setX r v)) :
    exec i s = .next (s.withX r v) := exec_of_plan_ok h

/-- Storing one byte is writing it. -/
theorem applyEffect_store_singleton (s : State) (a : Nat) (b : Byte) :
    s.applyEffect (.store [(a, b)]) = { s.writeByte a b with busy := false } := rfl

/-- zext_64 of the value of a pattern is the pattern zero-extended (rule R12). -/
theorem zext64_toNat {n : Nat} (b : BitVec n) : zext64 b.toNat = b.setWidth 64 := BitVec.ofNat_toNat 64 b

/-! ## A view of a descriptor register -/

/-- SIZE is bits 28:16 of the descriptor (rule R23). -/
theorem view_size (s : State) (ds : DReg) : (s.view ds).size = ((s.readD ds).extractLsb' 16 13).toNat := rfl

/-- ORDER is bit 29 of the descriptor, 1 for big-endian (rules R23, R26). -/
theorem view_order (s : State) (ds : DReg) :
    (s.view ds).order = if (s.readD ds).getLsbD 29 then .big else .little := rfl

section
variable {v : View} {n i : Nat}

/-- A little-endian view has logical byte i at BASE + i (rule R63). -/
theorem byteAddr_of_little (h : v.order = .little) : v.byteAddr n i = v.base + i := by
  rw [View.byteAddr, h, phys]

/-- A big-endian view has logical byte i mirrored, at BASE + n - 1 - i (rule R63). -/
theorem byteAddr_of_big (h : v.order = .big) (hi : i < n) : v.byteAddr n i = v.base + n - 1 - i := by
  rw [View.byteAddr, h, phys]
  omega

end

/-! ## The index check of BGET and BSET -/

section
variable {s : State} {v : View} {i : Nat}

/-- A view not inside MEM raises MEM_RANGE, whatever the index is (rules R112, R113, R204). -/
theorem byteIndexCheck_outside (hm : s.params.memSize < v.base + v.size) :
    byteIndexCheck s v i = .error ⟨.memRange, opndSource⟩ := by
  rw [byteIndexCheck, rangeCheck, ensure_of_not (Nat.not_le.mpr hm), error_bind]

/-- In a view inside MEM an index not below the size raises BYTE_RANGE (rules R112, R113, R205). -/
theorem byteIndexCheck_past (hm : s.HasBytes v v.size) (hi : v.size ≤ i) :
    byteIndexCheck s v i = .error ⟨.byteRange, sat32 i⟩ := by
  rw [byteIndexCheck, rangeCheck, ensure_of hm, ok_bind, ensure_of_not (Nat.not_lt.mpr hi)]

end

section
variable {s : State} {ds : DReg} {rs : XReg}

/-- What BGET does once its check passes (rule R112). -/
theorem exec_bget_of_check (rd : XReg) (h : byteIndexCheck s (s.view ds) (s.natX rs) = .ok ()) :
    exec (.bget rd ds rs) s =
      .next (s.withX rd ((s.readByte ((s.view ds).byteAddr (s.view ds).size (s.natX rs))).setWidth 64)) := by
  refine exec_of_plan_setX ?_
  rw [plan, planBget, h, ok_bind, bvGet, zext64_toNat]
  rfl

/-- What BSET does once its check passes (rules R66, R113). -/
theorem exec_bset_of_check (rt : XReg) (h : byteIndexCheck s (s.view ds) (s.natX rs) = .ok ()) :
    exec (.bset ds rs rt) s =
      .next { s.writeByte ((s.view ds).byteAddr (s.view ds).size (s.natX rs)) ((s.readX rt).setWidth 8) with busy := false } := by
  refine (exec_of_plan_ok ?_).trans (congrArg _ (applyEffect_store_singleton ..))
  rw [plan, planBset, h, ok_bind]
  rfl

/-- The error of the index check is the plan's error, for both commands that make it (rules R112, R113). -/
theorem plan_of_byteIndexCheck_error {e : CmdError} {i : Instr} {rd rt : XReg} (hi : i = .bget rd ds rs ∨ i = .bset ds rs rt)
    (h : byteIndexCheck s (s.view ds) (s.natX rs) = .error e) : plan i s = .error e := by
  rcases hi with rfl | rfl
  · rw [plan, planBget, h, error_bind]
  · rw [plan, planBset, h, error_bind]

end

/-! ## The statements -/

/-- Settles O14: BSIZE checks nothing, so its register write is all it does. -/
theorem bsizeReadsTheSizeField : Obligations.BsizeReadsTheSizeField := by
  unfold Obligations.BsizeReadsTheSizeField
  intro rd ds s
  refine exec_of_plan_setX ?_
  rw [plan, planBsize, view_size, zext64_toNat]

/-- Settles O15: BGET reads the index's address, and bit 29 of the descriptor says which of the two addresses that is. -/
theorem byteViewLaw : Obligations.ByteViewLaw := by
  unfold Obligations.ByteViewLaw
  intro rd ds rs s base size hm hi
  have hget := exec_bget_of_check (ds := ds) rd (byteIndexCheck_ok_iff.mpr ⟨hm, hi⟩)
  refine ⟨fun ho => ?_, fun ho => ?_⟩
  · have hlittle : (s.view ds).order = .little := by simp only [view_order, ho, Bool.false_eq_true, if_false]
    rwa [byteAddr_of_little hlittle] at hget
  · have hbig : (s.view ds).order = .big := by rw [view_order, if_pos ho]
    exact byteAddr_of_big hbig hi ▸ hget

/-- Settles O16: past its check BSET is one byte write, and a read after a write differs at the written address only. -/
theorem bsetStoresOneByte : Obligations.BsetStoresOneByte := by
  unfold Obligations.BsetStoresOneByte
  intro ds rs rt s hm hi
  exact ⟨_, exec_bset_of_check rt (byteIndexCheck_ok_iff.mpr ⟨hm, hi⟩), rfl, fun a => readByte_writeByte s _ a _⟩

/-- Settles O17: the two ways the shared index check fails, in its order. -/
theorem byteIndexErrors : Obligations.ByteIndexErrors := by
  unfold Obligations.ByteIndexErrors
  intro i rd ds rs rt s hcmd
  exact ⟨fun hm => exec_of_plan_raises (plan_of_byteIndexCheck_error hcmd (byteIndexCheck_outside hm)),
    fun hm hi => exec_of_plan_raises (plan_of_byteIndexCheck_error hcmd (byteIndexCheck_past hm hi))⟩

end Sys2Proof.Proofs
end

section
/-!
PROOFS of the statements about the primitives (spec/41_primitives.md). Each command is its plan, so it is enough to say which number
MASK, LJI, RJI and CSIZE write: the shifts of the pseudocode are products and quotients by powers of two, whose bits the library
gives. The inverse laws of R124 are then arithmetic of those quotients.
-/

namespace Sys2Proof.Proofs

open Sys2Proof.Machine Sys2Proof.Laws

/-! ## A number in a data register -/

/-- Bits 63:0 of a zero-extended number are its own (rule R12). -/
theorem getLsbD_zext64 (v j : Nat) : (zext64 v).getLsbD j = (decide (j < 64) && v.testBit j) := BitVec.getLsbD_ofNat ..

/-- Zero-extension loses nothing of a number below 2^64 (rule R12). -/
theorem toNat_zext64_of_lt {v : Nat} (h : v < 2 ^ 64) : (zext64 v).toNat = v := (BitVec.toNat_ofNat ..).trans (Nat.mod_eq_of_lt h)

/-- The register that a command writes reads as the value written (rule R13). -/
theorem natX_withX_self (s : State) (r : XReg) (v : Data) : (s.withX r v).natX r = v.toNat := by
  have hx : (s.withX r v).readX r = (s.writeX r v).readX r := readX_congr rfl r
  rw [State.natX, hx, readX_writeX, if_pos rfl]

/-- No integer type is wider than a data register (rules R8, R22, R86). -/
theorem bits_le_64 (w : IntWidth) : w.bits ≤ 64 := by cases w <;> decide

/-! ## MASK -/

/-- The word that MASK writes has ones at bits r to r + m - 1 (rule R120). -/
theorem getLsbD_maskWord {m r : Nat} (h : r + m ≤ 64) (j : Nat) :
    (zext64 ((2 ^ m - 1) <<< r)).getLsbD j = decide (r ≤ j ∧ j < r + m) := by
  rw [getLsbD_zext64, Nat.testBit_shiftLeft, Nat.testBit_two_pow_sub_one, ← Bool.decide_and, ← Bool.decide_and]
  exact decide_eq_decide.mpr (by omega)

/-- The sums that MASK takes are those of an integer type's width (rules R8, R120). -/
theorem mem_twidths {k : Nat} : k ∈ Config.twidths ↔ k = 8 ∨ k = 16 ∨ k = 32 ∨ k = 64 := by simp

/-- Settles O18: the sum of the three widths passes MASK's check or is its error's argument; one that passes is at most 64, so no
bit of the mask is cut off. -/
theorem maskSetsTheMiddleBits : Obligations.MaskSetsTheMiddleBits := by
  unfold Obligations.MaskSetsTheMiddleBits
  intro rd l m r s
  refine ⟨fun hsum => ⟨_, exec_of_plan_setX ?_, getLsbD_maskWord (by omega)⟩, fun hsum => exec_of_plan_raises (c := .maskWidth) ?_⟩
  · rw [plan, planMask, ensure_of (mem_twidths.mpr hsum), ok_bind]
    rfl
  · rw [plan, planMask, ensure_of_not (mt mem_twidths.mp hsum), error_bind]

/-! ## Justified numbers -/

section
variable {w n : Nat}

/-- Shifting left in w bits until n bits are left moves the low n bits up (rule R121). -/
theorem justifyLeft_eq (h : n ≤ w) (x : Nat) : (x % 2 ^ w) <<< (w - n) % 2 ^ w = x % 2 ^ n * 2 ^ (w - n) :=
  calc (x % 2 ^ w) <<< (w - n) % 2 ^ w
      = x % 2 ^ w * 2 ^ (w - n) % (2 ^ n * 2 ^ (w - n)) := by rw [Nat.shiftLeft_eq, pow_mul_pow_sub 2 h]
    _ = x % 2 ^ w % 2 ^ n * 2 ^ (w - n) := Nat.mul_mod_mul_right ..
    _ = x % 2 ^ n * 2 ^ (w - n) := by rw [Nat.mod_mod_of_dvd x (pow_dvd_pow 2 h)]

/-- Shifting w bits right until n bits are left moves the top n bits down (rule R122). -/
theorem justifyRight_eq (h : n ≤ w) (x : Nat) : (x % 2 ^ w) >>> (w - n) = x / 2 ^ (w - n) % 2 ^ n := by
  rw [Nat.shiftRight_eq_div_pow, ← pow_mul_pow_sub 2 h, Nat.mod_mul_left_div_self]

/-- A left-justified number fits in w bits (rule R121). -/
theorem justifyLeft_lt (h : n ≤ w) (x : Nat) : x % 2 ^ n * 2 ^ (w - n) < 2 ^ w := by
  rw [← pow_mul_pow_sub 2 h]
  exact Nat.mul_lt_mul_of_pos_right (Nat.mod_lt _ (Nat.two_pow_pos n)) (Nat.two_pow_pos _)

/-- A right-justified number fits in w bits (rule R122). -/
theorem justifyRight_lt (h : n ≤ w) (x : Nat) : x / 2 ^ (w - n) % 2 ^ n < 2 ^ w :=
  (Nat.mod_lt _ (Nat.two_pow_pos n)).trans_le (Nat.pow_le_pow_right (by decide) h)

/-- Right-justifying a left-justified number gives its low n bits (rule R124). -/
theorem justifyRight_justifyLeft (w n x : Nat) : x % 2 ^ n * 2 ^ (w - n) / 2 ^ (w - n) % 2 ^ n = x % 2 ^ n := by
  rw [Nat.mul_div_cancel _ (Nat.two_pow_pos _), Nat.mod_mod]

/-- Left-justifying a right-justified number below 2^w clears its low w - n bits (rule R124). -/
theorem justifyLeft_justifyRight (h : n ≤ w) {x : Nat} (hx : x < 2 ^ w) :
    x / 2 ^ (w - n) % 2 ^ n % 2 ^ n * 2 ^ (w - n) = x - x % 2 ^ (w - n) := by
  have hq : x / 2 ^ (w - n) < 2 ^ n := Nat.div_lt_of_lt_mul (by rwa [pow_sub_mul_pow 2 h])
  rw [Nat.mod_mod, Nat.mod_eq_of_lt hq, Nat.div_mul_self_eq_mod_sub_self]

end

/-! ## LJI and RJI -/

section
variable {w : IntWidth} {n : Nat}

/-- A number below 2^w is held by a data register whole (rules R8, R12). -/
theorem toNat_zext64_of_lt_bits {v : Nat} (h : v < 2 ^ w.bits) : (zext64 v).toNat = v :=
  toNat_zext64_of_lt (h.trans_le (Nat.pow_le_pow_right (by decide) (bits_le_64 w)))

/-- What LJI does for a count within the width (rule R121). -/
theorem exec_lji_of_le (h : n ≤ w.bits) (rd rs : XReg) (s : State) :
    exec (.lji rd rs w n) s = .next (s.withX rd (zext64 (s.natX rs % 2 ^ n * 2 ^ (w.bits - n)))) := by
  refine exec_of_plan_setX ?_
  rw [plan, planLji, ensure_of h, ok_bind, State.lowX, justifyLeft_eq h]
  rfl

/-- What RJI does for a count within the width (rule R122). -/
theorem exec_rji_of_le (h : n ≤ w.bits) (rd rs : XReg) (s : State) :
    exec (.rji rd rs w n) s = .next (s.withX rd (zext64 (s.natX rs / 2 ^ (w.bits - n) % 2 ^ n))) := by
  refine exec_of_plan_setX ?_
  rw [plan, planRji, ensure_of h, ok_bind, State.lowX, justifyRight_eq h]
  rfl

/-- A count above the width is JUSTIFY_WIDTH's argument, for both commands that take one (rules R121, R122). -/
theorem exec_justify_of_lt {i : Instr} {rd rs : XReg} (hi : i = .lji rd rs w n ∨ i = .rji rd rs w n) (h : w.bits < n) (s : State) :
    exec i s = .next (s.withError (encode i) 0x0C n) := by
  refine exec_of_plan_raises (c := .justifyWidth) ?_
  rcases hi with rfl | rfl
  · rw [plan, planLji, ensure_of_not (Nat.not_le.mpr h), error_bind]
  · rw [plan, planRji, ensure_of_not (Nat.not_le.mpr h), error_bind]

end

/-- Settles O19: bit j of a left-justified number is bit j - (w - n) of its low n bits, and no such bit is past the register. -/
theorem ljiMovesTheLowBitsUp : Obligations.LjiMovesTheLowBitsUp := by
  unfold Obligations.LjiMovesTheLowBitsUp
  intro rd rs w n s
  refine ⟨fun hn => ⟨_, exec_lji_of_le hn rd rs s, fun j => ?_⟩, fun hn => exec_justify_of_lt (.inl rfl) hn s⟩
  have hw := bits_le_64 w
  have hrange : ((j < 64 ∧ w.bits - n ≤ j) ∧ j - (w.bits - n) < n) ↔ (w.bits - n ≤ j ∧ j < w.bits) := by omega
  rw [getLsbD_zext64, Nat.testBit_mul_two_pow, Nat.testBit_mod_two_pow, State.natX, BitVec.testBit_toNat, ← Bool.and_assoc,
    ← Bool.and_assoc, ← Bool.decide_and, ← Bool.decide_and, decide_eq_decide.mpr hrange]

/-- Settles O20: bit j of a right-justified number is bit j + (w - n) of the source for j below n, and n is at most 64. -/
theorem rjiMovesTheTopBitsDown : Obligations.RjiMovesTheTopBitsDown := by
  unfold Obligations.RjiMovesTheTopBitsDown
  intro rd rs w n s
  refine ⟨fun hn => ⟨_, exec_rji_of_le hn rd rs s, fun j => ?_⟩, fun hn => exec_justify_of_lt (.inr rfl) hn s⟩
  have hw := bits_le_64 w
  have hrange : (j < 64 ∧ j < n) ↔ j < n := by omega
  rw [getLsbD_zext64, Nat.testBit_mod_two_pow, Nat.testBit_div_two_pow, State.natX, BitVec.testBit_toNat, ← Bool.and_assoc,
    ← Bool.decide_and, decide_eq_decide.mpr hrange]

/-- Settles O21: both intermediate values fit in w bits, so the second command reads what the first one computed. -/
theorem integerJustifyInverseLaws : Obligations.IntegerJustifyInverseLaws := by
  unfold Obligations.IntegerJustifyInverseLaws
  intro rd re rs w n s hn hx
  refine ⟨⟨_, _, exec_lji_of_le hn rd rs s, exec_rji_of_le hn re rd _, ?_⟩,
    ⟨_, _, exec_rji_of_le hn rd rs s, exec_lji_of_le hn re rd _, ?_⟩⟩
  · rw [natX_withX_self, toNat_zext64_of_lt_bits (justifyRight_lt hn _), natX_withX_self,
      toNat_zext64_of_lt_bits (justifyLeft_lt hn _), justifyRight_justifyLeft]
  · rw [natX_withX_self, toNat_zext64_of_lt_bits (justifyLeft_lt hn _), natX_withX_self,
      toNat_zext64_of_lt_bits (justifyRight_lt hn _), justifyLeft_justifyRight hn hx]

/-! ## CSIZE -/

/-- ceil8 is division by 8 rounded up (rule R10). -/
theorem ceil8_eq (k : Nat) : ceil8 k = k / 8 + (if k % 8 = 0 then 0 else 1) := by
  rw [ceil8, Nat.shiftRight_eq_div_pow]
  split <;> omega

/-- Settles O22: the quotient of a 64-bit number rounded up is far below 2^64. -/
theorem csizeRoundsUp : Obligations.CsizeRoundsUp := by
  unfold Obligations.CsizeRoundsUp
  intro rd rs s
  refine ⟨_, exec_of_plan_setX rfl, ?_⟩
  have hx : s.natX rs < 2 ^ 64 := (s.readX rs).isLt
  have hfits : ceil8 (s.natX rs) < 2 ^ 64 := by
    rw [ceil8_eq]
    split <;> omega
  rw [toNat_zext64_of_lt hfits, ceil8_eq]

end Sys2Proof.Proofs
end

section
/-!
PROOFS of the statements about the Bit View commands (spec/42_bitview.md). All nine commands of rule R140 begin with bv_check, so it
is enough to say what that check and the two parameter checks after it answer, and what each effect does: a register write, one byte
stored, or WriteRaw of the whole view. The values are compared as bit vectors, of which the library knows sign extension and negation.
-/

namespace Sys2Proof.Proofs

open Sys2Proof.Machine Sys2Proof.Laws

/-! ## The checks -/

/-- The error of the view's check is the plan's error, for every command that makes it first (rule R140). -/
theorem plan_of_bvCheck_error {i : Instr} {ds : DReg} {s : State} {e : CmdError} (hi : bitViewSource i = some ds)
    (h : bvCheck s (s.view ds) opndSource = .error e) : plan i s = .error e := by
  cases i with
  | bsize | bget | bset | mask | lji | rji | csize | pack | strh => cases hi
  | getbit | setbit => cases hi; simp only [plan, planGetbit, planSetbit, bitIndexCheck, h, error_bind]
  | conv | ival => cases hi; simp only [plan, planConv, planIval, h, error_bind]
  | fromint | neg => cases hi; simp only [plan, planFromint, planNeg, h, error_bind]
  | ljv | rjv => cases hi; simp only [plan, planLjv, planRjv, bigEndianCheck, h, error_bind]
  | strb => cases hi; simp only [plan, planStrb, h, error_bind]

section
variable {s : State} {v : View} {i : Nat}

/-- A legal bit view passes its check (rule R140). -/
theorem bvCheck_of_hasBitView (h : s.HasBitView v) (k : Nat) : bvCheck s v k = .ok () := bvCheck_ok_iff.mpr h

/-- In a legal view an index below N_bits passes the index check (rules R141, R142). -/
theorem bitIndexCheck_of_lt (h : s.HasBitView v) (hi : i < v.size) : bitIndexCheck s v i = .ok () :=
  bitIndexCheck_ok_iff.mpr ⟨h, hi⟩

/-- In a legal view an index not below N_bits raises BIT_RANGE (rules R141, R142, R205). -/
theorem bitIndexCheck_past (h : s.HasBitView v) (hi : v.size ≤ i) : bitIndexCheck s v i = .error ⟨.bitRange, sat32 i⟩ := by
  rw [bitIndexCheck, bvCheck_of_hasBitView h, ok_bind, ensure_of_not (Nat.not_lt.mpr hi)]

end

/-- The error of the index check is the plan's error, for both commands that make it (rules R141, R142). -/
theorem plan_of_bitIndexCheck_error {i : Instr} {rd rs rt : XReg} {ds : DReg} {s : State} {e : CmdError}
    (hi : i = .getbit rd ds rs ∨ i = .setbit ds rs rt) (h : bitIndexCheck s (s.view ds) (s.natX rs) = .error e) :
    plan i s = .error e := by
  rcases hi with rfl | rfl
  · rw [plan, planGetbit, h, error_bind]
  · rw [plan, planSetbit, h, error_bind]

/-! ## The state after WriteRaw -/

/-- The state s after a command that writes r to all the bytes of the view v (rules R69, R200). -/
def withRaw (s : State) (v : View) (r : Nat) : State := { s with mem := s.mem.storeAll (writeRaw v r), busy := false }

/-- A command whose effect is WriteRaw changes the view's bytes alone (rules R69, R200). -/
theorem exec_of_plan_writeRaw {i : Instr} {s : State} {v : View} {r : Nat} (h : plan i s = .ok (.store (writeRaw v r))) :
    exec i s = .next (withRaw s v r) := exec_of_plan_ok h

section
variable (s : State) (v : View) (r : Nat)

/-- WriteRaw changes MEM alone (rule R69). -/
theorem onlyMem_withRaw : s.OnlyMem (withRaw s v r) := rfl

/-- WriteRaw changes the view's bytes alone (rule R69). -/
theorem sameOutside_withRaw : s.SameOutside (withRaw s v r) v.base v.nbytes := sameOutside_writeRaw rfl rfl

variable {r}

/-- WriteRaw then VRaw (rules R67, R69). -/
theorem vRaw_withRaw (hr : r < 2 ^ (8 * v.nbytes)) : vRaw (withRaw s v r) v = r := vRaw_writeRaw rfl hr

/-- WriteRaw then VVal (rules R68, R69). -/
theorem vVal_withRaw (hr : r < 2 ^ (8 * v.nbytes)) : vVal (withRaw s v r) v = r % 2 ^ v.size := by
  rw [vVal, vRaw_withRaw s v hr]

end

/-! ## What each command does once its checks pass -/

section
variable {s : State} {ds : DReg} (h : s.HasBitView (s.view ds))
include h

/-- What GETBIT does (rule R141). -/
theorem exec_getbit_of_lt {rs : XReg} (rd : XReg) (hi : s.natX rs < (s.view ds).size) :
    exec (.getbit rd ds rs) s = .next (s.withX rd (zext64 (vBit s (s.view ds) (s.natX rs)))) := by
  refine exec_of_plan_setX ?_
  rw [plan, planGetbit, bitIndexCheck_of_lt h hi]
  rfl

/-- What SETBIT does: one byte is written back with its bit changed (rule R142). -/
theorem exec_setbit_of_lt {rs : XReg} (rt : XReg) (hi : s.natX rs < (s.view ds).size) :
    exec (.setbit ds rs rt) s =
      .next { s.writeByte ((s.view ds).byteAddr (s.view ds).nbytes (s.natX rs / 8))
        (withBit (bvGet s (s.view ds) (s.view ds).nbytes (s.natX rs / 8)) (s.natX rs) (s.readX rt != 0)) with busy := false } := by
  refine (exec_of_plan_ok ?_).trans (congrArg _ (applyEffect_store_singleton ..))
  rw [plan, planSetbit, bitIndexCheck_of_lt h hi, Nat.shiftRight_eq_div_pow]
  rfl

/-- What CONV does for a view no wider than the type (rule R143). -/
theorem exec_conv_of_le {t : IntType} (rd : XReg) (ht : (s.view ds).size ≤ t.width.bits) :
    exec (.conv rd ds t) s = .next (s.withX rd (convValue (s.view ds).size (vVal s (s.view ds)) t.signed)) := by
  refine exec_of_plan_setX ?_
  rw [plan, planConv, bvCheck_of_hasBitView h, ok_bind, ensure_of ht]
  rfl

/-- What FROMINT does (rule R144). -/
theorem exec_fromint (rs : XReg) :
    exec (.fromint ds rs) s = .next (withRaw s (s.view ds) (s.natX rs % 2 ^ (s.view ds).size)) := by
  refine exec_of_plan_writeRaw ?_
  rw [plan, planFromint, bvCheck_of_hasBitView h]
  rfl

/-- What NEG does: notting all 8 * N_bytes bits and adding 1 subtracts the raw value from 2^(8 * N_bytes) (rule R145). -/
theorem exec_neg :
    exec (.neg ds) s = .next (withRaw s (s.view ds)
      ((2 ^ (8 * (s.view ds).nbytes) - vRaw s (s.view ds)) % 2 ^ (8 * (s.view ds).nbytes))) := by
  have hraw := vRaw_lt s (s.view ds)
  have hnot : notN (8 * (s.view ds).nbytes) (vRaw s (s.view ds)) + 1 =
      2 ^ (8 * (s.view ds).nbytes) - vRaw s (s.view ds) := by
    rw [notN]
    omega
  refine exec_of_plan_writeRaw ?_
  rw [plan, planNeg, bvCheck_of_hasBitView h, ok_bind, ← hnot]
  rfl

/-- What IVAL does for a field inside the view and no longer than the type (rule R146). -/
theorem exec_ival_of_le {t : IntType} {len off : Nat} (rd : XReg) (hl : len ≤ t.width.bits)
    (ho : len + off ≤ (s.view ds).size) :
    exec (.ival rd ds t len off) s =
      .next (s.withX rd (ivalValue t.width.bits ((vVal s (s.view ds) >>> off) % 2 ^ len) t.signed)) := by
  refine exec_of_plan_setX ?_
  rw [plan, planIval, bvCheck_of_hasBitView h, ok_bind, ensure_of ⟨hl, ho⟩]
  rfl

end

/-! ## Operand errors -/

/-- Settles O23: the two ways bv_check fails, in its order. -/
theorem bitViewOperandErrors : Obligations.BitViewOperandErrors := by
  unfold Obligations.BitViewOperandErrors
  intro i ds s hi
  exact ⟨fun hw => exec_of_plan_raises (plan_of_bvCheck_error hi (bvCheck_wide hw)),
    fun hs hm => exec_of_plan_raises (plan_of_bvCheck_error hi (bvCheck_outside hs hm))⟩

/-- Settles O26: the view's check passes, so the index check raises. -/
theorem bitIndexErrors : Obligations.BitIndexErrors := by
  unfold Obligations.BitIndexErrors
  intro i rd ds rs rt s hcmd h hi
  exact exec_of_plan_raises (plan_of_bitIndexCheck_error hcmd (bitIndexCheck_past h hi))

/-- Settles O28: the view's check passes, so the check of the command's own parameter raises. -/
theorem convAndIvalParameterErrors : Obligations.ConvAndIvalParameterErrors := by
  unfold Obligations.ConvAndIvalParameterErrors
  intro rd ds t len off s h
  refine ⟨fun ht => exec_of_plan_raises (c := .widthMismatch) ?_, fun hfield => exec_of_plan_raises (c := .intervalRange) ?_⟩
  · rw [plan, planConv, bvCheck_of_hasBitView h, ok_bind, ensure_of_not (Nat.not_le.mpr ht), error_bind]
  · have hnot : ¬(len ≤ t.width.bits ∧ len + off ≤ (s.view ds).size) := by omega
    rw [plan, planIval, bvCheck_of_hasBitView h, ok_bind, ensure_of_not hnot, error_bind]

/-! ## GETBIT and SETBIT -/

/-- A bit as a number in a data register (rules R12, R141). -/
theorem zext64_toNat_bool (b : Bool) : zext64 b.toNat = if b then 1 else 0 := by cases b <;> rfl

/-- Settles O24: VBit is the logical bit as a number. -/
theorem getbitReadsOneBit : Obligations.GetbitReadsOneBit := by
  unfold Obligations.GetbitReadsOneBit
  intro rd ds rs s h hi
  rw [exec_getbit_of_lt h rd hi, vBit_eq, zext64_toNat_bool, State.rawBit]

/-- bit_flag(i) has the one bit i mod 8 (rule R142). -/
theorem getLsbD_bitFlag (i j : Nat) : (bitFlag i).getLsbD j = decide (j = i % 8) := by
  rw [bitFlag, BitVec.getLsbD_ofNat, Nat.one_shiftLeft, Nat.testBit_two_pow, ← Bool.decide_and]
  exact decide_eq_decide.mpr (by omega)

/-- The byte that SETBIT writes back differs from the old one in bit i mod 8 alone (rule R142). -/
theorem getLsbD_withBit (b : Byte) (i : Nat) (set : Bool) {j : Nat} (hj : j < 8) :
    (withBit b i set).getLsbD j = if j = i % 8 then set else b.getLsbD j := by
  cases set with
  | true =>
    rw [withBit, if_pos rfl, BitVec.getLsbD_or, getLsbD_bitFlag]
    by_cases h : j = i % 8 <;> simp [h]
  | false =>
    rw [withBit, if_neg Bool.false_ne_true, BitVec.getLsbD_and, BitVec.getLsbD_not, getLsbD_bitFlag, decide_eq_true hj]
    by_cases h : j = i % 8 <;> simp [h]

/-- A data register is not 0 exactly when its number is not. -/
theorem readX_bne_zero (s : State) (r : XReg) : (s.readX r != 0) = decide (s.natX r ≠ 0) := by
  rw [Bool.eq_iff_iff, bne_iff_ne, decide_eq_true_eq, State.natX, ne_eq, ne_eq, ← BitVec.toNat_inj]
  rfl

/-- Settles O25: a bit k of the view is in the written byte exactly when k / 8 = i / 8, and is then bit k mod 8 of it. -/
theorem setbitWritesOneBit : Obligations.SetbitWritesOneBit := by
  unfold Obligations.SetbitWritesOneBit
  intro ds rs rt s h hi
  refine ⟨_, exec_setbit_of_lt h rt hi, rfl, fun a ha => (readByte_writeByte s _ a _).trans (if_neg ha), fun k hk => ?_⟩
  have hsize := size_le_nbytes (s.view ds)
  have haddr := byteAddr_inj (s.view ds) (n := (s.view ds).nbytes) (i := k / 8) (j := s.natX rs / 8) (by omega) (by omega)
  have hbit : k / 8 = s.natX rs / 8 → (k = s.natX rs ↔ k % 8 = s.natX rs % 8) := by omega
  refine (congrArg (fun b : Byte => b.getLsbD (k % 8)) (readByte_writeByte s _ _ _)).trans ?_
  by_cases hbyte : k / 8 = s.natX rs / 8
  · simp only [if_true, getLsbD_withBit _ _ _ (Nat.mod_lt k (by decide)), hbit hbyte, readX_bne_zero,
      State.rawBit, hbyte]
  · have hne : k ≠ s.natX rs := fun e => hbyte (e ▸ rfl)
    simp only [mt haddr.mp hbyte, hne, if_false, State.rawBit, bvGet]

/-! ## CONV -/

/-- The signed integer of a bit pattern (rule R12). -/
theorem sint_toNat {n : Nat} (x : BitVec n) : sint n x.toNat = x.toInt := by
  rw [sint, BitVec.testBit_toNat, ← BitVec.msb_eq_getLsbD_last, BitVec.toInt_eq_msb_cond]
  split
  next h0 =>
    subst h0
    simp [BitVec.of_length_zero]
  next => push_cast; rfl

/-- sext_{n->64} of the value of a pattern is the pattern sign-extended (rule R12). -/
theorem sext64_toNat {n : Nat} (x : BitVec n) : sext64 n x.toNat = x.signExtend 64 := by
  rw [sext64, sint_toNat, BitVec.signExtend]

/-- CONV extends the view's pattern as the type's signedness says (rule R143). -/
theorem convValue_toNat {n : Nat} (x : BitVec n) (signed : Bool) :
    convValue n x.toNat signed = if signed then x.signExtend 64 else x.setWidth 64 := by
  rw [convValue, BitVec.testBit_toNat, ← BitVec.msb_eq_getLsbD_last, sext64_toNat, zext64_toNat]
  cases signed with
  | false => rfl
  | true =>
    cases hm : x.msb with
    | false => simp [BitVec.signExtend_eq_setWidth_of_msb_false hm]
    | true =>
      have hn : 0 < n := Nat.pos_of_ne_zero fun h0 => by subst h0; simp [BitVec.of_length_zero] at hm
      simp [hn]

/-- VVal is the number of an N_bits-bit pattern (rule R68). -/
theorem exists_toNat_eq_vVal (s : State) (v : View) : ∃ x : BitVec v.size, x.toNat = vVal s v :=
  ⟨BitVec.ofNat v.size (vVal s v), (BitVec.toNat_ofNat ..).trans (Nat.mod_eq_of_lt (vVal_lt s v))⟩

/-- The bits of that pattern are the view's logical bits (rule R68). -/
theorem getLsbD_of_toNat_eq_vVal {s : State} {v : View} {x : BitVec v.size} (hx : x.toNat = vVal s v) (j : Nat) :
    x.getLsbD j = (decide (j < v.size) && s.rawBit v v.nbytes j) := by
  rw [← BitVec.testBit_toNat, hx, testBit_vVal]

/-- The sign of that pattern is logical bit N_bits - 1 (rule R143). -/
theorem msb_of_toNat_eq_vVal {s : State} {v : View} {x : BitVec v.size} (hx : x.toNat = vVal s v) :
    x.msb = (decide (0 < v.size) && s.rawBit v v.nbytes (v.size - 1)) := by
  rw [BitVec.msb_eq_getLsbD_last, getLsbD_of_toNat_eq_vVal hx]
  congr 1
  exact decide_eq_decide.mpr (by omega)

/-- Settles O27: the N_bits-bit pattern is extended, and extension keeps its number, or its signed integer. -/
theorem convGivesTheLogicalValue : Obligations.ConvGivesTheLogicalValue := by
  unfold Obligations.ConvGivesTheLogicalValue
  intro rd ds t s h ht
  have hsize : (s.view ds).size ≤ 64 := h.1
  obtain ⟨x, hx⟩ := exists_toNat_eq_vVal s (s.view ds)
  refine ⟨_, exec_conv_of_le h rd ht, ?_⟩
  rw [← hx, convValue_toNat]
  refine ⟨fun hs => ?_, fun hs => ?_⟩
  · rw [hs, if_neg Bool.false_ne_true, BitVec.toNat_setWidth_of_le hsize]
  · rw [hs, if_pos rfl, BitVec.toInt_signExtend_of_le hsize, BitVec.toInt_eq_msb_cond, msb_of_toNat_eq_vVal hx]
    simp only [Bool.and_eq_true, decide_eq_true_eq, Nat.cast_pow, Nat.cast_ofNat]

/-! ## The source's conversion -/

/-- Shifting in the low k bytes puts them below the accumulator (rule R143, "Source algorithm"). -/
theorem convShiftIn_eq (s : State) (v : View) (k acc : Nat) :
    convShiftIn s v k acc = 2 ^ (8 * k) * acc + rawSum s v v.nbytes k := by
  induction k generalizing acc with
  | zero => simp [convShiftIn, rawSum]
  | succ k ih =>
    have hb : (bvGet s v v.nbytes k).toNat < 2 ^ 8 := (bvGet s v v.nbytes k).isLt
    rw [convShiftIn, ih, rawSum, ← Nat.shiftLeft_add_eq_or_of_lt hb, Nat.shiftLeft_eq, Nat.shiftLeft_eq,
      Nat.mul_succ 8 k, Nat.pow_add]
    ring

/-- not_n turns each of the n bits over (rule R10). -/
theorem testBit_notN {n a : Nat} (ha : a < 2 ^ n) (i : Nat) : (notN n a).testBit i = (decide (i < n) && !a.testBit i) := by
  rw [notN, Nat.sub_sub, Nat.add_comm 1 a, Nat.testBit_two_pow_sub_succ ha]

/-- padding_mask has the top N_padding bits of a byte (rule R25). -/
theorem testBit_paddingMask (v : View) (i : Nat) :
    v.paddingMask.testBit i = (decide (i < 8) && !decide (i < 8 - v.npadding)) := by
  obtain ⟨-, hpad⟩ := size_add_npadding v
  rw [View.paddingMask, Nat.testBit_shiftLeft, Nat.testBit_two_pow_sub_one, ← Bool.decide_and, ← decide_not, ← Bool.decide_and]
  exact decide_eq_decide.mpr (by omega)

/-- padding_mask is a byte (rule R25). -/
theorem paddingMask_lt (v : View) : v.paddingMask < 2 ^ 8 :=
  Nat.lt_pow_two_of_testBit _ fun i hi => by rw [testBit_paddingMask, decide_eq_false (Nat.not_lt.mpr hi), Bool.false_and]

/-- The top byte that the source's conversion starts from: its logical bits, and above them the sign it was given (rule R143). -/
theorem testBit_convTopByte (v : View) (b : Byte) (negative : Bool) (i : Nat) :
    (convTopByte v.paddingMask b.toNat negative).testBit i =
      (decide (i < 8) && if i < 8 - v.npadding then b.getLsbD i else negative) := by
  have hout (h : ¬i < 8) : b.getLsbD i = false := BitVec.getLsbD_of_ge b i (Nat.not_lt.mp h)
  have hmask := testBit_paddingMask v i
  cases negative with
  | true =>
    rw [convTopByte, if_pos rfl, Nat.testBit_or, hmask, BitVec.testBit_toNat]
    by_cases hp : i < 8 - v.npadding
    · simp [hp, (by omega : i < 8)]
    · by_cases hi : i < 8 <;> simp [hp, hi, hout]
  | false =>
    rw [convTopByte, if_neg Bool.false_ne_true, Nat.testBit_and, testBit_notN (paddingMask_lt v), hmask, BitVec.testBit_toNat]
    by_cases hp : i < 8 - v.npadding <;> simp [hp]

/-- The bits of the source's conversion: the view's logical bits, and the sign in the padding above them (rule R143). -/
theorem testBit_convSource {s : State} {v : View} (hv : 0 < v.size) (signed : Bool) (j : Nat) :
    (convSource s v signed).testBit j = (decide (j < 8 * v.nbytes) &&
      if j < v.size then s.rawBit v v.nbytes j else signed && s.rawBit v v.nbytes (v.size - 1)) := by
  obtain ⟨hsum, hpad⟩ := size_add_npadding v
  have hsign : (vBit s v (v.size - 1) == 1) = s.rawBit v v.nbytes (v.size - 1) := by
    rw [vBit_eq]
    cases s.rawBit v v.nbytes (v.size - 1) <;> rfl
  rw [convSource, hsign, convShiftIn_eq, Nat.testBit_two_pow_mul_add _ (rawSum_lt ..), testBit_rawSum, testBit_convTopByte]
  by_cases hlow : j < 8 * (v.nbytes - 1)
  · have hsize : j < v.size := by omega
    have hbytes : j < 8 * v.nbytes := by omega
    simp [hlow, hsize, hbytes]
  · have hbyte : j - 8 * (v.nbytes - 1) < 8 ↔ j < 8 * v.nbytes := by omega
    have hlogical : j - 8 * (v.nbytes - 1) < 8 - v.npadding ↔ j < v.size := by omega
    have htop (h : j < v.size) : s.rawBit v v.nbytes j = (bvGet s v v.nbytes (v.nbytes - 1)).getLsbD (j - 8 * (v.nbytes - 1)) := by
      rw [State.rawBit, show j / 8 = v.nbytes - 1 by omega, show j % 8 = j - 8 * (v.nbytes - 1) by omega]
    simp only [hlow, if_false, hbyte, hlogical]
    by_cases hsize : j < v.size
    · simp only [hsize, if_true, htop hsize]
    · simp only [hsize, if_false]

/-- The bits of CONV's pattern: the view's logical bits, and the sign above them (rule R143). -/
theorem getLsbD_convValue (s : State) (v : View) (signed : Bool) {j : Nat} (hj : j < 64) :
    (convValue v.size (vVal s v) signed).getLsbD j =
      if j < v.size then s.rawBit v v.nbytes j else signed && (decide (0 < v.size) && s.rawBit v v.nbytes (v.size - 1)) := by
  obtain ⟨x, hx⟩ := exists_toNat_eq_vVal s v
  rw [← hx, convValue_toNat, ← msb_of_toNat_eq_vVal hx]
  cases signed with
  | true =>
    rw [if_pos rfl, BitVec.getLsbD_signExtend, getLsbD_of_toNat_eq_vVal hx]
    by_cases h : j < v.size <;> simp [h, hj]
  | false =>
    rw [if_neg Bool.false_ne_true, BitVec.getLsbD_setWidth, getLsbD_of_toNat_eq_vVal hx]
    by_cases h : j < v.size <;> simp [h, hj]

/-- Settles O29: the two have the same logical bits and the same sign above them. -/
theorem sourceConversionAgrees : Obligations.SourceConversionAgrees := by
  unfold Obligations.SourceConversionAgrees
  intro rd ds t s h hv ht
  have hlegal : (s.view ds).size ≤ 64 := h.1
  refine ⟨_, exec_conv_of_le h rd ht, Nat.eq_of_testBit_eq fun j => ?_⟩
  obtain ⟨hsum, hpad⟩ := size_add_npadding (s.view ds)
  rw [natX_withX_self, Nat.testBit_mod_two_pow, testBit_convSource hv, BitVec.testBit_toNat]
  by_cases hj : j < 8 * (s.view ds).nbytes
  · rw [getLsbD_convValue _ _ _ (by omega), decide_eq_true hv, Bool.true_and]
  · rw [decide_eq_false hj, Bool.false_and, Bool.false_and]

/-! ## FROMINT and NEG -/

/-- A number of N_bits bits fits in N_bytes bytes (rule R25). -/
theorem mod_size_lt (v : View) (x : Nat) : x % 2 ^ v.size < 2 ^ (8 * v.nbytes) :=
  (Nat.mod_lt _ (Nat.two_pow_pos _)).trans_le (Nat.pow_le_pow_right (by decide) (size_le_nbytes v))

/-- Settles O30: WriteRaw of a number of N_bits bits, which the view's bytes hold whole. -/
theorem fromintWritesTheLowBits : Obligations.FromintWritesTheLowBits := by
  unfold Obligations.FromintWritesTheLowBits
  intro ds rs s h
  exact ⟨_, exec_fromint h rs, onlyMem_withRaw _ _ _, sameOutside_withRaw _ _ _, vRaw_withRaw _ _ (mod_size_lt ..)⟩

/-- Negation modulo 2^m is negation modulo 2^n of the low n bits, for n up to m. -/
theorem neg_mod_two_pow {n m r : Nat} (hn : n ≤ m) (hr : r ≤ 2 ^ m) :
    (2 ^ m - r) % 2 ^ m % 2 ^ n = (2 ^ n - r % 2 ^ n) % 2 ^ n := by
  have hdvd : 2 ^ n ∣ 2 ^ m := pow_dvd_pow 2 hn
  have hlow : r % 2 ^ n ≤ 2 ^ n := (Nat.mod_lt r (Nat.two_pow_pos n)).le
  have hsum : 2 ^ m - r + r ≡ 2 ^ n - r % 2 ^ n + r [MOD 2 ^ n] :=
    calc 2 ^ m - r + r = 2 ^ m := Nat.sub_add_cancel hr
      _ ≡ 2 ^ n [MOD 2 ^ n] := (Nat.modEq_zero_iff_dvd.mpr hdvd).trans (Nat.modEq_zero_iff_dvd.mpr dvd_rfl).symm
      _ = 2 ^ n - r % 2 ^ n + r % 2 ^ n := (Nat.sub_add_cancel hlow).symm
      _ ≡ 2 ^ n - r % 2 ^ n + r [MOD 2 ^ n] := (Nat.mod_modEq r _).add_left _
  rw [Nat.mod_mod_of_dvd _ hdvd]
  exact Nat.ModEq.add_right_cancel' r hsum

/-- After NEG the logical value is negated modulo 2^N_bits, whatever the padding held (rule R145). -/
theorem vVal_neg (s : State) (v : View) :
    vVal (withRaw s v ((2 ^ (8 * v.nbytes) - vRaw s v) % 2 ^ (8 * v.nbytes))) v = (2 ^ v.size - vVal s v) % 2 ^ v.size := by
  rw [vVal_withRaw _ _ (Nat.mod_lt _ (Nat.two_pow_pos _)), neg_mod_two_pow (size_le_nbytes v) (vRaw_lt s v).le, vVal]

/-- Settles O31: WriteRaw of the negated raw value, and its low N_bits bits. -/
theorem negNegatesInPlace : Obligations.NegNegatesInPlace := by
  unfold Obligations.NegNegatesInPlace
  intro ds s h
  exact ⟨_, exec_neg h, onlyMem_withRaw _ _ _, sameOutside_withRaw _ _ _, vRaw_withRaw _ _ (Nat.mod_lt _ (Nat.two_pow_pos _)),
    vVal_neg ..⟩

/-! ## IVAL -/

/-- The bits of IVAL's pattern for a field p of len bits: p's own, and its top bit above them when p fills a signed type (rule
R146). -/
theorem getLsbD_ivalValue {w len p j : Nat} (hp : p < 2 ^ len) (hl : len ≤ w) (hw : w ≤ 64) (h0 : 0 < w) (signed : Bool)
    (hj : j < 64) :
    (ivalValue w p signed).getLsbD j =
      if j < len then p.testBit j else signed && decide (len = w) && p.testBit (len - 1) := by
  have hhigh (k : Nat) (hk : len ≤ k) : p.testBit k = false :=
    Nat.testBit_lt_two_pow (hp.trans_le (Nat.pow_le_pow_right (by decide) hk))
  cases signed with
  | false =>
    rw [ivalValue, if_neg Bool.false_ne_true, getLsbD_zext64, decide_eq_true hj, Bool.true_and]
    split
    next => rfl
    next hlen => exact hhigh j (Nat.not_lt.mp hlen)
  | true =>
    rw [ivalValue, if_pos rfl, getLsbD_sext64 (hp.trans_le (Nat.pow_le_pow_right (by decide) hl)) hw hj]
    by_cases hfull : len = w
    · subst hfull
      simp [h0]
    · have hbelow : len ≤ w - 1 := by omega
      by_cases hlen : j < len
      · simp [hlen, show j < w by omega]
      · simp [hlen, hfull, hhigh j (Nat.not_lt.mp hlen), hhigh _ hbelow]

/-- No integer type has width 0 (rules R8, R86). -/
theorem bits_pos (w : IntWidth) : 0 < w.bits := by cases w <;> decide

/-- Settles O32: bit j of the field is logical bit OFF + j, and so its top bit is logical bit OFF + LEN - 1. -/
theorem ivalExtractsTheField : Obligations.IvalExtractsTheField := by
  unfold Obligations.IvalExtractsTheField
  intro rd ds t len off s h hl ho
  have hfield (k : Nat) (hk : k < len) : ((vVal s (s.view ds) >>> off) % 2 ^ len).testBit k =
      s.rawBit (s.view ds) (s.view ds).nbytes (off + k) := by
    have hsize : off + k < (s.view ds).size := by omega
    simp only [Nat.testBit_mod_two_pow, Nat.testBit_shiftRight, testBit_vVal, hk, hsize, decide_true, Bool.true_and]
  have hpos := bits_pos t.width
  refine ⟨_, exec_ival_of_le h rd hl ho, fun j hj => ?_⟩
  rw [getLsbD_ivalValue (Nat.mod_lt _ (Nat.two_pow_pos len)) hl (bits_le_64 _) hpos _ hj]
  split
  next hlen => exact hfield j hlen
  next =>
    by_cases hfull : len = t.width.bits
    · rw [hfield (len - 1) (by omega), Nat.add_sub_assoc (by omega)]
    · simp only [hfull, decide_false, Bool.and_false, Bool.false_and]

/-! ## The laws of R147 -/

/-- The register that a command writes reads as the value written (rule R13). -/
theorem readX_withX_self (s : State) (r : XReg) (v : Data) : (s.withX r v).readX r = v :=
  BitVec.eq_of_toNat_eq (natX_withX_self s r v)

/-- A view as wide as an integer type is legal when its bytes lie inside MEM (rules R8, R140). -/
theorem hasBitView_of_size {s : State} {v : View} {w : IntWidth} (h : s.HasBytes v v.nbytes) (hs : v.size = w.bits) :
    s.HasBitView v := ⟨hs ▸ bits_le_64 w, h⟩

/-- After FROMINT to a view of w bits the logical value is the low w bits of the register (rules R144, R147). -/
theorem vVal_fromint {s : State} {v : View} {w : Nat} (rs : XReg) (hs : v.size = w) :
    vVal (withRaw s v (s.natX rs % 2 ^ v.size)) v = ((s.readX rs).setWidth w).toNat := by
  rw [vVal_withRaw _ _ (mod_size_lt ..), Nat.mod_mod, hs, BitVec.toNat_setWidth, State.natX]

/-- CONV of a view that was just written (rule R143). -/
theorem exec_conv_withRaw {s : State} {ds : DReg} {t : IntType} (h : s.HasBitView (s.view ds)) (rd : XReg)
    (ht : (s.view ds).size ≤ t.width.bits) (v : View) (r : Nat) :
    exec (.conv rd ds t) (withRaw s v r) =
      .next ((withRaw s v r).withX rd (convValue (s.view ds).size (vVal (withRaw s v r) (s.view ds)) t.signed)) :=
  exec_conv_of_le (s := withRaw s v r) h rd ht

/-- R147 (a): FROMINT then CONV. -/
theorem conv_after_fromint {s : State} {ds : DReg} {t : IntType} (rd rs : XReg)
    (h : s.HasBytes (s.view ds) (s.view ds).nbytes) (hs : (s.view ds).size = t.width.bits) :
    ∃ u v, exec (.fromint ds rs) s = .next u ∧ exec (.conv rd ds t) u = .next v ∧
      v.readX rd = if t.signed then ((s.readX rs).setWidth t.width.bits).signExtend 64
        else ((s.readX rs).setWidth t.width.bits).setWidth 64 := by
  have hview := hasBitView_of_size h hs
  refine ⟨_, _, exec_fromint hview rs, exec_conv_withRaw hview rd hs.le _ _, ?_⟩
  rw [readX_withX_self, vVal_fromint rs hs, hs, convValue_toNat]

/-- NEG then CONV to the signed type, for a view that holds the pattern x (rules R143, R145). -/
theorem conv_after_neg {s : State} {ds : DReg} {w : IntWidth} {x : BitVec w.bits} (rd : XReg) (h : s.HasBitView (s.view ds))
    (hs : (s.view ds).size = w.bits) (hx : vVal s (s.view ds) = x.toNat) :
    ∃ v z, exec (.neg ds) s = .next v ∧ exec (.conv rd ds ⟨w, true⟩) v = .next z ∧ z.readX rd = (-x).signExtend 64 := by
  refine ⟨_, _, exec_neg h, exec_conv_withRaw h rd hs.le _ _, ?_⟩
  rw [readX_withX_self, vVal_neg, hx, hs, ← BitVec.toNat_neg, convValue_toNat, if_pos rfl]

/-- R147 (b): FROMINT, NEG, CONV to the signed type. -/
theorem conv_after_neg_after_fromint {s : State} {ds : DReg} {w : IntWidth} (rd rs : XReg)
    (h : s.HasBytes (s.view ds) (s.view ds).nbytes) (hs : (s.view ds).size = w.bits) :
    ∃ u v z, exec (.fromint ds rs) s = .next u ∧ exec (.neg ds) u = .next v ∧ exec (.conv rd ds ⟨w, true⟩) v = .next z ∧
      z.readX rd = (-(s.readX rs).setWidth w.bits).signExtend 64 := by
  have hview := hasBitView_of_size h hs
  obtain ⟨v, z, hneg, hconv, hval⟩ := conv_after_neg (s := withRaw s (s.view ds) _) rd hview hs (vVal_fromint rs hs)
  exact ⟨_, v, z, exec_fromint hview rs, hneg, hconv, hval⟩

/-- The negation of a pattern stands for the negated integer, but for the most negative one, which stays (rule R147 (b)). -/
theorem toInt_neg_cases {w : Nat} (hw : 0 < w) (x : BitVec w) :
    (x.toInt ≠ -2 ^ (w - 1) → (-x).toInt = -x.toInt) ∧ (x.toInt = -2 ^ (w - 1) → (-x).toInt = -2 ^ (w - 1)) := by
  rw [← BitVec.toInt_intMin_of_pos hw, ne_eq, BitVec.toInt_inj, BitVec.toInt_inj]
  exact ⟨BitVec.toInt_neg_of_ne_intMin, fun h => by rw [h, BitVec.neg_intMin]⟩

section
variable {s : State} {v w : View} (hb : ∀ i, i < v.nbytes → bvGet s v v.nbytes i = bvGet s w w.nbytes i)
include hb

/-- Equal logical bytes of views of one size give equal logical values (rule R68). -/
theorem vVal_of_logicalBytes (hs : v.size = w.size) : vVal s v = vVal s w := by
  have hn : v.nbytes = w.nbytes := by rw [View.nbytes, View.nbytes, hs]
  rw [vVal, vVal, vRaw, vRaw, hs, rawSum_congr hb, hn]

/-- Equal logical bytes give equal logical bits (rule R68). -/
theorem vBit_of_logicalBytes {i : Nat} (hi : i < v.size) : vBit s v i = vBit s w i := by
  rw [vBit, vBit, hb _ (byteOfBit_lt_nbytes hi)]

end

/-- Settles O33: (a) and (b) follow the logical value through the commands, and (c) holds because GETBIT, CONV and IVAL see a view
through VBit and VVal only. -/
theorem bitViewLaws : Obligations.BitViewLaws := by
  unfold Obligations.BitViewLaws
  refine ⟨fun rd ds rs t s h hs => conv_after_fromint rd rs h hs, fun rd ds rs w s h hs => ?_,
    fun rd da db rs t len off s ha hb hsize hbytes => ?_⟩
  · obtain ⟨u, v, z, hu, hv, hz, hval⟩ := conv_after_neg_after_fromint rd rs h hs
    have hcases := toInt_neg_cases (bits_pos w) ((s.readX rs).setWidth w.bits)
    have hint := congrArg BitVec.toInt hval
    rw [BitVec.toInt_signExtend_of_le (bits_le_64 w)] at hint
    rw [← hint] at hcases
    exact ⟨u, v, z, hu, hv, hz, hval, hcases⟩
  · have hn : (s.view da).nbytes = (s.view db).nbytes := by rw [View.nbytes, View.nbytes, hsize]
    have hlogical : ∀ i, i < (s.view da).nbytes →
        bvGet s (s.view da) (s.view da).nbytes i = bvGet s (s.view db) (s.view db).nbytes i := hn ▸ hbytes
    have hval := vVal_of_logicalBytes hlogical hsize
    refine ⟨fun hi => ?_, fun ht => ?_, fun hl ho => ?_⟩
    · rw [exec_getbit_of_lt ha rd hi, exec_getbit_of_lt hb rd (hsize ▸ hi), vBit_of_logicalBytes hlogical hi]
    · rw [exec_conv_of_le ha rd ht, exec_conv_of_le hb rd (hsize ▸ ht), hval, hsize]
    · rw [exec_ival_of_le ha rd hl ho, exec_ival_of_le hb rd hl (hsize ▸ ho), hval]

end Sys2Proof.Proofs
end

section
/-!
PROOFS of the statements about the justification commands (spec/43_justify.md). Both commands are WriteRaw of a shifted raw value, so
a logical byte of the result is known from its bits in VRaw, and the inverse laws of R172 are arithmetic of the two raw values.
-/

namespace Sys2Proof.Proofs

open Sys2Proof.Machine Sys2Proof.Laws

/-! ## What LJV and RJV do -/

section
variable {s : State} {v : View} (h : s.HasBitView v)
include h

/-- A big-endian legal view passes the check of LJV and RJV (rules R170, R171). -/
theorem bigEndianCheck_of_big (ho : v.order = .big) : bigEndianCheck s v = .ok () := bigEndianCheck_ok_iff.mpr ⟨h, ho⟩

/-- A little-endian legal view raises ORDER (rules R170, R171). -/
theorem bigEndianCheck_little (ho : v.order = .little) : bigEndianCheck s v = .error ⟨.order, opndSource⟩ := by
  have hbig : ¬v.order = .big := by rw [ho]; decide
  rw [bigEndianCheck, bvCheck_of_hasBitView h, ok_bind, ensure_of_not hbig]

end

section
variable {s : State} {ds : DReg} (h : s.HasBitView (s.view ds))
include h

/-- What LJV does to a big-endian view (rule R170). -/
theorem exec_ljv (ho : (s.view ds).order = .big) :
    exec (.ljv ds) s = .next (withRaw s (s.view ds)
      (vRaw s (s.view ds) * 2 ^ (s.view ds).npadding % 2 ^ (8 * (s.view ds).nbytes))) := by
  refine exec_of_plan_writeRaw ?_
  rw [plan, planLjv, bigEndianCheck_of_big h ho, ok_bind, Nat.shiftLeft_eq]
  rfl

/-- What RJV does to a big-endian view (rule R171). -/
theorem exec_rjv (ho : (s.view ds).order = .big) :
    exec (.rjv ds) s = .next (withRaw s (s.view ds) (vRaw s (s.view ds) / 2 ^ (s.view ds).npadding)) := by
  refine exec_of_plan_writeRaw ?_
  rw [plan, planRjv, bigEndianCheck_of_big h ho, ok_bind, Nat.shiftRight_eq_div_pow]
  rfl

/-- Both commands refuse a little-endian view (rules R170, R171). -/
theorem exec_justify_little {i : Instr} (hi : i = .ljv ds ∨ i = .rjv ds) (ho : (s.view ds).order = .little) :
    exec i s = .next (s.withError (encode i) 0x04 0) := by
  refine exec_of_plan_raises (c := .order) ?_
  rcases hi with rfl | rfl
  · rw [plan, planLjv, bigEndianCheck_little h ho, error_bind, opndSource]
  · rw [plan, planRjv, bigEndianCheck_little h ho, error_bind, opndSource]

end

/-! ## The raw values -/

/-- WriteRaw leaves the descriptors as they were (rule R69). -/
@[simp] theorem view_withRaw (s : State) (v : View) (r : Nat) (ds : DReg) : (withRaw s v r).view ds = s.view ds := rfl

section
variable (s : State) (v : View)

/-- Shifting the raw value left by the padding loses the padding bits: what is left is the logical value, moved up (rules R68,
R170). -/
theorem vRaw_shiftLeft_eq : vRaw s v * 2 ^ v.npadding % 2 ^ (8 * v.nbytes) = vVal s v * 2 ^ v.npadding := by
  obtain ⟨hsum, -⟩ := size_add_npadding v
  rw [← hsum, Nat.pow_add, Nat.mul_mod_mul_right, vVal]

/-- Shifted right by the padding, the raw value has N_bits bits (rule R171). -/
theorem vRaw_shiftRight_lt : vRaw s v / 2 ^ v.npadding < 2 ^ v.size := by
  obtain ⟨hsum, -⟩ := size_add_npadding v
  refine Nat.div_lt_of_lt_mul ?_
  rw [← Nat.pow_add, Nat.add_comm, hsum]
  exact vRaw_lt s v

/-- A value of N_bits bits fits in the view's bytes (rule R25). -/
theorem lt_two_pow_nbytes {r : Nat} (hr : r < 2 ^ v.size) : r < 2 ^ (8 * v.nbytes) :=
  hr.trans_le (Nat.pow_le_pow_right (by decide) (size_le_nbytes v))

/-- The raw value after LJV (rule R170). -/
theorem vRaw_after_ljv :
    vRaw (withRaw s v (vRaw s v * 2 ^ v.npadding % 2 ^ (8 * v.nbytes))) v =
      vRaw s v * 2 ^ v.npadding % 2 ^ (8 * v.nbytes) :=
  vRaw_withRaw s v (Nat.mod_lt _ (Nat.two_pow_pos _))

/-- The raw value after RJV (rule R171). -/
theorem vRaw_after_rjv : vRaw (withRaw s v (vRaw s v / 2 ^ v.npadding)) v = vRaw s v / 2 ^ v.npadding :=
  vRaw_withRaw s v (lt_two_pow_nbytes v (vRaw_shiftRight_lt s v))

end

/-! ## The logical bytes -/

/-- Bit j of logical byte i is bit 8i + j of the raw value (rule R67). -/
theorem testBit_bvGet (s : State) {v : View} {i : Nat} (hi : i < v.nbytes) (j : Nat) :
    (bvGet s v v.nbytes i).toNat.testBit j = (decide (j < 8) && (vRaw s v).testBit (8 * i + j)) := by
  rw [bvGet_eq_of_vRaw s v hi, BitVec.testBit_toNat, BitVec.getLsbD_ofNat, Nat.testBit_shiftRight]

/-- Two states hold the same bytes of a view exactly when they give it the same raw value (rule R67). -/
theorem bvGet_eq_iff_vRaw_eq {s t : State} {v : View} :
    (∀ i, i < v.nbytes → bvGet t v v.nbytes i = bvGet s v v.nbytes i) ↔ vRaw t v = vRaw s v :=
  ⟨rawSum_congr, fun hraw i hi => by rw [bvGet_eq_of_vRaw t v hi, bvGet_eq_of_vRaw s v hi, hraw]⟩

section
variable {v : View} {p i : Nat} (hp : p < 8) (hi : i < v.nbytes)
include hp hi

/-- What a byte takes in when the view is shifted left by p bits: its bits below p, from the byte below it (rule R170). -/
theorem testBit_takenFromBelow (s : State) (j : Nat) :
    (if i = 0 then 0 else (bvGet s v v.nbytes (i - 1)).toNat >>> (8 - p)).testBit j =
      (decide (p ≤ 8 * i + j ∧ j < p) && (vRaw s v).testBit (8 * i + j - p)) := by
  split
  next h0 => rw [Nat.zero_testBit, decide_eq_false (by omega), Bool.false_and]
  next h0 =>
    have hrange : 8 - p + j < 8 ↔ p ≤ 8 * i + j ∧ j < p := by omega
    rw [Nat.testBit_shiftRight, testBit_bvGet s (by omega), decide_eq_decide.mpr hrange,
      show 8 * (i - 1) + (8 - p + j) = 8 * i + j - p by omega]

/-- What a byte takes in when the view is shifted right by p bits: its top p bits, from the byte above it (rule R171). -/
theorem testBit_takenFromAbove (s : State) (j : Nat) :
    (if i + 1 = v.nbytes then 0 else ((bvGet s v v.nbytes (i + 1)).toNat <<< (8 - p)) % 2 ^ 8).testBit j =
      (decide (j < 8 ∧ 8 - p ≤ j) && (vRaw s v).testBit (8 * i + j + p)) := by
  split
  next htop =>
    have hpast : 8 - p ≤ j → ¬8 * i + j + p < 8 * v.nbytes := by omega
    rw [Nat.zero_testBit, testBit_vRaw]
    by_cases hj : 8 - p ≤ j <;> simp [hj, hpast]
  next htop =>
    rw [Nat.testBit_mod_two_pow, Nat.testBit_shiftLeft, testBit_bvGet s (by omega)]
    by_cases hj : j < 8 ∧ 8 - p ≤ j
    · simp [hj, show j - (8 - p) < 8 by omega, show 8 * (i + 1) + (j - (8 - p)) = 8 * i + j + p by omega]
    · rw [decide_eq_false hj, Bool.false_and, ← Bool.and_assoc, ← Bool.decide_and, decide_eq_false hj, Bool.false_and]

variable {s t : State}

/-- The bytes of a raw value shifted left by p bits (rule R170): bit j is the byte's own bit j - p, or one taken in. -/
theorem bvGet_of_vRaw_shiftLeft (hraw : vRaw t v = vRaw s v * 2 ^ p % 2 ^ (8 * v.nbytes)) :
    (bvGet t v v.nbytes i).toNat =
      (((bvGet s v v.nbytes i).toNat <<< p) |||
        (if i = 0 then 0 else (bvGet s v v.nbytes (i - 1)).toNat >>> (8 - p))) % 2 ^ 8 := by
  refine Nat.eq_of_testBit_eq fun j => ?_
  rw [testBit_bvGet t hi, hraw, Nat.testBit_mod_two_pow, Nat.testBit_mul_two_pow, Nat.testBit_mod_two_pow, Nat.testBit_or,
    Nat.testBit_shiftLeft, testBit_bvGet s hi, testBit_takenFromBelow hp hi]
  by_cases hj : j < 8
  · have hview : 8 * i + j < 8 * v.nbytes := by omega
    by_cases hown : p ≤ j
    · simp [hj, hview, hown, show p ≤ 8 * i + j by omega, show j - p < 8 by omega, show ¬j < p by omega,
        show 8 * i + j - p = 8 * i + (j - p) by omega]
    · simp [hj, hview, hown, show j < p by omega]
  · simp only [hj, decide_false, Bool.false_and]

/-- The bytes of a raw value shifted right by p bits (rule R171): bit j is the byte's own bit p + j, or one taken in. -/
theorem bvGet_of_vRaw_shiftRight (hraw : vRaw t v = vRaw s v / 2 ^ p) :
    (bvGet t v v.nbytes i).toNat =
      ((bvGet s v v.nbytes i).toNat >>> p) |||
        (if i + 1 = v.nbytes then 0 else ((bvGet s v v.nbytes (i + 1)).toNat <<< (8 - p)) % 2 ^ 8) := by
  refine Nat.eq_of_testBit_eq fun j => ?_
  rw [testBit_bvGet t hi, hraw, Nat.testBit_div_two_pow, Nat.testBit_or, Nat.testBit_shiftRight, testBit_bvGet s hi,
    testBit_takenFromAbove hp hi, show 8 * i + (p + j) = 8 * i + j + p by omega]
  have hrange : j < 8 ↔ p + j < 8 ∨ (j < 8 ∧ 8 - p ≤ j) := by omega
  rw [← Bool.and_or_distrib_right, ← Bool.decide_or, ← decide_eq_decide.mpr hrange]

end

/-! ## The statements -/

/-- Settles O34: WriteRaw of the raw value shifted left, read byte by byte. -/
theorem ljvShiftsEveryByteLeft : Obligations.LjvShiftsEveryByteLeft := by
  unfold Obligations.LjvShiftsEveryByteLeft
  intro ds s h
  obtain ⟨-, hpad⟩ := size_add_npadding (s.view ds)
  have hraw := vRaw_after_ljv s (s.view ds)
  exact ⟨fun ho => ⟨_, exec_ljv h ho, onlyMem_withRaw _ _ _, sameOutside_withRaw _ _ _, hraw,
    fun _ hi => bvGet_of_vRaw_shiftLeft hpad hi hraw⟩, exec_justify_little h (.inl rfl)⟩

/-- Settles O35: WriteRaw of the raw value shifted right, read byte by byte. -/
theorem rjvShiftsEveryByteRight : Obligations.RjvShiftsEveryByteRight := by
  unfold Obligations.RjvShiftsEveryByteRight
  intro ds s h
  obtain ⟨-, hpad⟩ := size_add_npadding (s.view ds)
  have hraw := vRaw_after_rjv s (s.view ds)
  exact ⟨fun ho => ⟨_, exec_rjv h ho, onlyMem_withRaw _ _ _, sameOutside_withRaw _ _ _, hraw,
    fun _ hi => bvGet_of_vRaw_shiftRight hpad hi hraw⟩, exec_justify_little h (.inr rfl)⟩

/-- R172 (a): LJV then RJV leaves the logical value as the raw value. -/
theorem rjv_after_ljv {s : State} {ds : DReg} (h : s.HasBitView (s.view ds)) (ho : (s.view ds).order = .big) :
    ∃ t u, exec (.ljv ds) s = .next t ∧ exec (.rjv ds) t = .next u ∧ vRaw u (s.view ds) = vVal s (s.view ds) := by
  refine ⟨_, _, exec_ljv h ho, exec_rjv (s := withRaw s (s.view ds) _) h ho, (vRaw_after_rjv _ _).trans ?_⟩
  rw [view_withRaw, vRaw_after_ljv, vRaw_shiftLeft_eq, Nat.mul_div_cancel _ (Nat.two_pow_pos _)]

/-- R172 (b): RJV then LJV clears the low N_padding bits of the raw value. -/
theorem ljv_after_rjv {s : State} {ds : DReg} (h : s.HasBitView (s.view ds)) (ho : (s.view ds).order = .big) :
    ∃ t u, exec (.rjv ds) s = .next t ∧ exec (.ljv ds) t = .next u ∧
      vRaw u (s.view ds) = vRaw s (s.view ds) / 2 ^ (s.view ds).npadding * 2 ^ (s.view ds).npadding := by
  refine ⟨_, _, exec_rjv h ho, exec_ljv (s := withRaw s (s.view ds) _) h ho, (vRaw_after_ljv _ _).trans ?_⟩
  rw [view_withRaw, vRaw_shiftLeft_eq, vVal, vRaw_after_rjv, Nat.mod_eq_of_lt (vRaw_shiftRight_lt ..)]

/-- Settles O36: the bytes are the same exactly when the raw values are, and the two pairs give the raw values of R172 (a), (b). -/
theorem justifyInverseLaws : Obligations.JustifyInverseLaws := by
  unfold Obligations.JustifyInverseLaws
  intro ds s h ho
  obtain ⟨t, u, ht, hu, hval⟩ := rjv_after_ljv h ho
  obtain ⟨t', u', ht', hu', hraw⟩ := ljv_after_rjv h ho
  refine ⟨⟨t, u, ht, hu, ?_⟩, ⟨t', u', ht', hu', ?_⟩⟩
  · have hkept : vVal u (s.view ds) = vVal s (s.view ds) := by rw [vVal, hval, Nat.mod_eq_of_lt (vVal_lt ..)]
    refine ⟨hkept, hval.trans hkept.symm, ?_⟩
    rw [bvGet_eq_iff_vRaw_eq, hval, vVal, Nat.mod_eq_iff_lt (Nat.two_pow_pos _).ne', Nat.div_eq_zero_iff_lt (Nat.two_pow_pos _)]
  · have hsplit := Nat.div_add_mod' (vRaw s (s.view ds)) (2 ^ (s.view ds).npadding)
    rw [bvGet_eq_iff_vRaw_eq, hraw]
    omega

end Sys2Proof.Proofs
end

section
/-!
PROOFS of the statements about PACK (spec/44_packer.md). Its checks raise stage by stage, so each error follows from the stages before
it; its effect is a run of bytes that holds the concatenated value, from which a field's bits are read back by division. The scan of
R183 is followed by an invariant: after m bits with the value c its cursor is a function of m and c alone.
-/

namespace Sys2Proof.Proofs

open Sys2Proof.Machine Sys2Proof.Laws

/-! ## The field table -/

/-- Entry j as a word: its four bytes, the one at the lowest address least significant (rule R180). -/
def entryWord (s : State) (ta j : Nat) : Word :=
  s.readByte (ta + 4 * j + 3) ++ s.readByte (ta + 4 * j + 2) ++ s.readByte (ta + 4 * j + 1) ++ s.readByte (ta + 4 * j)

/-- A byte appended below a number. -/
theorem toNat_append_byte {n : Nat} (x : BitVec n) (b : Byte) : (x ++ b).toNat = x.toNat * 2 ^ 8 + b.toNat := by
  rw [BitVec.toNat_append, ← Nat.shiftLeft_add_eq_or_of_lt b.isLt, Nat.shiftLeft_eq]

/-- Four bytes as one number, the last one appended least significant. -/
theorem toNat_append_bytes (a b c d : Byte) :
    (a ++ b ++ c ++ d).toNat = d.toNat + c.toNat * 2 ^ 8 + b.toNat * 2 ^ 16 + a.toNat * 2 ^ 24 := by
  simp only [toNat_append_byte]
  omega

/-- The sum of rule R180 is the number of that word. -/
theorem tableWord_eq_toNat (s : State) (ta j : Nat) : tableWord s ta j = (entryWord s ta j).toNat := by
  unfold tableWord
  dsimp only
  simp only [Nat.shiftLeft_eq, Nat.add_zero]
  exact (toNat_append_bytes ..).symm

/-- A table entry is read in the descriptor layout, its bits 31:30 dropped (rules R23, R180). -/
theorem tableField_eq (s : State) (ta j : Nat) : tableField s ta j = viewOfBits ((entryWord s ta j).extractLsb' 0 30) := by
  rw [tableField, tableWord_eq_toNat, BitVec.ofNat_toNat, BitVec.setWidth_eq_extractLsb' (by decide)]

/-- A table of K entries has K fields (rule R180). -/
theorem length_tableFields (s : State) (ta k : Nat) : (tableFields s ta k).length = k := by
  rw [tableFields, List.length_map, List.length_range]

/-- Field j of a table is its entry j (rule R180). -/
theorem getElem?_tableFields (s : State) {ta k j : Nat} (hj : j < k) :
    (tableFields s ta k)[j]? = some (tableField s ta j) := by
  rw [tableFields, List.getElem?_map, List.getElem?_range hj, Option.map_some]

/-! ## The checks, stage by stage -/

/-- The error of PACK's CHECK phase is the error that PACK records (rules R181, R201). -/
theorem exec_pack_raises {s : State} {dd : DReg} {rs rt : XReg} {c : ErrorCode} {arg : Nat}
    (h : packCheck s (s.view dd) (s.natX rs) (s.natX rt) = .error ⟨c, arg⟩) :
    exec (.pack dd rs rt) s = .next (s.withError (encode (.pack dd rs rt)) c.number.toNat arg) := by
  refine exec_of_plan_raises ?_
  rw [plan, planPack, h, error_bind]

/-- The checks of the fields pass when every field is a legal bit view (rule R181). -/
theorem fieldChecks_of_hasBitView {s : State} {fs : List View} (h : ∀ f ∈ fs, s.HasBitView f) (j : Nat) :
    fieldChecks s j fs = .ok () := fieldChecks_ok_iff.mpr h

/-- The checks of the fields raise what the first field that fails raises (rule R181). -/
theorem fieldChecks_of_first {s : State} {before after : List View} {f : View} {j : Nat} {e : CmdError}
    (hb : ∀ g ∈ before, s.HasBitView g) (hf : bvCheck s f (opndField (j + before.length)) = .error e) :
    fieldChecks s j (before ++ f :: after) = .error e := by
  induction before generalizing j with
  | nil => rw [List.nil_append, fieldChecks, show bvCheck s f (opndField j) = .error e from hf, error_bind]
  | cons g before ih =>
    obtain ⟨hg, hb⟩ := List.forall_mem_cons.mp hb
    rw [List.cons_append, fieldChecks, bvCheck_of_hasBitView hg, ok_bind]
    exact ih hb (by rwa [Nat.add_assoc, Nat.add_comm 1])

/-- The overlap checks raise OVERLAP for the first field that the destination overlaps (rule R181). -/
theorem fieldOverlapChecks_of_first {dst : View} {before after : List View} {f : View} {j : Nat}
    (hb : ∀ g ∈ before, overlap dst.base dst.size g.base g.nbytes = false)
    (hf : overlap dst.base dst.size f.base f.nbytes = true) :
    fieldOverlapChecks dst j (before ++ f :: after) = .error ⟨.overlap, opndField (j + before.length)⟩ := by
  induction before generalizing j with
  | nil => rw [List.nil_append, fieldOverlapChecks, ensure_of_not (by rw [hf]; decide), error_bind]; rfl
  | cons g before ih =>
    obtain ⟨hg, hb⟩ := List.forall_mem_cons.mp hb
    rw [List.cons_append, fieldOverlapChecks, ensure_of hg, ok_bind, ih hb, List.length_cons, Nat.add_assoc, Nat.add_comm 1]

section
variable {s : State} {dst : View} {ta k : Nat}

/-- A destination not inside MEM raises first of all (rule R181). -/
theorem packCheck_destOutside (h : s.params.memSize < dst.base + dst.size) :
    packCheck s dst ta k = .error ⟨.memRange, opndDest⟩ := by
  rw [packCheck, rangeCheck, ensure_of_not (Nat.not_le.mpr h), error_bind]

section
variable (hd : s.HasBytes dst dst.size)
include hd

/-- With the destination inside MEM, a table not inside MEM raises (rule R181). -/
theorem packCheck_tableOutside (h : s.params.memSize < ta + 4 * k) :
    packCheck s dst ta k = .error ⟨.memRange, opndTable⟩ := by
  rw [packCheck, rangeCheck, ensure_of hd, ok_bind, ensure_of_not (Nat.not_le.mpr h), error_bind]

variable (ht : ta + 4 * k ≤ s.params.memSize)
include ht

/-- With destination and table inside MEM, the checks of the fields raise (rule R181). -/
theorem packCheck_fields {e : CmdError} (h : fieldChecks s 0 (tableFields s ta k) = .error e) :
    packCheck s dst ta k = .error e := by
  simp only [packCheck, rangeCheck, ensure_of hd, ensure_of ht, h, ok_bind, error_bind]

variable (hf : ∀ f ∈ tableFields s ta k, s.HasBitView f)
include hf

/-- With all views legal, a little-endian destination raises ORDER (rule R181). -/
theorem packCheck_little (h : dst.order = .little) : packCheck s dst ta k = .error ⟨.order, opndDest⟩ := by
  have hbig : ¬dst.order = .big := by rw [h]; decide
  simp only [packCheck, rangeCheck, ensure_of hd, ensure_of ht, fieldChecks_of_hasBitView hf, ensure_of_not hbig, ok_bind, error_bind]

variable (ho : dst.order = .big)
include ho

/-- With a big-endian destination too, widths that do not fill it raise PACK_CAPACITY (rule R181). -/
theorem packCheck_capacity (h : totalWidth (tableFields s ta k) ≠ 8 * dst.size) :
    packCheck s dst ta k = .error ⟨.packCapacity, totalWidth (tableFields s ta k)⟩ := by
  simp only [packCheck, rangeCheck, ensure_of hd, ensure_of ht, fieldChecks_of_hasBitView hf, ensure_of ho, ensure_of_not h, ok_bind,
    error_bind]

variable (hc : totalWidth (tableFields s ta k) = 8 * dst.size)
include hc

/-- With widths that fill the destination too, one that overlaps the table raises (rule R181). -/
theorem packCheck_tableOverlap (h : overlap dst.base dst.size ta (4 * k) = true) :
    packCheck s dst ta k = .error ⟨.overlap, opndTable⟩ := by
  have hn : ¬overlap dst.base dst.size ta (4 * k) = false := by rw [h]; decide
  simp only [packCheck, rangeCheck, ensure_of hd, ensure_of ht, fieldChecks_of_hasBitView hf, ensure_of ho, ensure_of hc,
    ensure_of_not hn, ok_bind, error_bind]

/-- With all before it passed, the overlap checks of the fields raise (rule R181). -/
theorem packCheck_fieldOverlaps {e : CmdError} (hto : overlap dst.base dst.size ta (4 * k) = false)
    (h : fieldOverlapChecks dst 0 (tableFields s ta k) = .error e) : packCheck s dst ta k = .error e := by
  simp only [packCheck, rangeCheck, ensure_of hd, ensure_of ht, fieldChecks_of_hasBitView hf, ensure_of ho, ensure_of hc,
    ensure_of hto, h, ok_bind, error_bind]

end

/-- What PACK checks, in the statements' words (rule R181). -/
theorem packCheck_of_accepts (h : s.PackAccepts dst ta k) : packCheck s dst ta k = .ok (tableFields s ta k) :=
  packCheck_ok_iff.mpr ⟨rfl, h.destInside, h.tableInside, h.fields, h.bigEndian, h.capacity, h.apartFromTable, h.apartFromFields⟩

end

/-- Settles O38, by the stages of the CHECK phase in their order. -/
theorem packRaisesTheFirstFailure : Obligations.PackRaisesTheFirstFailure := by
  unfold Obligations.PackRaisesTheFirstFailure
  intro dd rs rt s dst ta k fs raises
  refine ⟨fun h => exec_pack_raises (packCheck_destOutside h), fun hd h => exec_pack_raises (packCheck_tableOutside hd h),
    fun hd ht => ⟨fun before after f hfs hb => ?field, fun hf => ⟨fun ho => exec_pack_raises (packCheck_little hd ht hf ho),
      fun ho hc => exec_pack_raises (packCheck_capacity hd ht hf ho hc), fun ho hc =>
        ⟨fun h => exec_pack_raises (packCheck_tableOverlap hd ht hf ho hc h), fun hto before after f hfs hb h => ?overlap⟩⟩⟩⟩
  case field =>
    have first {e : CmdError} (he : bvCheck s f (opndField (0 + before.length)) = .error e) :
        packCheck s dst ta k = .error e :=
      packCheck_fields hd ht ((congrArg (fieldChecks s 0) hfs).trans (fieldChecks_of_first hb he))
    rw [Nat.zero_add] at first
    exact ⟨fun hw => exec_pack_raises (first (bvCheck_wide hw)),
      fun hw hm => exec_pack_raises (first (bvCheck_outside hw hm))⟩
  case overlap =>
    have first : fieldOverlapChecks dst 0 fs = .error ⟨.overlap, opndField (0 + before.length)⟩ :=
      (congrArg (fieldOverlapChecks dst 0) hfs).trans (fieldOverlapChecks_of_first hb h)
    rw [Nat.zero_add] at first
    exact exec_pack_raises (packCheck_fieldOverlaps hd ht hf ho hc hto first)

/-! ## The concatenated value -/

/-- A field's value stands above the widths of the later fields (rule R182). -/
theorem packValue_field (s : State) (before after : List View) (f : View) :
    packValue s (before ++ f :: after) >>> totalWidth after % 2 ^ f.size = vVal s f := by
  have hsplit : packValue s (before ++ f :: after) =
      packValue s after + 2 ^ totalWidth after * (vVal s f + packValue s before * 2 ^ f.size) := by
    rw [packValue_append, packValue_cons, totalWidth_cons, Nat.pow_add]
    ring
  rw [hsplit, Nat.shiftRight_eq_div_pow, Nat.add_mul_div_left _ _ (Nat.two_pow_pos _), Nat.div_eq_of_lt (packValue_lt s after),
    Nat.zero_add, Nat.add_mul_mod_self_right, Nat.mod_eq_of_lt (vVal_lt s f)]

/-- So the bits of the concatenation from there up are the field's logical bits (rules R68, R182). -/
theorem testBit_packValue (s : State) (before after : List View) {f : View} {k : Nat} (hk : k < f.size) :
    (packValue s (before ++ f :: after)).testBit (totalWidth after + k) = s.rawBit f f.nbytes k := by
  have hfield := congrArg (Nat.testBit · k) (packValue_field s before after f)
  simpa only [Nat.testBit_mod_two_pow, Nat.testBit_shiftRight, testBit_vVal, hk, decide_true, Bool.true_and] using hfield

/-! ## The destination -/

/-- The state s after a command that writes a run of bytes from base up (rules R182, R200). -/
def withRun (s : State) (base : Nat) (bs : List Byte) : State :=
  { s with mem := s.mem.storeAll (storesFrom base bs), busy := false }

/-- A command whose effect is a run of bytes changes those bytes alone (rule R200). -/
theorem exec_of_plan_run {i : Instr} {s : State} {base : Nat} {bs : List Byte}
    (h : plan i s = .ok (.store (storesFrom base bs))) : exec i s = .next (withRun s base bs) := exec_of_plan_ok h

/-- A run of bytes changes its own bytes alone (rule R182). -/
theorem sameOutside_withRun (s : State) (base : Nat) (bs : List Byte) : s.SameOutside (withRun s base bs) base bs.length :=
  sameOutside_storesFrom rfl rfl

/-- What PACK does once its checks pass (rules R181, R182). -/
theorem exec_pack {s : State} {dd : DReg} {rs rt : XReg} (h : s.PackAccepts (s.view dd) (s.natX rs) (s.natX rt)) :
    exec (.pack dd rs rt) s = .next (withRun s (s.view dd).base
      (packBytes (s.view dd).size (packValue s (tableFields s (s.natX rs) (s.natX rt))))) := by
  refine exec_of_plan_run ?_
  rw [plan, planPack, packCheck_of_accepts h, ok_bind]
  rfl

/-- A view of 8n bits has n bytes (rule R25). -/
theorem nbytes_of_size {v : View} {n : Nat} (h : v.size = 8 * n) : v.nbytes = n := by
  obtain ⟨hsum, hpad⟩ := size_add_npadding v
  omega

section
variable {s : State} {v : View} {n c : Nat} (ho : v.order = .big)
include ho

/-- The bytes of a number, most significant first, are its logical bytes for a big-endian view over them (rules R63, R182). -/
theorem bvGet_packBytes {i : Nat} (hi : i < n) :
    bvGet (withRun s v.base (packBytes n c)) v n i = BitVec.ofNat 8 (c >>> (8 * i)) := by
  have hlen : n - 1 - i < (packBytes n c).length := by rw [length_packBytes]; omega
  have haddr : v.byteAddr n i = v.base + (n - 1 - i) := by rw [View.byteAddr, ho, phys]
  have hmirror : n - 1 - (n - 1 - i) = i := by omega
  rw [bvGet, haddr, readByte_storesFrom rfl hlen]
  simp only [packBytes, List.getElem_map, List.getElem_range, hmirror]

/-- The bits of such a view are the bits of the number (rule R182). -/
theorem rawBit_packBytes {k : Nat} (hk : k < 8 * n) :
    (withRun s v.base (packBytes n c)).rawBit v n k = c.testBit k := by
  have hsplit : 8 * (k / 8) + k % 8 = k := by omega
  rw [State.rawBit, bvGet_packBytes ho (by omega), BitVec.getLsbD_ofNat, Nat.testBit_shiftRight, hsplit,
    decide_eq_true (Nat.mod_lt k (by decide)), Bool.true_and]

/-- Read as a bit view of all its bits, the run holds the number (rules R68, R185). -/
theorem vVal_packBytes (hn : v.size = 8 * n) (hc : c < 2 ^ v.size) :
    vVal (withRun s v.base (packBytes n c)) v = c := by
  refine Nat.eq_of_testBit_eq fun j => ?_
  rw [testBit_vVal, nbytes_of_size hn]
  by_cases hj : j < v.size
  · rw [rawBit_packBytes ho (hn ▸ hj), decide_eq_true hj, Bool.true_and]
  · have hhigh : c < 2 ^ j := hc.trans_le (Nat.pow_le_pow_right (by decide) (Nat.not_lt.mp hj))
    rw [decide_eq_false hj, Bool.false_and, Nat.testBit_lt_two_pow hhigh]

end

/-- Settles O37: an entry is its word read in the descriptor layout, and a destination bit is a bit of the concatenation, which is
a field's logical bit. -/
theorem packConcatenatesTheFields : Obligations.PackConcatenatesTheFields := by
  unfold Obligations.PackConcatenatesTheFields
  refine ⟨fun s ta k => ⟨length_tableFields s ta k, ?entry⟩, fun dd rs rt s h => ⟨_, exec_pack h, rfl, ?outside, ?bits⟩⟩
  case entry =>
    intro j e hj he
    obtain rfl : e = entryWord s ta j := he
    rw [getElem?_tableFields s hj, tableField_eq, viewOfBits_extractLsb']
  case outside =>
    have hsame := sameOutside_withRun s (s.view dd).base
      (packBytes (s.view dd).size (packValue s (tableFields s (s.natX rs) (s.natX rt))))
    rwa [length_packBytes] at hsame
  case bits =>
    intro before after f hfs k hk
    have hwidth := h.capacity
    rw [hfs, totalWidth_append, totalWidth_cons] at hwidth
    rw [rawBit_packBytes h.bigEndian (by omega), hfs, testBit_packValue s before after hk]

/-- Settles O40: the later state reads the destination as PACK left it, so IVAL extracts from the concatenation. -/
theorem ivalUnpacksAPackedField : Obligations.IvalUnpacksAPackedField := by
  unfold Obligations.IvalUnpacksAPackedField
  intro dd du rd rs rt w s t u before after f h ht hfs hn hf hmem hdraw hparams hu
  obtain rfl : withRun s (s.view dd).base _ = t := by simpa using (exec_pack h).symm.trans ht
  have hsize : (u.view du).size = 8 * (s.view dd).size := by rw [hu]
  have hbase : (u.view du).base = (s.view dd).base := by rw [hu]
  have hbig : (u.view du).order = .big := by rw [hu]
  have hwidth := h.capacity
  have hlt := packValue_lt s (tableFields s (s.natX rs) (s.natX rt))
  rw [hwidth, ← hsize] at hlt
  rw [hfs, totalWidth_append, totalWidth_cons] at hwidth
  have hval : vVal u (u.view du) = packValue s (tableFields s (s.natX rs) (s.natX rt)) := by
    rw [vVal_of_sameBytes (fun a _ _ => readByte_congr hmem hdraw a), ← hbase, vVal_packBytes hbig hsize hlt]
  have hview : u.HasBitView (u.view du) := by
    refine ⟨by omega, ?_⟩
    rw [State.HasBytes, nbytes_of_size hsize, hbase, hparams]
    exact h.destInside
  refine ⟨_, exec_ival_of_le hview rd hf (by omega), ?_⟩
  rw [natX_withX_self, hval, hfs, packValue_field]
  exact toNat_zext64_of_lt_bits (w := w) ((vVal_lt s f).trans_le (Nat.pow_le_pow_right (by decide) hf))

/-! ## The source's scan -/

/-- The cursor after k bits were appended to a byte with at least k free: a full byte is written (rule R183). -/
def appendBits (cur : PackCursor) (k bits : Nat) : PackCursor :=
  let acc := if k = 8 then bits else ((cur.acc <<< k) ||| bits) % 2 ^ 8
  if cur.room - k = 0 then { bytes := cur.bytes ++ [BitVec.ofNat 8 acc], acc := 0, room := 8 }
  else { bytes := cur.bytes, acc := acc, room := cur.room - k }

/-- One turn of the scan's loop appends the field's next bits, as many as the byte takes (rule R183). -/
theorem scanField_succ (v fuel : Nat) {rem : Nat} (hrem : rem ≠ 0) (cur : PackCursor) :
    scanField v (fuel + 1) rem cur = scanField v fuel (rem - min cur.room rem)
      (appendBits cur (min cur.room rem) ((v >>> (rem - min cur.room rem)) % 2 ^ min cur.room rem)) := by
  rw [scanField, if_neg hrem, appendBits]
  dsimp only
  split <;> split <;> rfl

/-- The cursor after m bits that make up the number c: the whole bytes are written and the rest is in the accumulator (rule
R183). -/
def scanned (m c : Nat) : PackCursor :=
  { bytes := packBytes (m / 8) (c >>> (m % 8)), acc := c % 2 ^ (m % 8), room := 8 - m % 8 }

/-- One byte more of a number is its low byte, after the bytes above it (rule R182). -/
theorem packBytes_succ (n c : Nat) : packBytes (n + 1) c = packBytes n (c >>> 8) ++ [BitVec.ofNat 8 c] := by
  have hlow : 8 * (n + 1 - 1 - n) = 0 := by omega
  rw [packBytes, packBytes, List.range_succ, List.map_append, List.map_singleton, hlow, Nat.shiftRight_zero]
  congr 1
  refine List.map_congr_left fun p hp => ?_
  have hp : p < n := List.mem_range.mp hp
  rw [← Nat.shiftRight_add, show 8 + 8 * (n - 1 - p) = 8 * (n + 1 - 1 - p) by omega]

section
variable {k bits : Nat} (c r : Nat) (hbits : bits < 2 ^ k)
include hbits

/-- Bits appended below a number do not reach its bits from r up. -/
theorem shiftRight_append : (c * 2 ^ k + bits) >>> (r + k) = c >>> r := by
  rw [Nat.add_comm r, Nat.shiftRight_add, Nat.shiftRight_eq_div_pow _ k, Nat.mul_comm, Nat.mul_add_div (Nat.two_pow_pos k),
    Nat.div_eq_of_lt hbits, Nat.add_zero]

/-- Bits appended below a number stand below its low r bits. -/
theorem mod_append : (c * 2 ^ k + bits) % 2 ^ (r + k) = c % 2 ^ r * 2 ^ k + bits := by
  rw [Nat.add_comm r, Nat.pow_add, Nat.mod_mul, Nat.mul_add_mod_self_right, Nat.mod_eq_of_lt hbits, Nat.mul_comm c,
    Nat.mul_add_div (Nat.two_pow_pos k), Nat.div_eq_of_lt hbits, Nat.add_zero]
  ring

/-- The accumulator after k bits were appended to its r: with k = 8 it was empty, and no bit is cut off otherwise (rule R183). -/
theorem acc_append {r : Nat} (hr : r + k ≤ 8) :
    (if k = 8 then bits else (((c % 2 ^ r) <<< k) ||| bits) % 2 ^ 8) = (c * 2 ^ k + bits) % 2 ^ (r + k) := by
  have hlt : (c * 2 ^ k + bits) % 2 ^ (r + k) < 2 ^ 8 :=
    (Nat.mod_lt _ (Nat.two_pow_pos _)).trans_le (Nat.pow_le_pow_right (by decide) hr)
  rw [mod_append c r hbits] at hlt ⊢
  split
  next hk =>
    have hempty : c % 2 ^ r = 0 := by rw [show r = 0 by omega, Nat.pow_zero, Nat.mod_one]
    rw [hempty, Nat.zero_mul, Nat.zero_add]
  next => rw [← Nat.shiftLeft_add_eq_or_of_lt hbits, Nat.shiftLeft_eq, Nat.mod_eq_of_lt hlt]

/-- Appending k bits to the cursor appends them to the number (rule R183). -/
theorem appendBits_scanned {m : Nat} (hk : k ≤ 8 - m % 8) :
    appendBits (scanned m c) k bits = scanned (m + k) (c * 2 ^ k + bits) := by
  have hroom : m % 8 + k ≤ 8 := by omega
  have hbytes := shiftRight_append c (m % 8) hbits
  unfold appendBits scanned
  dsimp only
  rw [acc_append c hbits hroom]
  split
  next hfull =>
    have h8 : m % 8 + k = 8 := by omega
    have hdiv : (m + k) / 8 = m / 8 + 1 := by omega
    have hmod : (m + k) % 8 = 0 := by omega
    rw [h8] at hbytes
    rw [hdiv, hmod, h8, packBytes_succ, Nat.shiftRight_zero, hbytes, Nat.pow_zero, Nat.mod_one, ← BitVec.toNat_ofNat,
      BitVec.ofNat_toNat, BitVec.setWidth_eq]
  next hpart =>
    have hdiv : (m + k) / 8 = m / 8 := by omega
    have hmod : (m + k) % 8 = m % 8 + k := by omega
    rw [hdiv, hmod, hbytes, Nat.sub_add_eq]

end

/-- The scan of a field appends its low rem bits to the number, one turn's bits after another (rule R183). -/
theorem scanField_scanned (v : Nat) {fuel rem : Nat} (hfuel : rem ≤ fuel) (m c : Nat) :
    scanField v fuel rem (scanned m c) = scanned (m + rem) (c * 2 ^ rem + v % 2 ^ rem) := by
  induction fuel generalizing rem m c with
  | zero =>
    obtain rfl : rem = 0 := by omega
    simp [scanField, Nat.mod_one]
  | succ fuel ih =>
    by_cases hrem : rem = 0
    · simp [scanField, hrem, Nat.mod_one]
    · rw [scanField_succ v fuel hrem]
      have hroom : (scanned m c).room = 8 - m % 8 := rfl
      obtain ⟨k, hk⟩ : ∃ k, min (scanned m c).room rem = k := ⟨_, rfl⟩
      obtain ⟨rest, rfl⟩ : ∃ rest, rem = rest + k := ⟨rem - k, by omega⟩
      rw [hk, Nat.add_sub_cancel, appendBits_scanned c (Nat.mod_lt _ (Nat.two_pow_pos k)) (by omega), ih (by omega), Nat.add_assoc,
        Nat.add_comm k, Nat.shiftRight_eq_div_pow, Nat.pow_add, Nat.mod_mul (a := 2 ^ rest)]
      congr 1
      ring

/-- The scan of the fields appends their concatenation (rules R182, R183). -/
theorem foldl_scanField_scanned (s : State) (fs : List View) (m c : Nat) :
    fs.foldl (fun cur f => scanField (vVal s f) f.size f.size cur) (scanned m c) =
      scanned (m + totalWidth fs) (c * 2 ^ totalWidth fs + packValue s fs) := by
  induction fs generalizing m c with
  | nil => simp [totalWidth, packValue]
  | cons f fs ih =>
    rw [List.foldl_cons, scanField_scanned _ le_rfl, Nat.mod_eq_of_lt (vVal_lt s f), ih, packValue_cons, totalWidth_cons,
      Nat.add_assoc, Nat.pow_add]
    congr 1
    ring

/-- Settles O39: after 8n bits the cursor has n bytes written, of the fields' concatenation. -/
theorem packScanGivesTheSameBytes : Obligations.PackScanGivesTheSameBytes := by
  unfold Obligations.PackScanGivesTheSameBytes
  intro s fs n hn
  have hscan : packScan s fs = scanned (8 * n) (packValue s fs) := by
    have hfold := foldl_scanField_scanned s fs 0 0
    rwa [hn, Nat.zero_add, Nat.zero_mul, Nat.zero_add] at hfold
  rw [hscan, scanned, Nat.mul_mod_right, Nat.mul_div_cancel_left n (by decide), Nat.shiftRight_zero, Nat.pow_zero, Nat.mod_one]

end Sys2Proof.Proofs
end

section
/-!
PROOFS of the statements about diagnostic rendering (spec/45_diagnostics.md). Both commands make the check of rule R190's string
after their source's own, and then store one run of characters at the destination's base: what is left to say is what the check
answers and which character stands at which place of the run.
-/

namespace Sys2Proof.Proofs

open Sys2Proof.Machine Sys2Proof.Laws

/-! ## The check of a string -/

section
variable {s : State} {dst src : View} {len n : Nat}

/-- A destination not inside MEM raises MEM_RANGE before anything else about the string (rules R190, R204). -/
theorem renderCheck_outside (hm : s.params.memSize < dst.base + dst.size) :
    renderCheck s dst len src n = .error ⟨.memRange, opndDest⟩ := by
  rw [renderCheck, rangeCheck, ensure_of_not (Nat.not_le.mpr hm), error_bind]

/-- A destination inside MEM but too small raises RENDER_SIZE with the string's length (rules R190, R205). -/
theorem renderCheck_small (hm : s.HasBytes dst dst.size) (hl : dst.size < len) :
    renderCheck s dst len src n = .error ⟨.renderSize, len⟩ := by
  rw [renderCheck, rangeCheck, ensure_of hm, ok_bind, ensure_of_not (Nat.not_le.mpr hl), error_bind]

/-- A string that fits but shares a byte with the source raises OVERLAP (rules R190, R205). -/
theorem renderCheck_overlaps (hm : s.HasBytes dst dst.size) (hl : len ≤ dst.size)
    (ho : overlap dst.base len src.base n = true) : renderCheck s dst len src n = .error ⟨.overlap, opndSource⟩ := by
  rw [renderCheck, rangeCheck, ensure_of hm, ok_bind, ensure_of hl, ok_bind, ensure_of_not (by simp [ho])]

end

/-- The command i renders n bytes of D[DS] as a string of len characters; STRB takes a source of at most 64 bits (rules R140,
R190, R191). -/
def Renders (i : Instr) (dd ds : DReg) (s : State) (n len : Nat) : Prop :=
  (i = .strb dd ds ∧ n = (s.view ds).nbytes ∧ len = (s.view ds).size ∧ (s.view ds).size ≤ 64) ∨
    (i = .strh dd ds ∧ n = (s.view ds).size ∧ len = 2 * (s.view ds).size)

section
variable {s : State} {dd ds : DReg}

/-- STRB past the check of its source (rule R190). -/
theorem plan_strb_of_source (hsrc : s.HasBitView (s.view ds)) :
    plan (.strb dd ds) s = (renderCheck s (s.view dd) (s.view ds).size (s.view ds) (s.view ds).nbytes >>= fun _ =>
      .ok (.store (storesFrom (s.view dd).base (binString (s.view ds).size (vVal s (s.view ds)))))) := by
  rw [plan, planStrb, bvCheck_of_hasBitView hsrc, ok_bind]
  rfl

/-- STRH past the check of its source (rule R191). -/
theorem plan_strh_of_source (hsrc : s.HasBytes (s.view ds) (s.view ds).size) :
    plan (.strh dd ds) s = (renderCheck s (s.view dd) (2 * (s.view ds).size) (s.view ds) (s.view ds).size >>= fun _ =>
      .ok (.store (storesFrom (s.view dd).base (hexString s (s.view ds))))) := by
  rw [plan, planStrh, rangeCheck, ensure_of hsrc, ok_bind]
  rfl

/-- A source of STRH not inside MEM is the first of its errors (rules R191, R204). -/
theorem plan_strh_outside (hm : s.params.memSize < (s.view ds).base + (s.view ds).size) :
    plan (.strh dd ds) s = .error ⟨.memRange, opndSource⟩ := by
  rw [plan, planStrh, rangeCheck, ensure_of_not (Nat.not_le.mpr hm), error_bind]

/-- With a source inside MEM the error of the string's check is the plan's error (rules R190, R191). -/
theorem plan_of_renderCheck_error {i : Instr} {n len : Nat} {e : CmdError} (hi : Renders i dd ds s n len)
    (hsrc : s.HasBytes (s.view ds) n) (h : renderCheck s (s.view dd) len (s.view ds) n = .error e) : plan i s = .error e := by
  rcases hi with ⟨rfl, rfl, rfl, hw⟩ | ⟨rfl, rfl, rfl⟩
  · rw [plan_strb_of_source ⟨hw, hsrc⟩, h, error_bind]
  · rw [plan_strh_of_source hsrc, h, error_bind]

/-- What STRB does once its checks pass (rule R190). -/
theorem exec_strb (hsrc : s.HasBitView (s.view ds))
    (hcheck : renderCheck s (s.view dd) (s.view ds).size (s.view ds) (s.view ds).nbytes = .ok ()) :
    exec (.strb dd ds) s = .next (withRun s (s.view dd).base (binString (s.view ds).size (vVal s (s.view ds)))) :=
  exec_of_plan_run (by rw [plan_strb_of_source hsrc, hcheck, ok_bind])

/-- What STRH does once its checks pass (rule R191). -/
theorem exec_strh (hsrc : s.HasBytes (s.view ds) (s.view ds).size)
    (hcheck : renderCheck s (s.view dd) (2 * (s.view ds).size) (s.view ds) (s.view ds).size = .ok ()) :
    exec (.strh dd ds) s = .next (withRun s (s.view dd).base (hexString s (s.view ds))) :=
  exec_of_plan_run (by rw [plan_strh_of_source hsrc, hcheck, ok_bind])

end

/-- Settles O43: each failing stage of the string's check, under the stages before it, is the plan's error. -/
theorem renderErrors : Obligations.RenderErrors := by
  unfold Obligations.RenderErrors
  intro dd ds s src dst
  refine ⟨fun hm => exec_of_plan_raises (plan_strh_outside hm), fun i n len hi hsrc => ?_⟩
  have raises {c : ErrorCode} {arg : Nat} (h : renderCheck s dst len src n = .error ⟨c, arg⟩) :
      exec i s = .next (s.withError (encode i) c.number.toNat arg) :=
    exec_of_plan_raises (plan_of_renderCheck_error hi hsrc h)
  exact ⟨fun hm => raises (renderCheck_outside hm), fun hm =>
    ⟨fun hl => raises (renderCheck_small hm hl), fun hl ho => raises (renderCheck_overlaps hm hl ho)⟩⟩

/-! ## The characters -/

/-- After a run of bytes was written, its k-th byte stands at base + k. -/
theorem readByte_withRun (s : State) (base : Nat) {bs : List Byte} {k : Nat} {b : Byte} (h : bs[k]? = some b) :
    (withRun s base bs).readByte (base + k) = b := by
  obtain ⟨hk, rfl⟩ := List.getElem?_eq_some_iff.mp h
  exact readByte_storesFrom rfl hk

/-- Character k of a binary string is the digit of bit n - 1 - k (rule R190). -/
theorem getElem?_binString {n k : Nat} (hk : k < n) (v : Nat) :
    (binString n v)[k]? = some (binDigit (v.testBit (n - 1 - k))) := by
  rw [binString, List.getElem?_map, List.getElem?_range hk, Option.map_some]

/-- Settles O41: bit N_bits - 1 - k of the logical value, whose digit is character k, is the view's raw bit there. -/
theorem strbRendersEveryBit : Obligations.StrbRendersEveryBit := by
  unfold Obligations.StrbRendersEveryBit
  intro dd ds s hsrc hdst hlen hapart
  refine ⟨_, exec_strb hsrc (renderCheck_ok_iff.mpr ⟨hdst, hlen, hapart⟩), rfl, ?outside, fun k hk => ?digit⟩
  case outside =>
    have hsame := sameOutside_withRun s (s.view dd).base (binString (s.view ds).size (vVal s (s.view ds)))
    rwa [length_binString] at hsame
  case digit =>
    have hlow : (s.view ds).size - 1 - k < (s.view ds).size := by omega
    rw [readByte_withRun s _ (getElem?_binString hk _), testBit_vVal, decide_eq_true hlow, Bool.true_and, binDigit]

/-- Where every element of a list gives m entries, entry j of what element k gives stands at m * k + j. -/
theorem getElem?_flatMap_of_length {α β : Type} {f : α → List β} {m : Nat} (hf : ∀ a, (f a).length = m) {l : List α}
    {k j : Nat} {a : α} (hk : l[k]? = some a) (hj : j < m) : (l.flatMap f)[m * k + j]? = (f a)[j]? := by
  induction l generalizing k with
  | nil => simp at hk
  | cons b l ih =>
    cases k with
    | zero =>
      obtain rfl : b = a := by simpa using hk
      rw [List.flatMap_cons, Nat.mul_zero, Nat.zero_add, List.getElem?_append_left (hj.trans_eq (hf b).symm)]
    | succ k =>
      have hskip : m * (k + 1) + j - m = m * k + j := by rw [Nat.mul_succ]; omega
      rw [List.flatMap_cons, List.getElem?_append_right (by rw [hf, Nat.mul_succ]; omega), hf, hskip, ih (by simpa using hk)]

/-- Characters 2k and 2k + 1 of a hexadecimal string are the digits of the high and the low nibble of logical byte n - 1 - k
(rule R191). -/
theorem getElem?_hexString (s : State) {v : View} {k h c : Nat} {b : Byte} (hk : k < v.size)
    (hb : bvGet s v v.size (v.size - 1 - k) = b) (hc : (h = b.toNat / 16 ∧ c = 2 * k) ∨ (h = b.toNat % 16 ∧ c = 2 * k + 1)) :
    (hexString s v)[c]? = some (hexDigit s.params.hexUpper h) := by
  have pair {j : Nat} (hj : j < 2) : (hexString s v)[2 * k + j]? = (hexPair s.params.hexUpper b)[j]? := by
    rw [hexString, ← hb]
    exact getElem?_flatMap_of_length (fun _ => by rfl) (List.getElem?_range hk) hj
  rcases hc with ⟨rfl, rfl⟩ | ⟨rfl, rfl⟩
  · rw [← Nat.shiftRight_eq_div_pow b.toNat 4]
    exact pair (j := 0) (by decide)
  · exact pair (j := 1) (by decide)

/-- The code of a hexadecimal digit's character (rule R191). -/
theorem toNat_hexDigit (upper : Bool) {h : Nat} (hh : h < 16) :
    (hexDigit upper h).toNat = if h < 10 then 0x30 + h else (if upper then 0x41 else 0x61) + (h - 10) := by
  revert hh h
  cases upper <;> decide

/-- Settles O42: the run of characters has a digit's character at each place, and that character's code is the one asked for. -/
theorem strhRendersEveryByte : Obligations.StrhRendersEveryByte := by
  unfold Obligations.StrhRendersEveryByte
  intro dd ds s hsrc hdst hlen hapart
  refine ⟨_, exec_strh hsrc (renderCheck_ok_iff.mpr ⟨hdst, hlen, hapart⟩), rfl, ?outside, ?digits⟩
  case outside =>
    have hsame := sameOutside_withRun s (s.view dd).base (hexString s (s.view ds))
    rwa [length_hexString] at hsame
  case digits =>
    rintro k hk b rfl h c hc
    have hbyte := (bvGet s (s.view ds) (s.view ds).size ((s.view ds).size - 1 - k)).isLt
    have hnibble : h < 16 := by omega
    rw [readByte_withRun s _ (getElem?_hexString s hk rfl hc), toNat_hexDigit _ hnibble]

end Sys2Proof.Proofs
end

section
/-!
PROOFS of the statements about errors (spec/60_exceptions.md). A command is its plan, committed, so it ends in one of two ways: it
records an error, or it applies an effect whose register write goes to the command's destination. What a step does to the error
registers and CTRL.EIE is said once, as a case for each move that can change them.
-/

namespace Sys2Proof.Proofs

open Sys2Proof.Machine Sys2Proof.Laws

/-! ## How a command ends -/

/-- Settles O10, by the two answers of the command's plan. -/
theorem everyCommandCompletesOrRaises : Obligations.EveryCommandCompletesOrRaises := by
  unfold Obligations.EveryCommandCompletesOrRaises
  intro i s
  cases hp : plan i s with
  | error e =>
    obtain ⟨hlow, hhigh⟩ := number_range e.code
    exact ⟨_, exec_of_plan_raises hp, rfl, .inr ⟨e.code.number.toNat, e.arg, hlow, hhigh, rfl⟩⟩
  | ok e => exact ⟨_, exec_of_plan_ok hp, rfl, .inl ⟨rfl, rfl, rfl, rfl⟩⟩

/-- An effect writes no data register but the given one. -/
def WritesWithin (dest : Option XReg) (e : Effect) : Prop := ∀ r v, e.xwrite = some (r, v) → dest = some r

theorem writesWithin_setX {r : XReg} {v : Data} : WritesWithin (some r) (.setX r v) := by
  rintro _ _ ⟨⟩
  rfl

/-- An effect that only stores writes no data register. -/
theorem writesWithin_store {dest : Option XReg} {cs : List Host.Cell} : WritesWithin dest (.store cs) := nofun

/-- Every command's plan writes no data register but the command's destination (rules R111 to R191). -/
theorem plan_writesWithin (i : Instr) (s : State) : Gives (plan i s) (WritesWithin (destination i)) := by
  cases i with
  | bsize | csize => exact gives_ok writesWithin_setX
  | bget | mask | lji | rji | getbit => exact gives_bind fun _ _ => gives_ok writesWithin_setX
  | conv | ival => exact gives_bind fun _ _ => gives_bind fun _ _ => gives_ok writesWithin_setX
  | bset | setbit | fromint | neg | ljv | rjv | pack => exact gives_bind fun _ _ => gives_ok writesWithin_store
  | strb | strh => exact gives_bind fun _ _ => gives_bind fun _ _ => gives_ok writesWithin_store

/-- Applying an effect keeps every data register it does not write (rule R14). -/
theorem readX_applyEffect_of_ne {s : State} {e : Effect} {dest : Option XReg} {r : XReg} (he : WritesWithin dest e)
    (hr : dest ≠ some r) : (s.applyEffect e).readX r = s.readX r := by
  cases hx : e.xwrite with
  | none => exact readX_congr (by simp [State.xAfter, hx]) r
  | some write =>
    obtain ⟨q, v⟩ := write
    have hrq : r ≠ q := fun h => hr (h ▸ he q v hx)
    have hwrite : (s.applyEffect e).readX r = (s.writeX q v).readX r := readX_congr (by simp [State.xAfter, hx]) r
    rw [hwrite, readX_writeX, if_neg hrq]

/-- Applying an effect keeps every byte it does not store to (rule R14). -/
theorem readByte_applyEffect_of_not_mem {s : State} {e : Effect} {a : Nat} (h : a ∉ e.stores.map (fun c => c.1)) :
    (s.applyEffect e).readByte a = s.readByte a := by
  have hlookup : (s.mem.storeAll e.stores).lookup a = s.mem.lookup a :=
    lookup_storeAll_of_not_mem e.stores s.mem a fun c hc hca => h (List.mem_map.mpr ⟨c, hc, hca⟩)
  simp only [State.readByte, State.unlistedByte, applyEffect_mem, applyEffect_memDraw, hlookup]

/-- Settles O11: raising leaves registers and MEM alone, and an effect keeps to the destination and the stored addresses. -/
theorem commandFrame : Obligations.CommandFrame := by
  unfold Obligations.CommandFrame
  intro i s t ht
  cases hp : plan i s with
  | error e =>
    cases (exec_of_plan_error hp).symm.trans ht
    exact ⟨rfl, rfl, rfl, rfl, rfl, rfl, rfl, fun _ _ => rfl, fun _ _ => rfl⟩
  | ok e =>
    cases (exec_of_plan_ok hp).symm.trans ht
    exact ⟨rfl, rfl, rfl, rfl, rfl, rfl, rfl, fun _ hr => readX_applyEffect_of_ne (plan_writesWithin i s e hp) hr,
      fun _ ha => readByte_applyEffect_of_not_mem fun h => ha (mem_storedAddresses.mpr ⟨e, hp, h⟩)⟩

/-! ## CMD writes -/

/-- While an error is recorded a CMD write is dropped (rule R202). -/
theorem issue_of_err {s : State} (h : s.err = true) (w : Word) : issue w s = .next s := by
  rw [issue, if_pos h]

/-- A CMD write always answers a next state (rules R200, R202). -/
theorem exists_issue (w : Word) (s : State) : ∃ t, issue w s = .next t := by
  rcases issue_cases w s with ⟨-, h⟩ | ⟨-, -, h⟩ | ⟨-, i, -, h⟩
  · exact ⟨_, h⟩
  · exact ⟨_, h⟩
  · obtain ⟨t, ht, -⟩ := everyCommandCompletesOrRaises i s.accept
    exact ⟨t, h.trans ht⟩

/-- A CMD write that sets ERR records its own word and one of the numbers 1 to 13, and changes nothing else (rules R201, R203). -/
theorem issue_sets_err {w : Word} {s t : State} (h : issue w s = .next t) (hs : s.err = false) (ht : t.err = true) :
    ∃ number arg, 1 ≤ number ∧ number ≤ 13 ∧ t = s.withError w number arg := by
  rcases issue_cases w s with ⟨herr, -⟩ | ⟨-, -, hi⟩ | ⟨-, i, hd, hi⟩
  · exact absurd (herr.symm.trans hs) (by decide)
  · cases hi.symm.trans h
    exact ⟨1, 0, by decide, by decide, rfl⟩
  · obtain ⟨u, hu, -, ⟨hkept, -⟩ | ⟨number, arg, hlow, hhigh, hraised⟩⟩ := everyCommandCompletesOrRaises i s.accept
    · cases hu.symm.trans (hi.symm.trans h)
      exact absurd (ht.symm.trans (hkept.trans hs)) (by decide)
    · cases hu.symm.trans (hi.symm.trans h)
      obtain ⟨-, rfl⟩ := encodeOfDecodeIsTheWord w i hd
      exact ⟨number, arg, hlow, hhigh, hraised⟩

/-- A CMD write leaves CTRL.EIE (rules R32, R200). -/
theorem issue_eie {w : Word} {s t : State} (h : issue w s = .next t) : t.eie = s.eie := by
  rcases issue_cases w s with ⟨-, hi⟩ | ⟨-, -, hi⟩ | ⟨-, i, -, hi⟩
  · cases hi.symm.trans h; rfl
  · cases hi.symm.trans h; rfl
  · obtain ⟨-, heie, -⟩ := commandFrame i s.accept t (hi.symm.trans h)
    exact heie

/-- Settles O9: the port word is CMD, and the write is dropped. -/
theorem recordedErrorDropsCommands : Obligations.RecordedErrorDropsCommands := by
  unfold Obligations.RecordedErrorDropsCommands
  intro s w rest herr hb hs
  rw [step_writeReg hb hs, portReg_cmdPort]
  exact issue_of_err (s := { s with script := rest }) herr w

/-! ## What a step does to EIE and the error registers -/

/-- CTRL.EIE and the error registers are in t as in s. -/
structure SameFlags (s t : State) : Prop where
  eie : t.eie = s.eie
  err : t.err = s.err
  errcode : t.errcode = s.errcode
  errinfo : t.errinfo = s.errinfo
  errarg : t.errarg = s.errarg

/-- What a step from s to t does to CTRL.EIE and the error registers: it keeps them, or it performs one of the four moves that can
change them (rules R201, R202, R208, R209, R231). -/
inductive FlagStep (s t : State) : Prop
  | kept (h : SameFlags s t)
  | cmd (w : Word) (rest : List Move) (hs : s.script = .writeReg cmdPort w :: rest)
    (ht : issue w { s with script := rest } = .next t)
  | ctrl (v : Word) (rest : List Move) (hs : s.script = .writeReg ctrlPort v :: rest)
    (ht : t = { s with script := rest }.writeCtrl v)
  | hardReset (rest : List Move) (hs : s.script = .hardReset :: rest) (ht : t = { s with script := rest }.hardReset)
  | hardResetDuring (w : Word) (rest : List Move) (hs : s.script = .hardResetDuring w :: rest)
    (ht : t = { s with script := rest }.resetDuring w)

/-- A write of the MEM window is no write of a register (rule R61). -/
theorem sameFlags_writeWindow (s : State) (a : Nat) (v : Byte) : SameFlags s (s.writeWindow a v) := by
  unfold State.writeWindow
  split <;> exact ⟨rfl, rfl, rfl, rfl, rfl⟩

/-- Every step that answers a next state is one of the cases, whether a command runs or not. -/
theorem flagStep_of_step {s t : State} (h : step s = .next t) : FlagStep s t := by
  cases hs : s.script with
  | nil =>
    cases (step_nil hs).symm.trans h
    exact .kept ⟨rfl, rfl, rfl, rfl, rfl⟩
  | cons m rest =>
    simp only [step, performNext, hs, perform] at h
    split at h
    · cases h
    cases m with
    | readReg p | readMem a => cases h; exact .kept ⟨rfl, rfl, rfl, rfl, rfl⟩
    | writeMem a v =>
      cases h
      obtain ⟨heie, herr, hcode, hinfo, harg⟩ := sameFlags_writeWindow { s with script := rest } a.toNat v
      exact .kept ⟨heie, herr, hcode, hinfo, harg⟩
    | hardReset => cases h; exact .hardReset rest hs rfl
    | hardResetDuring w => cases h; exact .hardResetDuring w rest hs rfl
    | writeReg p v =>
      replace h : writePort (portReg p) v { s with script := rest } = .next t := h
      cases hp : portReg p with
      | cmd =>
        rw [hp] at h
        exact .cmd v rest (eq_cmdPort_of_portReg hp ▸ hs) h
      | ctrl =>
        rw [hp] at h
        cases h
        exact .ctrl v rest (eq_ctrlPort_of_portReg hp ▸ hs) rfl
      | id | cap | status | errinfo | errarg | desc | xlow | xhigh | reserved =>
        rw [hp] at h
        cases h
        exact .kept ⟨rfl, rfl, rfl, rfl, rfl⟩

/-- A write of CTRL sets no ERR (rules R32, R201). -/
theorem err_of_writeCtrl_err {s : State} {v : Word} (h : (s.writeCtrl v).err = true) : s.err = true := by
  unfold State.writeCtrl at h
  split at h
  · cases h
  · split at h
    · cases h
    · exact h

/-- A hardware reset that arrives with a command leaves no error recorded (rule R231). -/
theorem resetDuring_err (s : State) (w : Word) : (s.resetDuring w).err = false := by
  unfold State.resetDuring
  split
  · rfl
  · split <;> rfl

/-- Settles O52: of the moves that can change ERR, only the CMD write can set it. -/
theorem onlyRaisingSetsErr : Obligations.OnlyRaisingSetsErr := by
  unfold Obligations.OnlyRaisingSetsErr
  intro s t hstep herr _ hset
  cases flagStep_of_step hstep with
  | kept h => simp [h.err, herr] at hset
  | cmd w rest hs ht =>
    obtain ⟨number, arg, hlow, hhigh, hraised⟩ := issue_sets_err ht herr hset
    exact ⟨w, rest, number, arg, hs, hlow, hhigh, hraised⟩
  | ctrl v rest _ ht =>
    have hrecorded : s.err = true := err_of_writeCtrl_err (s := { s with script := rest }) (ht ▸ hset)
    simp [herr] at hrecorded
  | hardReset _ _ ht => subst ht; cases hset
  | hardResetDuring _ _ _ ht => simp [ht, resetDuring_err] at hset

/-- Settles O53: of the moves that can change the error registers, only the CMD write is left, and it is dropped. -/
theorem firstErrorIsKept : Obligations.FirstErrorIsKept := by
  unfold Obligations.FirstErrorIsKept
  intro s t hstep herr hctrl hreset hduring
  cases flagStep_of_step hstep with
  | kept h => exact ⟨h.err.trans herr, h.errcode, h.errinfo, h.errarg⟩
  | cmd w rest _ ht =>
    cases (issue_of_err (s := { s with script := rest }) herr w).symm.trans ht
    exact ⟨herr, rfl, rfl, rfl⟩
  | ctrl v rest hs => exact absurd hs (hctrl v rest)
  | hardReset rest hs => exact absurd hs (hreset rest)
  | hardResetDuring w rest hs => exact absurd hs (hduring w rest)

/-! ## The interrupt -/

/-- IRQ is CTRL.EIE AND STATUS.ERR (rule R206). -/
theorem irq_iff {s : State} : s.irq = true ↔ s.eie = true ∧ s.err = true := by
  simp [State.irq]

/-- Settles O54: a CMD write leaves EIE, a CTRL write sets no ERR, and after a reset ERR is 0. -/
theorem irqFollowsErrAndEie : Obligations.IrqFollowsErrAndEie := by
  unfold Obligations.IrqFollowsErrAndEie
  refine ⟨fun s => irq_iff, fun s t hstep _ hlow hhigh => ?_⟩
  obtain ⟨heie, herr⟩ := irq_iff.mp hhigh
  cases flagStep_of_step hstep with
  | kept h =>
    have hbefore : s.irq = true := irq_iff.mpr ⟨h.eie ▸ heie, h.err ▸ herr⟩
    simp [hlow] at hbefore
  | cmd w rest hs ht => exact .inl ⟨(issue_eie ht).symm.trans heie, w, rest, hs⟩
  | ctrl v rest hs ht => exact .inr ⟨err_of_writeCtrl_err (s := { s with script := rest }) (ht ▸ herr), v, rest, hs⟩
  | hardReset _ _ ht => subst ht; cases herr
  | hardResetDuring _ _ _ ht => simp [ht, resetDuring_err] at herr

/-! ## Returning from an error -/

/-- With no error recorded, clearing the error changes nothing (rule R208). -/
theorem clearError_of_noError {s : State} (h : s.Inv) (herr : s.err = false) : s.clearError = s := by
  obtain ⟨hcode, hinfo, harg⟩ := h.noError herr
  cases s
  simp_all [State.clearError]

/-- Settles O50: the write clears the error, which leaves the engine ready for the CMD write that follows. -/
theorem errclrReturnsFromAnError : Obligations.ErrclrReturnsFromAnError := by
  unfold Obligations.ErrclrReturnsFromAnError
  intro s v w i rest hinv hs h0 h1
  have hstep : step s = .next { s with script := .writeReg cmdPort w :: rest, eie := v.getLsbD 2 }.clearError := by
    rw [step_writeReg hinv.idle hs, portReg_ctrlPort, writePort, writeCtrl_of_errclr h0 h1]
  refine ⟨_, hstep, rfl, rfl, rfl, rfl, Bool.and_false _, rfl, rfl, rfl, rfl, rfl, fun hd => ?executed, fun herr => ?unchanged⟩
  case executed => exact stepRunsTheDecodedCommand _ w rest i ⟨rfl, hinv.idle⟩ rfl hd
  case unchanged => exact clearError_of_noError (inv_eie (inv_script hinv (.writeReg cmdPort w :: rest)) (v.getLsbD 2)) herr

/-! ## No step stops -/

/-- A write of a register always answers a next state (rules R29 to R39, R200). -/
theorem exists_writePort (r : PortReg) (v : Word) (s : State) : ∃ t, writePort r v s = .next t := by
  cases r with
  | cmd => exact exists_issue v s
  | id | cap | ctrl | status | errinfo | errarg | desc | xlow | xhigh | reserved => exact ⟨_, rfl⟩

/-- Settles O60, by the move at the head of the script: with BUSY 0 none is refused, and no command faults. -/
theorem noStepStops : Obligations.NoStepStops := by
  unfold Obligations.NoStepStops
  intro s h
  cases hs : s.script with
  | nil => exact ⟨_, step_nil hs⟩
  | cons m rest =>
    cases m with
    | readReg p => exact ⟨_, step_readReg h.idle hs⟩
    | writeReg p v => exact step_writeReg h.idle hs ▸ exists_writePort ..
    | readMem a => exact ⟨_, step_readMem h.idle hs⟩
    | writeMem a v => exact ⟨_, step_writeMem h.idle hs⟩
    | hardReset => exact ⟨_, step_hardReset hs⟩
    | hardResetDuring w => exact ⟨_, step_hardResetDuring h.idle hs⟩

end Sys2Proof.Proofs
end

section
/-!
PROOFS of the statements about the resets and the hazards (spec/70_reset_and_hazards.md). A hardware reset during a command stores
a free draw at the addresses of the command's plan; the plan does not look at the script, so those are the addresses it has in the
state whose next move the reset is.
-/

namespace Sys2Proof.Proofs

open Sys2Proof.Machine Sys2Proof.Laws

/-! ## A hardware reset during a command -/

/-- A draw stored at each of a list of addresses is read back there, and an address may stand in the list more than once. -/
theorem lookup_storeAll_map (draw : Nat → Byte) (as : List Nat) (m : Memory) (a : Nat) :
    (m.storeAll (as.map fun b => (b, draw b))).lookup a = if a ∈ as then some (draw a) else m.lookup a := by
  induction as generalizing m with
  | nil => rfl
  | cons b as ih =>
    have hcons : m.storeAll ((b :: as).map fun b => (b, draw b)) =
        (m.insert b (draw b)).storeAll (as.map fun b => (b, draw b)) := rfl
    rw [hcons, ih, lookup_insert]
    by_cases has : a ∈ as
    · simp [has]
    · by_cases hab : a = b <;> simp [has, hab]

/-- A torn command's addresses read as the free draw, every other address as before (rule R231; log entry 5). -/
theorem readByte_hardResetTorn (s : State) (as : List Nat) (a : Nat) :
    (s.hardResetTorn as).readByte a = if a ∈ as then Config.freeByte s.nextDraw a else s.readByte a := by
  have hlookup := lookup_storeAll_map (Config.freeByte s.nextDraw) as s.mem a
  by_cases ha : a ∈ as <;>
    simp [State.readByte, State.unlistedByte, hlookup, ha]

/-- The state s with other moves to come. -/
def withScript (s : State) (rest : List Move) : State := { s with script := rest }

section
variable (s : State) (rest : List Move)

@[simp] theorem withScript_view (r : DReg) : (withScript s rest).view r = s.view r := rfl
@[simp] theorem withScript_natX (r : XReg) : (withScript s rest).natX r = s.natX r := rfl

/-- Every byte of MEM is as it was. -/
theorem sameBytes_withScript (base n : Nat) : SameBytes s (withScript s rest) base n := fun _ _ _ => rfl

@[simp] theorem vRaw_withScript (v : View) : vRaw (withScript s rest) v = vRaw s v :=
  vRaw_of_sameBytes (sameBytes_withScript s rest _ _)

@[simp] theorem vVal_withScript (v : View) : vVal (withScript s rest) v = vVal s v :=
  vVal_of_sameBytes (sameBytes_withScript s rest _ _)

@[simp] theorem packValue_withScript (fs : List View) : packValue (withScript s rest) fs = packValue s fs :=
  packValue_of_sameBytes fun _ _ => sameBytes_withScript s rest _ _

@[simp] theorem packCheck_withScript (dst : View) (ta k : Nat) :
    packCheck (withScript s rest) dst ta k = packCheck s dst ta k :=
  packCheck_of_sameBytes rfl (sameBytes_withScript s rest _ _)

/-- The plan of a command does not depend on the moves to come (rule R14). -/
theorem plan_withScript (i : Instr) : plan i (withScript s rest) = plan i s := by
  cases i with
  | bsize | bget | bset | mask | lji | rji | csize | getbit | setbit | fromint | strh => rfl
  | conv | ival | strb =>
    refine bind_congr_of_ok fun _ _ => bind_congr_of_ok fun _ _ => ?_
    simp only [withScript_view, vVal_withScript]
  | neg | ljv | rjv =>
    refine bind_congr_of_ok fun _ _ => ?_
    simp only [withScript_view, vRaw_withScript]
  | pack =>
    simp only [plan, planPack, withScript_view, withScript_natX, packCheck_withScript, packValue_withScript]

/-- Nor do the addresses it would store to. -/
theorem storedAddresses_withScript (i : Instr) : storedAddresses i (withScript s rest) = storedAddresses i s := by
  rw [storedAddresses, storedAddresses, plan_withScript]

end

/-- A hardware reset tears the command that the word holds when the engine would have accepted it (rules R34, R202, R231). -/
theorem resetDuring_of_decode {s : State} {w : Word} {i : Instr} (herr : s.err = false) (hd : decode w = .ok i) :
    s.resetDuring w = s.hardResetTorn (storedAddresses i s) := by
  simp [State.resetDuring, herr, hd]

/-- Settles O56: the reset tears the addresses of the command's plan, which the script does not change. -/
theorem resetDuringACommand : Obligations.ResetDuringACommand := by
  unfold Obligations.ResetDuringACommand
  intro s w i rest hready hs hd
  obtain ⟨herr, hbusy⟩ := hready
  have hstep : step s = .next ((withScript s rest).resetDuring w) := step_hardResetDuring hbusy hs
  rw [resetDuring_of_decode (s := withScript s rest) herr hd, storedAddresses_withScript] at hstep
  exact ⟨_, hstep, readX_resetRegisters s, readD_resetRegisters s, rfl, rfl, rfl, rfl, rfl, rfl, rfl, rfl, rfl,
    readByte_hardResetTorn _ _⟩

/-! ## A reset while no command runs -/

/-- Settles O55: the reset lists no byte of MEM, so each one reads as the new draw. -/
theorem hardwareResetValues : Obligations.HardwareResetValues := by
  unfold Obligations.HardwareResetValues
  intro s rest _ hs
  exact ⟨_, step_hardReset hs, readX_resetRegisters s, readD_resetRegisters s, rfl, rfl, rfl, rfl, rfl, rfl, rfl, rfl, rfl,
    rfl, fun _ => rfl⟩

/-- Settles O57: the write is the soft reset, which keeps MEM and its draw. -/
theorem softResetKeepsMem : Obligations.SoftResetKeepsMem := by
  unfold Obligations.SoftResetKeepsMem
  intro s v rest hb hv hs
  have hstep : step s = .next { s with script := rest }.softReset := by
    rw [step_writeReg hb hs, portReg_ctrlPort, writePort, writeCtrl_of_srst hv]
  exact ⟨_, hstep, readX_resetRegisters s, readD_resetRegisters s, rfl, rfl, rfl, rfl, rfl, rfl, rfl, rfl,
    readByte_congr rfl rfl⟩

/-! ## Accesses while a command runs -/

/-- An access that rule R235 forbids is refused (log entry 7). -/
theorem step_of_forbidden {s : State} {m : Move} {rest : List Move} (hb : s.busy = true) (hs : s.script = m :: rest)
    (hm : m.allowedWhileBusy = false) : step s = .refused .accessWhileBusy := by
  simp only [step, performNext, hs, perform]
  rw [if_pos (by simp [hb, hm])]

/-- A read that rule R235 allows answers the register's value whether a command runs or not, and changes nothing else. -/
theorem step_readReg_of_allowed {s : State} {p : PortWord} {rest : List Move} (hs : s.script = .readReg p :: rest)
    (hp : (Move.readReg p).allowedWhileBusy = true) :
    step s = .next { s with reply := some (.word (s.readPort (portReg p))), script := rest } := by
  simp only [step, performNext, hs, perform]
  rw [if_neg (by simp [hp])]
  cases portReg p <;> rfl

/-- The only register words a host may read while a command runs are ID and STATUS (rules R29, R235). -/
theorem allowedWhileBusy_readReg_iff {p : PortWord} : (Move.readReg p).allowedWhileBusy = true ↔ p = 0 ∨ p = 3 := by
  have small : ∀ n, n < 32 → (Move.readReg (BitVec.ofNat 14 n)).allowedWhileBusy = true → n = 0 ∨ n = 3 := by decide
  refine ⟨fun h => ?_, by rintro (rfl | rfl) <;> decide⟩
  by_cases hlt : p.toNat < 32
  · exact (small p.toNat hlt (by simpa using h)).imp BitVec.eq_of_toNat_eq BitVec.eq_of_toNat_eq
  · simp [Move.allowedWhileBusy, portReg_of_high (Nat.le_of_not_lt hlt)] at h

/-- Settles O51: a move is forbidden but for the reads of ID and STATUS, and STATUS answers its fields. -/
theorem accessWhileBusyIsRefused : Obligations.AccessWhileBusyIsRefused := by
  unfold Obligations.AccessWhileBusyIsRefused
  intro s p v a b rest hb
  refine ⟨?writeOrMem, fun hs h0 h3 => ?otherRead, fun hs => ?id, fun hs => ⟨?status, ?fields⟩⟩
  case writeOrMem =>
    rintro (hs | hs | hs) <;> exact step_of_forbidden hb hs rfl
  case otherRead =>
    refine step_of_forbidden hb hs (Bool.eq_false_iff.mpr fun h => ?_)
    exact (allowedWhileBusy_readReg_iff.mp h).elim h0 h3
  case id => exact step_readReg_of_allowed hs (allowedWhileBusy_readReg_iff.mpr (.inl rfl))
  case status => exact step_readReg_of_allowed hs (allowedWhileBusy_readReg_iff.mpr (.inr rfl))
  case fields => exact ⟨(statusWord_busy s).trans hb, statusWord_err s, statusWord_errcode s⟩

end Sys2Proof.Proofs
end
